-- ==== Sys2Proof/Word.lean ====
section
/-! DEFINITION. The word types of the FGC codec block: a byte of a buffer or of the wire, a byte sequence (R5), a 32-bit
register word (R61). -/

namespace Sys2Proof

/-- A byte: an integer in [0, 255] (R5). -/
abbrev Byte := BitVec 8

/-- A byte sequence, element 0 first (R5). -/
abbrev Bytes := List Byte

/-- A 32-bit register word (R61). -/
abbrev Word := BitVec 32

end Sys2Proof
end

