-- ==== Sys2Proof/Machine/Bytes.lean ====
section
/-! DEFINITION. The byte-sequence helpers of R4 to R7: slices, big-endian integers, the exclusive-or checksum, the sign
readings of a 32-bit pattern. -/

namespace Sys2Proof.Machine

/-- be16(v): most significant byte first (R6, R65). -/
def be16 (v : BitVec 16) : Bytes := [v.extractLsb' 8 8, v.extractLsb' 0 8]

/-- A 24-bit value, most significant byte first: the form in which the table reads an upgrade-message header. -/
def be24 (v : BitVec 24) : Bytes := [v.extractLsb' 16 8, v.extractLsb' 8 8, v.extractLsb' 0 8]

/-- be32(v) (R6). -/
def be32 (v : BitVec 32) : Bytes :=
  [v.extractLsb' 24 8, v.extractLsb' 16 8, v.extractLsb' 8 8, v.extractLsb' 0 8]

/-- s[i] (R5). No rule reads outside its sequence, so the 0 given there is never used by an operation. -/
def byteAt (s : Bytes) (i : Nat) : Byte := s.getD i 0

/-- rd16(s, i) (R6). -/
def rd16 (s : Bytes) (i : Nat) : BitVec 16 := byteAt s i ++ byteAt s (i + 1)

/-- rd32(s, i) (R6). -/
def rd32 (s : Bytes) (i : Nat) : BitVec 32 := rd16 s i ++ rd16 s (i + 2)

/-- s[a..b) (R5). -/
def slice (s : Bytes) (a b : Nat) : Bytes := (s.drop a).take (b - a)

/-- xorsum(s): the exclusive or of every byte, from 0 (R7). -/
def xorsum (s : Bytes) : Byte := s.foldl (fun acc b => acc ^^^ b) 0

/-- zext_32(v) (R4). -/
def zext (v : Word) : Int := (v.toNat : Int)

/-- sext_32(v): v - 2^32 when the top bit is set (R4). -/
def sext (v : Word) : Int := if v.getLsbD 31 then (v.toNat : Int) - 2 ^ 32 else (v.toNat : Int)

/-- clamp(x, lo, hi) = max(lo, min(x, hi)) (R4). -/
def clamp (x lo hi : Int) : Int := max lo (min x hi)

end Sys2Proof.Machine
end

