-- ==== Sys2Proof/Config.lean ====
section
/-! DEFINITION. What an implementation fixes (the parameters of R1) and the free values the spec leaves open. -/

namespace Sys2Proof

/-- The spec identifier string of the block (spec/00_scope.md section 1, decision D1). -/
def Config.identifier : String := "FGC-CODEC-v7"

/-- The three byte buffers (R47): input, firmware, output. -/
inductive Buf where
  | ibuf
  | fwbuf
  | obuf
  deriving DecidableEq, Repr, Inhabited

/-- The parameters of R1 as a platform writes them, before the check of R2. -/
structure RawParams where
  ibufBytes : Nat
  fwMaxBytes : Nat
  obufBytes : Nat
  peerWordSigned : Bool
  deriving DecidableEq, Repr, Inhabited

/-- A configuration that satisfies R1: it is written by how far each size exceeds its least legal value, so that every
value of this type is a conforming configuration and every conforming configuration is a value of it (R2). LATENCY is not
here: it is drawn anew for each operation, by where the sequencer's turn stands in the agenda of the state. -/
structure Params where
  /-- IBUF_BYTES less its least value 65545. -/
  ibufExtra : Nat
  /-- FW_MAX_BYTES, from 0 to 2^31 - 1. -/
  fwMax : BitVec 31
  /-- OBUF_BYTES less its least value. -/
  obufExtra : Nat
  /-- PEER_WORD_SIGNED, an open Boolean parameter (decision D23). -/
  peerWordSigned : Bool
  deriving DecidableEq, Repr, Inhabited

/-- IBUF_BYTES (R1): at least 65545. -/
def Params.ibufBytes (p : Params) : Nat := p.ibufExtra + 65545

/-- FW_MAX_BYTES (R1): at most 2^31 - 1. -/
def Params.fwMaxBytes (p : Params) : Nat := p.fwMax.toNat

/-- The least legal OBUF_BYTES (R1). -/
def leastObufBytes (ibufBytes fwMaxBytes : Nat) : Nat := max (ibufBytes + 4) (max (14 * fwMaxBytes) 65545)

/-- OBUF_BYTES (R1). -/
def Params.obufBytes (p : Params) : Nat := p.obufExtra + leastObufBytes p.ibufBytes p.fwMaxBytes

/-- FREE VALUE. The configuration of the block that is reset: R1 fixes the constraints and no value. Only State.reset
reads it; a state carries its own parameters, so a statement over every state is one over every configuration. -/
opaque Config.params : Params

/-- FREE VALUE. The byte that a buffer holds at an address from power-on (R50, R271: an arbitrary draw, kept by reset). -/
opaque Config.powerOnByte : Buf → Nat → Byte

/-- FREE VALUE. What OUT_LEN holds after an output of 2^32 bytes or more: the spec gives the 32-bit register (R36) the
output length and states no value for a length that 32 bits do not hold. -/
opaque Config.wideOutLen : Nat → Word

end Sys2Proof
end

