-- ==== Sys2Proof/Syntax.lean ====
section
/-! DEFINITION. One constructor per row of spec/opcode_table.json: the ten operations and the six reserved codes that
CMD.OP selects (R95, R96), and the five wire selectors (R90, R91, R92). -/

namespace Sys2Proof

inductive Instr where
  /-- PACK_HDR, OP 0x1 (R121). -/
  | packHdr
  /-- UNPACK_HDR, OP 0x2 (R123). -/
  | unpackHdr
  /-- ENC_PDU, OP 0x3 (R142). -/
  | encPdu
  /-- ENC_FRAME, OP 0x4 (R147). -/
  | encFrame
  /-- DEC_FRAME, OP 0x5 (R153). -/
  | decFrame
  /-- ENC_UPG, OP 0x6 (R171). -/
  | encUpg
  /-- DEC_UPG, OP 0x7 (R173). -/
  | decUpg
  /-- REC_APPVER, OP 0x8 (R191). -/
  | recAppver
  /-- REC_DATAREQ, OP 0x9 (R193). -/
  | recDatareq
  /-- SEGMENT, OP 0xA (R219). -/
  | segment
  /-- The reserved code 0x0 (R96). -/
  | reservedOp0
  /-- The reserved code 0xB (R96). -/
  | reservedOpB
  /-- The reserved code 0xC (R96). -/
  | reservedOpC
  /-- The reserved code 0xD (R96). -/
  | reservedOpD
  /-- The reserved code 0xE (R96). -/
  | reservedOpE
  /-- The reserved code 0xF (R96). -/
  | reservedOpF
  /-- APPVER_RSP: the command description 0x0105 of an application-version response (R92). -/
  | appverRsp
  /-- DATA_BYTES_REQ_NTF: the command description 0x0C80 of a "data bytes requested" notification (R90). -/
  | dataBytesReqNtf
  /-- UPG_DATA_BYTES_REQ: the upgrade-message header 03 00 08 (R90). -/
  | upgDataBytesReq
  /-- UPG_DATA_CMD: the command description 0x0C02 of the frames SEGMENT emits (R91). -/
  | upgDataCmd
  /-- UPG_DATA: an upgrade-message header with opcode 0x04 and the given content length (R91). -/
  | upgData (contentLength : BitVec 16)
  deriving DecidableEq, Repr

end Sys2Proof
end

