-- ==== Sys2Proof/Machine/State.lean ====
section
/-! DEFINITION. The state of the FGC codec block: the register file, the three buffers, the operation in flight (R20), and
beside them the configuration and the host's side as the model's own fields. Plain data throughout. -/

namespace Sys2Proof.Machine

/-- A sparse byte buffer: (address, byte) pairs with strictly rising addresses. An address that is not listed is one that
nothing has written, and it holds its power-on draw (R50). -/
abbrev Memory := List Host.Cell

/-- The operand registers, which only the host writes (R22, R24 to R35, R45). Reserved bits are not stored: they read 0
(R44). -/
structure OperandRegs where
  /-- CMD.OP (R22). -/
  op : BitVec 4
  /-- CFG.VERSION (R24). -/
  version : Byte
  /-- CFG.USE_CHECKSUM (R24). -/
  useChecksum : Bool
  /-- VENDOR.VENDOR_ID (R25). -/
  vendorId : BitVec 16
  /-- EXPECT.EXPECTED_VENDOR (R26). -/
  expectedVendor : BitVec 16
  /-- HDR_IN.FEATURE_IN (R27). -/
  featureIn : Byte
  /-- HDR_IN.TYPE_IN (R27). -/
  typeIn : Byte
  /-- HDR_IN.COMMAND_IN (R27). -/
  commandIn : Byte
  /-- DESC_IN.DESC_IN (R28). -/
  descIn : BitVec 16
  /-- IN_LEN (R29). -/
  inLen : Word
  /-- UPG_OP.UPG_OPCODE (R30). -/
  upgOpcode : Byte
  /-- FW_LEN (R31). -/
  fwLen : Word
  /-- CURSOR.CURSOR_IN (R32). -/
  cursorIn : Word
  /-- REQ.REQUESTED_IN (R33). -/
  requestedIn : Word
  /-- REWIND.REWIND_IN (R34). -/
  rewindIn : Word
  /-- MAXPKT.MAX_PER_PACKET (R35). -/
  maxPerPacket : Word
  deriving DecidableEq, Repr

/-- STATUS (R23): with CMD.OP, BUSY is the operation in flight (R46). -/
structure Status where
  busy : Bool
  done : Bool
  result : BitVec 2
  errCode : BitVec 4
  deriving DecidableEq, Repr

/-- The result registers, which only a completion writes (R36 to R43). -/
structure ResultRegs where
  /-- OUT_LEN (R36). -/
  outLen : Word
  /-- RES_DESC (R37). -/
  desc : BitVec 16
  /-- RES_FIELDS.RES_FEATURE (R38). -/
  feature : BitVec 7
  /-- RES_FIELDS.RES_TYPE (R38). -/
  packetType : BitVec 2
  /-- RES_FIELDS.RES_COMMAND (R38). -/
  command : BitVec 7
  /-- RES_UPG_OP.RES_UPG_OPCODE (R39). -/
  upgOpcode : Byte
  /-- RES_REQ.RES_REQUESTED (R40). -/
  requested : Word
  /-- RES_MOVEBY (R41). -/
  moveBy : Word
  /-- RES_CURSOR (R42). -/
  cursor : Word
  /-- RES_FRAMES (R43). -/
  frames : Word
  deriving DecidableEq, Repr

/-- One host access through the port of R60: a 32-bit register access at an 8-bit byte offset (R61), or a one-byte access
to a buffer (R62). -/
inductive Access where
  | writeReg (offset : BitVec 8) (data : Word)
  | readReg (offset : BitVec 8)
  | writeByte (buf : Buf) (addr : Nat) (data : Byte)
  | readByte (buf : Buf) (addr : Nat)
  deriving DecidableEq, Repr

/-- What happens in one block step: the outside world and the sequencer take turns. -/
inductive Turn where
  /-- The host makes one access (R69). -/
  | host (a : Access)
  /-- The sequencer takes its completion step if an operation is in flight (R275). -/
  | sequencer
  /-- A block step in which nothing happens: LATENCY passes (R275). -/
  | idle
  /-- Reset is asserted (R270). -/
  | reset
  deriving DecidableEq, Repr

/-- The state. params, agenda and answers are the MODEL'S OWN fields: the configuration of R1, which no step changes; the
turns still to come, oldest first, which stand for the host's program and for the LATENCY draws; the answers that host
reads got, newest first, which nothing in the block reads. -/
structure State where
  operands : OperandRegs
  status : Status
  results : ResultRegs
  ibuf : Memory
  fwbuf : Memory
  obuf : Memory
  params : Params
  agenda : List Turn
  answers : List Word
  deriving DecidableEq, Repr

/-- The machine never faults: no host access faults and every operation ends in one of three result classes (R240, R249),
so this type has no value. -/
inductive Fault where
  deriving DecidableEq, Repr

/-- Why the model gives something no meaning. -/
inductive Refusal where
  /-- An instruction of the table without a meaning yet. Raised by an arm of exec. Safe: nothing follows from it. No arm
  raises it now. -/
  | notModelled (mnemonic : String)
  /-- A configuration that violates R1 (R2). Raised by the check of a configuration, before there is a machine. Safe: R2
  asks for it. -/
  | nonconformingConfiguration
  deriving DecidableEq, Repr

/-- The reset values of the operand registers (R22 to R35, R270). -/
def OperandRegs.atReset : OperandRegs where
  op := 0
  version := 0
  useChecksum := false
  vendorId := 0x001D
  expectedVendor := 0x001D
  featureIn := 0
  typeIn := 0
  commandIn := 0
  descIn := 0
  inLen := 0
  upgOpcode := 0
  fwLen := 0
  cursorIn := 0
  requestedIn := 0
  rewindIn := 0
  maxPerPacket := 0xFA

/-- The reset value of STATUS (R23, R270). -/
def Status.atReset : Status where
  busy := false
  done := false
  result := 0
  errCode := 0

/-- The reset values of the result registers (R36 to R43, R270). -/
def ResultRegs.atReset : ResultRegs where
  outLen := 0
  desc := 0
  feature := 0
  packetType := 0
  command := 0
  upgOpcode := 0
  requested := 0
  moveBy := 0
  cursor := 0
  frames := 0

/-- The block right after power-on reset in a given configuration (R273): registers at their reset values, every buffer
byte its draw, no operation in flight, nothing pending outside. -/
def State.powerOn (p : Params) : State where
  operands := .atReset
  status := .atReset
  results := .atReset
  ibuf := []
  fwbuf := []
  obuf := []
  params := p
  agenda := []
  answers := []

/-- The machine right after reset (R270, R271, R273), in the configuration that the spec leaves open. -/
def State.reset : State := State.powerOn Config.params

end Sys2Proof.Machine
end

