-- ==== Sys2Proof/Machine/Flags.lean ====
section
/-! DEFINITION. The flags of the block: the fields of STATUS that START and each result class write, and the flags byte and
the checksum of a frame. -/

namespace Sys2Proof.Machine

/-- The contract errors of R241. -/
inductive ErrCode where
  | illegalOp
  | inLenRange
  | fwLenRange
  | badVersion
  | payloadTooLong
  | contentTooLong
  | badMaxPerPacket
  deriving DecidableEq, Repr

/-- STATUS.ERRCODE for each contract error (R241). -/
def errCodeBits : ErrCode → BitVec 4
  | .illegalOp => 1
  | .inLenRange => 2
  | .fwLenRange => 3
  | .badVersion => 4
  | .payloadTooLong => 5
  | .contentTooLong => 6
  | .badMaxPerPacket => 7

/-- STATUS while an operation is in flight (R274). -/
def statusStarted : Status := { busy := true, done := false, result := 0, errCode := 0 }

/-- STATUS after a completion with OK (R243). -/
def statusOk : Status := { busy := false, done := true, result := 0, errCode := 0 }

/-- STATUS after a completion with NOT_RECOGNIZED (R245). -/
def statusNotRecognized : Status := { busy := false, done := true, result := 1, errCode := 0 }

/-- STATUS after a completion with CONTRACT_ERROR (R244). -/
def statusContractError (e : ErrCode) : Status :=
  { busy := false, done := true, result := 2, errCode := errCodeBits e }

/-- The flags byte that an encoder writes: bit 0 CHK, bit 1 LEXT, bits [7:2] zero (R83, R145, decision D18). -/
def flagsByte (ext chk : Bool) : Byte := (if ext then 0x02#8 else 0x00#8) ||| (if chk then 0x01#8 else 0x00#8)

/-- CHK, bit 0 of a received flags byte (R83, R150). -/
def flagChk (flags : Byte) : Bool := flags.getLsbD 0

/-- The length extension of a received frame: bit 1 of the flags byte, read only at version 4 or above (R150, decision
D19). -/
def flagExt (version flags : Byte) : Bool := decide (4 ≤ version.toNat) && flags.getLsbD 1

end Sys2Proof.Machine
end

