-- ==== Sys2Proof/Machine/HeaderFields.lean ====
section
/-! DEFINITION. The 16-bit command description: its packing, its fields, the packet-type codes (R80, R81, R120, R122), and the
well-known ids and opcodes (R93). -/

namespace Sys2Proof.Machine

/-- The four packet types (R81). -/
inductive PacketType where
  | command
  | notification
  | response
  | error
  deriving DecidableEq, Repr

/-- The code of a packet type (R81, decision D3). -/
def packetTypeCode : PacketType → BitVec 2
  | .command => 0
  | .notification => 1
  | .response => 2
  | .error => 3

/-- The packet type of a code: every code names one (R81). -/
def packetTypeOf (code : BitVec 2) : PacketType :=
  if code = 0 then .command else if code = 1 then .notification else if code = 2 then .response else .error

/-- The start marker of every frame (R93). -/
abbrev startMarker : Byte := 0xFF

/-- The default vendor id: VENDOR and EXPECT at reset, and the vendor of the segmenter's frames (R93). -/
abbrev defaultVendorId : BitVec 16 := 0x001D

/-- The legacy vendor id (R93): no operation fixes it, a host may load it into VENDOR or EXPECT. -/
abbrev legacyVendorId : BitVec 16 := 0x000A

/-- The framework feature id (R93). -/
abbrev frameworkFeature : BitVec 7 := 0x00

/-- The "get application version" command id (R93). -/
abbrev appVersionCommand : BitVec 7 := 0x05

/-- The upgrade feature id (R93). -/
abbrev upgradeFeature : BitVec 7 := 0x06

/-- The "upgrade control" command id (R93). -/
abbrev upgradeControlCommand : BitVec 7 := 0x02

/-- The "upgrade notification" command id (R93). -/
abbrev upgradeNotificationCommand : BitVec 7 := 0x00

/-- The "data bytes requested" opcode (R93). -/
abbrev dataRequestOpcode : Byte := 0x03

/-- The "upgrade data" opcode (R93). -/
abbrev upgradeDataOpcode : Byte := 0x04

/-- The three fields of a command description (R80). -/
structure DescFields where
  feature : BitVec 7
  packetType : BitVec 2
  command : BitVec 7
  deriving DecidableEq, Repr

/-- packDesc(f, t, c) = ((f & 0x7F) << 9) | ((t & 0x3) << 7) | (c & 0x7F) (R120). -/
def packDesc (f t c : Nat) : BitVec 16 :=
  BitVec.ofNat 16 (((f &&& 0x7F) <<< 9) ||| ((t &&& 0x3) <<< 7) ||| (c &&& 0x7F))

/-- unpackDesc(d) = (d[15:9], d[8:7], d[6:0]) (R122). -/
def unpackDesc (d : BitVec 16) : DescFields where
  feature := d.extractLsb' 9 7
  packetType := d.extractLsb' 7 2
  command := d.extractLsb' 0 7

end Sys2Proof.Machine
end

