-- ==== Sys2Proof/Machine/Memory.lean ====
section
/-! DEFINITION. The byte buffers as lists of cells: their canonical form, reading a byte, writing a run of bytes. -/

namespace Sys2Proof.Machine

/-- The canonical form of a buffer of the given size: addresses strictly rising and inside the buffer. An unlisted address
lists no byte at all, so no entry equals what an unlisted address reads as. -/
abbrev Memory.wf (size : Nat) (m : Memory) : Prop :=
  m.Pairwise (fun x y => x.1 < y.1) ∧ ∀ c ∈ m, c.1 < size

/-- The byte listed at an address, if any. -/
def cellAt : Memory → Nat → Option Byte
  | [], _ => none
  | (b, v) :: rest, a => if b = a then some v else cellAt rest a

/-- The cells of a byte sequence laid out from an address. -/
def cellsFrom (a : Nat) : Bytes → Memory
  | [] => []
  | v :: vs => (a, v) :: cellsFrom (a + 1) vs

/-- A buffer after a run of bytes is written from an address. -/
def writeCells (a : Nat) (bytes : Bytes) (m : Memory) : Memory :=
  m.filter (fun c => c.1 < a) ++ cellsFrom a bytes ++ m.filter (fun c => a + bytes.length ≤ c.1)

/-- The cells of one of the three buffers. -/
def cellsOf (b : Buf) (s : State) : Memory :=
  match b with
  | .ibuf => s.ibuf
  | .fwbuf => s.fwbuf
  | .obuf => s.obuf

/-- The state with the cells of one buffer replaced. -/
def withCells (b : Buf) (m : Memory) (s : State) : State :=
  match b with
  | .ibuf => { s with ibuf := m }
  | .fwbuf => { s with fwbuf := m }
  | .obuf => { s with obuf := m }

/-- The size of a buffer in bytes (R47). -/
def bufferSize (p : Params) : Buf → Nat
  | .ibuf => p.ibufBytes
  | .fwbuf => p.fwMaxBytes
  | .obuf => p.obufBytes

/-- The least size that R1 allows a buffer. -/
def leastSize : Buf → Nat
  | .ibuf => 65545
  | .fwbuf => 0
  | .obuf => 65545

/-- Whether an address lies inside a buffer (R62): the parameter is looked at beyond the least size only. -/
def inBuffer (p : Params) (b : Buf) (addr : Nat) : Bool :=
  decide (addr < leastSize b) || decide (addr < bufferSize p b)

/-- Whether a buffer has room for a run of bytes from address 0 (R29, R31). -/
def holds (p : Params) (b : Buf) (n : Nat) : Bool := decide (n ≤ leastSize b) || decide (n ≤ bufferSize p b)

/-- The byte a buffer holds at an address: the one last written, or else its power-on draw (R50, R271). -/
def bufferByte (b : Buf) (a : Nat) (s : State) : Byte :=
  (cellAt (cellsOf b s) a).getD (Config.powerOnByte b a)

/-- MemRead(space, addr, n) (R8). -/
def memRead (b : Buf) (addr n : Nat) (s : State) : Bytes :=
  (List.range n).map fun i => bufferByte b (addr + i) s

/-- MemWrite(space, addr, n, s) (R8), n the length of the sequence. -/
def memWrite (b : Buf) (addr : Nat) (bytes : Bytes) (s : State) : State :=
  withCells b (writeCells addr bytes (cellsOf b s)) s

end Sys2Proof.Machine
end

