-- ==== Sys2Proof/WellFormed.lean ====
section
/-! DEFINITION. Which instructions and which configurations are well formed. -/

namespace Sys2Proof

/-- The content lengths that an upgrade-data message of the block can have: the marker is always there (R91, R217), and
a frame payload holds at most 65535 bytes, three of which are the message's header (R211, R214). -/
def upgDataLengthOk (contentLength : BitVec 16) : Bool :=
  1 ≤ contentLength.toNat && contentLength.toNat ≤ 65532

/-- Every operation code is well formed, the reserved ones too: a START of one runs and completes with ILLEGAL_OP (R96).
The only operand of the table is UPG_DATA's content length. -/
def Instr.wellFormed : Instr → Bool
  | .packHdr => true
  | .unpackHdr => true
  | .encPdu => true
  | .encFrame => true
  | .decFrame => true
  | .encUpg => true
  | .decUpg => true
  | .recAppver => true
  | .recDatareq => true
  | .segment => true
  | .reservedOp0 => true
  | .reservedOpB => true
  | .reservedOpC => true
  | .reservedOpD => true
  | .reservedOpE => true
  | .reservedOpF => true
  | .appverRsp => true
  | .dataBytesReqNtf => true
  | .upgDataBytesReq => true
  | .upgDataCmd => true
  | .upgData contentLength => upgDataLengthOk contentLength

/-- The constraints of R1 on a configuration. -/
def RawParams.conforming (c : RawParams) : Bool :=
  65545 ≤ c.ibufBytes && c.fwMaxBytes ≤ 2 ^ 31 - 1 && leastObufBytes c.ibufBytes c.fwMaxBytes ≤ c.obufBytes

end Sys2Proof
end

