-- ==== Sys2Proof/Machine/Ops.lean ====
section
/-! DEFINITION. The shared operations: START, the three completions (R243 to R245: a contract error is this block's
exception, and there is no return from one, R248), reset, the check of a configuration. -/

namespace Sys2Proof.Machine

/-- The result of a pure function (R9): Ok(values), NotRecognized or ContractError(code). -/
inductive Result (α : Type) where
  | ok (value : α)
  | notRecognized
  | contractError (e : ErrCode)
  deriving DecidableEq, Repr

/-- Go on with the value of an Ok result; any other result is the result of the whole (R8). -/
def andThen {α β : Type} (r : Result α) (f : α → Result β) : Result β :=
  match r with
  | .ok a => f a
  | .notRecognized => .notRecognized
  | .contractError e => .contractError e

/-- What an OK completion commits (R243): the byte output, and the result registers that the operation's rule lists. An
entry that is none is a register the rule does not list. -/
structure Commit where
  bytes : Bytes := []
  /-- RES_DESC, and with it RES_FIELDS (R38). -/
  desc : Option (BitVec 16) := none
  /-- RES_UPG_OP. -/
  upgOpcode : Option Byte := none
  /-- RES_REQ and RES_MOVEBY. -/
  dataRequest : Option (Word × Word) := none
  /-- RES_CURSOR and RES_FRAMES. -/
  progress : Option (Word × Word) := none
  deriving DecidableEq, Repr

/-- OUT_LEN for an output of the given length (R36). A length that 32 bits do not hold is a FREE VALUE: the spec states
none. -/
def outLenWord (n : Nat) : Word := if n < 2 ^ 32 then BitVec.ofNat 32 n else Config.wideOutLen n

/-- RES_DESC and RES_FIELDS, written together (R37, R38). -/
def withDesc (d : Option (BitVec 16)) (r : ResultRegs) : ResultRegs :=
  match d with
  | none => r
  | some d =>
    { r with
      desc := d
      feature := (unpackDesc d).feature
      packetType := (unpackDesc d).packetType
      command := (unpackDesc d).command }

/-- RES_UPG_OP (R39). -/
def withUpgOpcode (o : Option Byte) (r : ResultRegs) : ResultRegs :=
  match o with
  | none => r
  | some o => { r with upgOpcode := o }

/-- RES_REQ and RES_MOVEBY (R40, R41). -/
def withDataRequest (q : Option (Word × Word)) (r : ResultRegs) : ResultRegs :=
  match q with
  | none => r
  | some (req, move) => { r with requested := req, moveBy := move }

/-- RES_CURSOR and RES_FRAMES (R42, R43). -/
def withProgress (g : Option (Word × Word)) (r : ResultRegs) : ResultRegs :=
  match g with
  | none => r
  | some (cursor, frames) => { r with cursor := cursor, frames := frames }

/-- The result registers after an OK completion (R243). -/
def committedResults (c : Commit) (r : ResultRegs) : ResultRegs :=
  withProgress c.progress
    (withDataRequest c.dataRequest
      (withUpgOpcode c.upgOpcode (withDesc c.desc { r with outLen := outLenWord c.bytes.length })))

/-- Completion with OK (R243). -/
def completeOk (c : Commit) (s : State) : State :=
  { memWrite .obuf 0 c.bytes s with status := statusOk, results := committedResults c s.results }

/-- Completion with NOT_RECOGNIZED (R245): STATUS and OUT_LEN, nothing else. -/
def completeNotRecognized (s : State) : State :=
  { s with status := statusNotRecognized, results := { s.results with outLen := 0 } }

/-- raise ContractError(code) (R244): STATUS and OUT_LEN, nothing else. -/
def raiseContractError (e : ErrCode) (s : State) : State :=
  { s with status := statusContractError e, results := { s.results with outLen := 0 } }

/-- The completion step for the result of an operation's rule (R275). -/
def completeWith (r : Result Commit) (s : State) : State :=
  match r with
  | .ok c => completeOk c s
  | .notRecognized => completeNotRecognized s
  | .contractError e => raiseContractError e s

/-- START of an operation code (R274): CMD.OP and STATUS, nothing else. It is also what follows a contract error: there is
no other return (R248). -/
def startOp (op : BitVec 4) (s : State) : State :=
  { s with operands := { s.operands with op := op }, status := statusStarted }

/-- Reset (R270 to R272): every register takes its reset value, an operation in flight is abandoned, the buffers keep
their bytes. -/
def applyReset (s : State) : State :=
  { s with operands := .atReset, status := .atReset, results := .atReset }

/-- The configuration with the given sizes, or the refusal of R2. -/
def configure (c : RawParams) : Except Refusal Params :=
  if c.conforming then
    .ok
      { ibufExtra := c.ibufBytes - 65545
        fwMax := BitVec.ofNat 31 c.fwMaxBytes
        obufExtra := c.obufBytes - leastObufBytes c.ibufBytes c.fwMaxBytes
        peerWordSigned := c.peerWordSigned }
  else .error .nonconformingConfiguration

end Sys2Proof.Machine
end

