-- ==== Sys2Proof/Machine/Operands.lean ====
section
/-! DEFINITION. The operand forms of R97: how an operation reads its operand registers and its byte-sequence input. -/

namespace Sys2Proof.Machine

/-- The byte-sequence input IBUF[0..IN_LEN), tested against IBUF_BYTES before it is read (R29, R242). -/
def ibufInput (s : State) : Result Bytes :=
  if holds s.params .ibuf s.operands.inLen.toNat then .ok (memRead .ibuf 0 s.operands.inLen.toNat s)
  else .contractError .inLenRange

/-- The firmware FWBUF[0..FW_LEN), tested against FW_MAX_BYTES before it is read (R31, R242). -/
def firmwareInput (s : State) : Result Bytes :=
  if holds s.params .fwbuf s.operands.fwLen.toNat then .ok (memRead .fwbuf 0 s.operands.fwLen.toNat s)
  else .contractError .fwLenRange

/-- The command description that HDR_IN packs to (R27, R120). -/
def hdrInDesc (s : State) : BitVec 16 :=
  packDesc s.operands.featureIn.toNat s.operands.typeIn.toNat s.operands.commandIn.toNat

/-- A word that the peer supplied: sext_32 when PEER_WORD_SIGNED is true and zext_32 otherwise (R33, R34). The two
readings differ only where bit 31 is set, which is tested first. -/
def peerWord (p : Params) (v : Word) : Int := if v.getLsbD 31 && p.peerWordSigned then sext v else zext v

/-- The inputs of the segmenter beside the firmware (R210). -/
structure SegOperands where
  cur0 : Int
  req : Int
  rew : Int
  maxChunk : Nat
  ver : Byte
  chk : Bool
  deriving DecidableEq, Repr

/-- The segmenter's operand registers (R210). -/
def segOperands (s : State) : SegOperands where
  cur0 := sext s.operands.cursorIn
  req := peerWord s.params s.operands.requestedIn
  rew := peerWord s.params s.operands.rewindIn
  maxChunk := s.operands.maxPerPacket.toNat
  ver := s.operands.version
  chk := s.operands.useChecksum

end Sys2Proof.Machine
end

