-- ==== Sys2Proof/Machine/FrameCodec.lean ====
section
/-! DEFINITION. The frame codec: the pure functions encPdu, encFrame and decFrame, and ENC_PDU, ENC_FRAME, DEC_FRAME
(R140 to R153). -/

namespace Sys2Proof.Machine

/-- encPdu(v, f, t, c, p): the addressed command (R82, R140). -/
def encPdu (v : BitVec 16) (f t c : Nat) (p : Bytes) : Bytes := be16 v ++ be16 (packDesc f t c) ++ p

/-- Whether an encoder uses the 2-byte length field (R144). -/
def usesExtension (ver : Byte) (n : Nat) : Bool := decide (4 ≤ ver.toNat) && !decide (n ≤ 255)

/-- The length field of an encoded frame: one byte, or two with the extension (R85, R145). -/
def lengthField (ext : Bool) (n : Nat) : Bytes := if ext then be16 (BitVec.ofNat 16 n) else [BitVec.ofNat 8 n]

/-- A frame without its checksum byte (R84, R145). -/
def frameBody (v : BitVec 16) (f t c : Nat) (p : Bytes) (ver : Byte) (chk : Bool) : Bytes :=
  [startMarker, ver, flagsByte (usesExtension ver p.length) chk] ++ lengthField (usesExtension ver p.length) p.length ++
    encPdu v f t c p

/-- The frame that encFrame builds once its checks have passed (R145, R86). -/
def frameBytes (v : BitVec 16) (f t c : Nat) (p : Bytes) (ver : Byte) (chk : Bool) : Bytes :=
  if chk then frameBody v f t c p ver chk ++ [xorsum (frameBody v f t c p ver chk)] else frameBody v f t c p ver chk

/-- encFrame(v, f, t, c, p, ver, chk): the contract checks of R143 in their order, then the frame of R145. -/
def encFrame (v : BitVec 16) (f t c : Nat) (p : Bytes) (ver : Byte) (chk : Bool) : Result Bytes :=
  if ver.toNat < 3 then .contractError .badVersion
  else if ver.toNat ≥ 4 ∧ ¬p.length ≤ 65535 then .contractError .payloadTooLong
  else if ver.toNat = 3 ∧ ¬p.length ≤ 254 then .contractError .payloadTooLong
  else .ok (frameBytes v f t c p ver chk)

/-- The header length of a received frame: 5 with the length extension, else 4 (R150). -/
def headerLength (F : Bytes) : Nat := if flagExt (byteAt F 1) (byteAt F 2) then 5 else 4

/-- The payload length that a received frame declares (R150). -/
def declaredLength (F : Bytes) : Nat :=
  if flagExt (byteAt F 1) (byteAt F 2) then (rd16 F 3).toNat else (byteAt F 3).toNat

/-- The number of checksum bytes of a received frame, 0 or 1 (R84, R150). -/
def checksumCount (F : Bytes) : Nat := if flagChk (byteAt F 2) then 1 else 0

/-- decFrame(F, exp): the checks of R149 to R151 in their order, then the command description and the payload (R152). -/
def decFrame (F : Bytes) (exp : BitVec 16) : Result (BitVec 16 × Bytes) :=
  if F.length < 8 then .notRecognized
  else if byteAt F 0 ≠ startMarker then .notRecognized
  else if (byteAt F 1).toNat < 3 then .notRecognized
  else if headerLength F > F.length then .notRecognized
  else if headerLength F + 4 + declaredLength F + checksumCount F ≠ F.length then .notRecognized
  else if checksumCount F = 1 ∧ xorsum (slice F 0 (F.length - 1)) ≠ byteAt F (F.length - 1) then .notRecognized
  else if rd16 F (headerLength F) ≠ exp then .notRecognized
  else
    .ok (rd16 F (headerLength F + 2), slice F (headerLength F + 4) (headerLength F + 4 + declaredLength F))

/-- The rule of ENC_PDU (R142): no version and no length check (R141). -/
def encPduResult (s : State) : Result Commit :=
  andThen (ibufInput s) fun p =>
    .ok
      { bytes :=
          encPdu s.operands.vendorId s.operands.featureIn.toNat s.operands.typeIn.toNat s.operands.commandIn.toNat p
        desc := some (hdrInDesc s) }

/-- The rule of ENC_FRAME (R147). -/
def encFrameResult (s : State) : Result Commit :=
  andThen (ibufInput s) fun p =>
    andThen
      (encFrame s.operands.vendorId s.operands.featureIn.toNat s.operands.typeIn.toNat s.operands.commandIn.toNat p
        s.operands.version s.operands.useChecksum)
      fun fr => .ok { bytes := fr, desc := some (hdrInDesc s) }

/-- The rule of DEC_FRAME (R153). -/
def decFrameResult (s : State) : Result Commit :=
  andThen (ibufInput s) fun F =>
    andThen (decFrame F s.operands.expectedVendor) fun (d, p) => .ok { bytes := p, desc := some d }

/-- ENC_PDU (R142). -/
def execEncPdu (s : State) : Host.Outcome State Fault Refusal := .next (completeWith (encPduResult s) s)

/-- ENC_FRAME (R147). -/
def execEncFrame (s : State) : Host.Outcome State Fault Refusal := .next (completeWith (encFrameResult s) s)

/-- DEC_FRAME (R153). -/
def execDecFrame (s : State) : Host.Outcome State Fault Refusal := .next (completeWith (decFrameResult s) s)

end Sys2Proof.Machine
end

