-- ==== Sys2Proof/Machine/HeaderCodec.lean ====
section
/-! DEFINITION. The header codec: PACK_HDR and UNPACK_HDR (R121, R123). -/

namespace Sys2Proof.Machine

/-- The rule of PACK_HDR (R121): no input is rejected. -/
def packHdrResult (s : State) : Result Commit := .ok { desc := some (hdrInDesc s) }

/-- The rule of UNPACK_HDR (R123). -/
def unpackHdrResult (s : State) : Result Commit := .ok { desc := some s.operands.descIn }

/-- PACK_HDR (R121). -/
def execPackHdr (s : State) : Host.Outcome State Fault Refusal := .next (completeWith (packHdrResult s) s)

/-- UNPACK_HDR (R123). -/
def execUnpackHdr (s : State) : Host.Outcome State Fault Refusal := .next (completeWith (unpackHdrResult s) s)

end Sys2Proof.Machine
end

