-- ==== Sys2Proof/Machine/UpgradeCodec.lean ====
section
/-! DEFINITION. The upgrade-message codec: encUpg, decUpg, ENC_UPG, DEC_UPG (R170 to R173). -/

namespace Sys2Proof.Machine

/-- encUpg(op, c) (R170). -/
def encUpg (op : Byte) (c : Bytes) : Result Bytes :=
  if c.length ≤ 65535 then .ok ([op] ++ be16 (BitVec.ofNat 16 c.length) ++ c)
  else .contractError .contentTooLong

/-- decUpg(s): under-long inputs are rejected, bytes beyond the declared length dropped (R172). -/
def decUpg (s : Bytes) : Result (Byte × Bytes) :=
  if s.length < 3 then .notRecognized
  else if (rd16 s 1).toNat > s.length - 3 then .notRecognized
  else .ok (byteAt s 0, slice s 3 (3 + (rd16 s 1).toNat))

/-- The rule of ENC_UPG (R171). -/
def encUpgResult (s : State) : Result Commit :=
  andThen (ibufInput s) fun c =>
    andThen (encUpg s.operands.upgOpcode c) fun u => .ok { bytes := u }

/-- The rule of DEC_UPG (R173). -/
def decUpgResult (s : State) : Result Commit :=
  andThen (ibufInput s) fun m =>
    andThen (decUpg m) fun (op, content) => .ok { bytes := content, upgOpcode := some op }

/-- ENC_UPG (R171). -/
def execEncUpg (s : State) : Host.Outcome State Fault Refusal := .next (completeWith (encUpgResult s) s)

/-- DEC_UPG (R173). -/
def execDecUpg (s : State) : Host.Outcome State Fault Refusal := .next (completeWith (decUpgResult s) s)

end Sys2Proof.Machine
end

