-- ==== Sys2Proof/Machine/Recognizers.lean ====
section
/-! DEFINITION. The response recognizers: recAppVer, recDataReq, REC_APPVER, REC_DATAREQ (R190 to R193). -/

namespace Sys2Proof.Machine

/-- Whether a command description has the given feature, packet type and command (R190, R192). -/
def descIs (d : BitVec 16) (feature : BitVec 7) (t : PacketType) (command : BitVec 7) : Bool :=
  (unpackDesc d).feature == feature && (unpackDesc d).command == command &&
    (unpackDesc d).packetType == packetTypeCode t

/-- recAppVer(F, exp) (R190). -/
def recAppVer (F : Bytes) (exp : BitVec 16) : Result (BitVec 16 × Bytes) :=
  andThen (decFrame F exp) fun (d, p) =>
    if descIs d frameworkFeature .response appVersionCommand then .ok (d, p) else .notRecognized

/-- What recDataReq returns beside the result class (R192). -/
structure DataRequest where
  desc : BitVec 16
  opcode : Byte
  requested : Word
  moveBy : Word
  deriving DecidableEq, Repr

/-- The payload of a "data bytes requested" notification: an upgrade message with opcode 0x03 and 8 content bytes
(R192). -/
def dataRequestOf (d : BitVec 16) (p : Bytes) : Result DataRequest :=
  andThen (decUpg p) fun (op, content) =>
    if op ≠ dataRequestOpcode then .notRecognized
    else if content.length ≠ 8 then .notRecognized
    else .ok { desc := d, opcode := op, requested := rd32 content 0, moveBy := rd32 content 4 }

/-- recDataReq(F, exp) (R192). -/
def recDataReq (F : Bytes) (exp : BitVec 16) : Result DataRequest :=
  andThen (decFrame F exp) fun (d, p) =>
    if descIs d upgradeFeature .notification upgradeNotificationCommand then dataRequestOf d p else .notRecognized

/-- The rule of REC_APPVER (R191). -/
def recAppverResult (s : State) : Result Commit :=
  andThen (ibufInput s) fun F =>
    andThen (recAppVer F s.operands.expectedVendor) fun (d, p) => .ok { bytes := p, desc := some d }

/-- The rule of REC_DATAREQ (R193). -/
def recDatareqResult (s : State) : Result Commit :=
  andThen (ibufInput s) fun F =>
    andThen (recDataReq F s.operands.expectedVendor) fun q =>
      .ok { desc := some q.desc, upgOpcode := some q.opcode, dataRequest := some (q.requested, q.moveBy) }

/-- REC_APPVER (R191). -/
def execRecAppver (s : State) : Host.Outcome State Fault Refusal := .next (completeWith (recAppverResult s) s)

/-- REC_DATAREQ (R193). -/
def execRecDatareq (s : State) : Host.Outcome State Fault Refusal := .next (completeWith (recDatareqResult s) s)

end Sys2Proof.Machine
end

