-- ==== Sys2Proof/Machine/ReservedOps.lean ====
section
/-! DEFINITION. The reserved operation codes 0x0 and 0xB to 0xF: each completes with ILLEGAL_OP (R96, R241). -/

namespace Sys2Proof.Machine

/-- What a reserved code completes with, before any operand is read (R96, R242). -/
def reservedResult : Result Commit := .contractError .illegalOp

/-- The reserved code 0x0 (R96). -/
def execReservedOp0 (s : State) : Host.Outcome State Fault Refusal := .next (completeWith reservedResult s)

/-- The reserved code 0xB (R96). -/
def execReservedOpB (s : State) : Host.Outcome State Fault Refusal := .next (completeWith reservedResult s)

/-- The reserved code 0xC (R96). -/
def execReservedOpC (s : State) : Host.Outcome State Fault Refusal := .next (completeWith reservedResult s)

/-- The reserved code 0xD (R96). -/
def execReservedOpD (s : State) : Host.Outcome State Fault Refusal := .next (completeWith reservedResult s)

/-- The reserved code 0xE (R96). -/
def execReservedOpE (s : State) : Host.Outcome State Fault Refusal := .next (completeWith reservedResult s)

/-- The reserved code 0xF (R96). -/
def execReservedOpF (s : State) : Host.Outcome State Fault Refusal := .next (completeWith reservedResult s)

end Sys2Proof.Machine
end

