-- ==== Sys2Proof/Machine/Segmenter.lean ====
section
/-! DEFINITION. The firmware segmenter: the steps of R211 to R217 and SEGMENT (R219). -/

namespace Sys2Proof.Machine

/-- Step 1: the cursor clamped into [0, L] (R212). -/
def segCur1 (L : Nat) (g : SegOperands) : Int := clamp g.cur0 0 L

/-- Step 2: the forward skip, ignored where it would reach the end of the firmware (R213). -/
def segCur2 (L : Nat) (g : SegOperands) : Int :=
  if g.rew > 0 ∧ segCur1 L g + g.rew < L then segCur1 L g + g.rew else segCur1 L g

/-- Step 3: the effective chunk size (R214). -/
def segEff (g : SegOperands) : Nat := if g.ver.toNat < 4 then min g.maxChunk 250 else g.maxChunk

/-- Step 4: the bytes available to send (R215). -/
def segAvail (L : Nat) (g : SegOperands) : Nat := (max 0 (min g.req ((L : Int) - segCur2 L g))).toNat

/-- dataFrame(m, d): the frame that carries marker m and data d (R91, R216, decision D22). -/
def dataFrame (g : SegOperands) (m : Byte) (d : Bytes) : Result Bytes :=
  andThen (encUpg upgradeDataOpcode ([m] ++ d)) fun u =>
    encFrame defaultVendorId upgradeFeature.toNat (packetTypeCode .command).toNat upgradeControlCommand.toNat u g.ver
      g.chk

/-- The final marker: 1 where a cursor stands at the end of the firmware (R216, R217). -/
def finalMarker (cur L : Nat) : Byte := if cur = L then 0x01 else 0x00

/-- The working values of the chunk loop (R216). -/
structure SegProgress where
  out : Bytes
  cur : Nat
  sent : Nat
  frames : Nat
  deriving DecidableEq, Repr

/-- One turn of the chunk loop (R216). -/
def segChunk (fw : Bytes) (g : SegOperands) (avail : Nat) (p : SegProgress) : Result SegProgress :=
  let k := min (segEff g) (avail - p.sent)
  andThen (dataFrame g (finalMarker (p.cur + k) fw.length) (slice fw p.cur (p.cur + k))) fun fr =>
    .ok { out := p.out ++ fr, cur := p.cur + k, sent := p.sent + k, frames := p.frames + 1 }

/-- Step 5: the chunk loop, while sent < avail (R216). A turn sends at least one byte, so avail turns are enough. -/
def segLoop (fw : Bytes) (g : SegOperands) (avail : Nat) : Nat → SegProgress → Result SegProgress
  | 0, p => .ok p
  | turns + 1, p =>
    if p.sent < avail then andThen (segChunk fw g avail p) (segLoop fw g avail turns) else .ok p

/-- Step 6: the acknowledgement frame where nothing was available (R217). -/
def segAcknowledge (fw : Bytes) (g : SegOperands) (avail : Nat) (p : SegProgress) : Result SegProgress :=
  if avail = 0 then
    andThen (dataFrame g (finalMarker p.cur fw.length) []) fun fr => .ok { p with out := fr, frames := 1 }
  else .ok p

/-- Steps 5 and 6 (R216, R217). -/
def segEmit (fw : Bytes) (g : SegOperands) : Result SegProgress :=
  andThen
    (segLoop fw g (segAvail fw.length g) (segAvail fw.length g)
      { out := [], cur := (segCur2 fw.length g).toNat, sent := 0, frames := 0 })
    (segAcknowledge fw g (segAvail fw.length g))

/-- The segmenter on a firmware that fits FWBUF: the checks of R211 in their order, then the steps. -/
def segmentFn (fw : Bytes) (g : SegOperands) : Result SegProgress :=
  if g.ver.toNat < 3 then .contractError .badVersion
  else if g.maxChunk = 0 then .contractError .badMaxPerPacket
  else if g.ver.toNat ≥ 4 ∧ ¬min (segEff g) (segAvail fw.length g) + 4 ≤ 65535 then .contractError .payloadTooLong
  else segEmit fw g

/-- The rule of SEGMENT (R219). -/
def segmentResult (s : State) : Result Commit :=
  andThen (firmwareInput s) fun fw =>
    andThen (segmentFn fw (segOperands s)) fun p =>
      .ok { bytes := p.out, progress := some (BitVec.ofNat 32 p.cur, BitVec.ofNat 32 p.frames) }

/-- SEGMENT (R219). -/
def execSegment (s : State) : Host.Outcome State Fault Refusal := .next (completeWith (segmentResult s) s)

end Sys2Proof.Machine
end

