-- ==== Sys2Proof/Machine/WireRows.lean ====
section
/-! DEFINITION. The five wire selectors of the opcode table. A wire value is never started by itself: it acts on the block
inside the operation whose rule its row names, so executing a row is the completion of that operation on the current
operands (R94: a malformed inbound value gives NOT_RECOGNIZED, an illegal outbound request CONTRACT_ERROR). DESIGN CHOICE,
see notes/assumptions/4.md. -/

namespace Sys2Proof.Machine

/-- APPVER_RSP: the row names R191. -/
def execAppverRsp (s : State) : Host.Outcome State Fault Refusal := .next (completeWith (recAppverResult s) s)

/-- DATA_BYTES_REQ_NTF: the row names R193. -/
def execDataBytesReqNtf (s : State) : Host.Outcome State Fault Refusal := .next (completeWith (recDatareqResult s) s)

/-- UPG_DATA_BYTES_REQ: the row names R193. -/
def execUpgDataBytesReq (s : State) : Host.Outcome State Fault Refusal := .next (completeWith (recDatareqResult s) s)

/-- UPG_DATA_CMD: the row names R219. -/
def execUpgDataCmd (s : State) : Host.Outcome State Fault Refusal := .next (completeWith (segmentResult s) s)

/-- UPG_DATA: the row names R216. The content length of an emitted message is an OUTPUT of that rule, 1 plus the length of
the chunk, and no operand of the block (the row's mask leaves it out): the operands alone decide what is emitted. -/
def execUpgData (_contentLength : BitVec 16) (s : State) : Host.Outcome State Fault Refusal :=
  .next (completeWith (segmentResult s) s)

/-- The chunk lengths that SEGMENT emits (R216, R217): full chunks, then what is left, or one empty chunk. -/
def segChunkLengths (eff avail : Nat) : List Nat :=
  if avail = 0 then [0]
  else List.replicate (avail / eff) eff ++ (if avail % eff = 0 then [] else [avail % eff])

/-- Whether a recognizer's candidate frame carries the command description of a WIRE_DESC row. -/
def candidateDescIs (d : BitVec 16) (s : State) : Bool :=
  match andThen (ibufInput s) fun F => decFrame F s.operands.expectedVendor with
  | .ok (d', _) => d' == d
  | _ => false

/-- Whether a recognizer's candidate frame carries the upgrade-message header of a WIRE_UPG row. -/
def candidateUpgIs (v : BitVec 24) (s : State) : Bool :=
  match andThen (ibufInput s) fun F => decFrame F s.operands.expectedVendor with
  | .ok (_, p) => decide (p.take 3 = be24 v)
  | _ => false

/-- Whether SEGMENT emits frames on the current operands. -/
def segmentEmits (s : State) : Bool :=
  match segmentResult s with
  | .ok _ => true
  | _ => false

/-- Whether the operation in flight has to do with a wire value: the candidate of a recognizer carries it, or the frames of
SEGMENT do. An operation code is carried when it is the one in CMD.OP. -/
def carries (i : Instr) (s : State) : Bool :=
  match i with
  | .appverRsp => s.operands.op == 0x8#4 && candidateDescIs 0x0105 s
  | .dataBytesReqNtf => s.operands.op == 0x9#4 && candidateDescIs 0x0C80 s
  | .upgDataBytesReq => s.operands.op == 0x9#4 && candidateDescIs 0x0C80 s && candidateUpgIs 0x030008 s
  | .upgDataCmd => s.operands.op == 0xA#4 && segmentEmits s
  | .upgData len =>
    s.operands.op == 0xA#4 && segmentEmits s &&
      decide (len.toNat - 1 ∈ segChunkLengths (segEff (segOperands s))
        (segAvail s.operands.fwLen.toNat (segOperands s))) && decide (1 ≤ len.toNat)
  | .packHdr => s.operands.op == 0x1#4
  | .unpackHdr => s.operands.op == 0x2#4
  | .encPdu => s.operands.op == 0x3#4
  | .encFrame => s.operands.op == 0x4#4
  | .decFrame => s.operands.op == 0x5#4
  | .encUpg => s.operands.op == 0x6#4
  | .decUpg => s.operands.op == 0x7#4
  | .recAppver => s.operands.op == 0x8#4
  | .recDatareq => s.operands.op == 0x9#4
  | .segment => s.operands.op == 0xA#4
  | .reservedOp0 => s.operands.op == 0x0#4
  | .reservedOpB => s.operands.op == 0xB#4
  | .reservedOpC => s.operands.op == 0xC#4
  | .reservedOpD => s.operands.op == 0xD#4
  | .reservedOpE => s.operands.op == 0xE#4
  | .reservedOpF => s.operands.op == 0xF#4

end Sys2Proof.Machine
end

