-- ==== Sys2Proof/Machine/Dispatch.lean ====
section
/-! DEFINITION. exec: one arm per instruction, each a direct call of its meaning. -/

namespace Sys2Proof.Machine

/-- The completion step of an instruction (R275). -/
def exec (i : Instr) (s : State) : Host.Outcome State Fault Refusal :=
  match i with
  | .packHdr => Sys2Proof.Machine.execPackHdr s
  | .unpackHdr => Sys2Proof.Machine.execUnpackHdr s
  | .encPdu => Sys2Proof.Machine.execEncPdu s
  | .encFrame => Sys2Proof.Machine.execEncFrame s
  | .decFrame => Sys2Proof.Machine.execDecFrame s
  | .encUpg => Sys2Proof.Machine.execEncUpg s
  | .decUpg => Sys2Proof.Machine.execDecUpg s
  | .recAppver => Sys2Proof.Machine.execRecAppver s
  | .recDatareq => Sys2Proof.Machine.execRecDatareq s
  | .segment => Sys2Proof.Machine.execSegment s
  | .reservedOp0 => Sys2Proof.Machine.execReservedOp0 s
  | .reservedOpB => Sys2Proof.Machine.execReservedOpB s
  | .reservedOpC => Sys2Proof.Machine.execReservedOpC s
  | .reservedOpD => Sys2Proof.Machine.execReservedOpD s
  | .reservedOpE => Sys2Proof.Machine.execReservedOpE s
  | .reservedOpF => Sys2Proof.Machine.execReservedOpF s
  | .appverRsp => Sys2Proof.Machine.execAppverRsp s
  | .dataBytesReqNtf => Sys2Proof.Machine.execDataBytesReqNtf s
  | .upgDataBytesReq => Sys2Proof.Machine.execUpgDataBytesReq s
  | .upgDataCmd => Sys2Proof.Machine.execUpgDataCmd s
  | .upgData contentLength => Sys2Proof.Machine.execUpgData contentLength s

end Sys2Proof.Machine
end

