-- ==== Sys2Proof/Decode.lean ====
section
/-! DEFINITION. The decoder and the encoder of the rows of spec/opcode_table.json, in the three formats of
spec/30_encoding.md: CMD, WIRE_DESC, WIRE_UPG. -/

namespace Sys2Proof

/-- What a row's match value is compared with: the data word of a host write to CMD (its bits [3:0] are OP, R22), a 16-bit
command description, the first three bytes of an upgrade message as one big-endian value. -/
inductive Code where
  | cmd (wdata : Word)
  | desc (d : BitVec 16)
  | upg (v : BitVec 24)
  deriving DecidableEq, Repr

/-- The three row formats. -/
inductive Format where
  | cmd
  | wireDesc
  | wireUpg
  deriving DecidableEq, Repr

/-- Why a value is no row's. -/
inductive DecodeError where
  /-- The sequence ends before the value it should hold. -/
  | tooShort
  /-- A command description that no WIRE_DESC row matches. The block still packs, unpacks, encodes and decodes it: it is
  only none of the selectors the table names. -/
  | noDescRow
  /-- An upgrade-message header that no WIRE_UPG row matches. -/
  | noUpgRow
  deriving DecidableEq, Repr

/-- The operation codes of CMD.OP (R95, R96). -/
def decodeOp (op : BitVec 4) : Instr :=
  match op.toNat with
  | 0x1 => .packHdr
  | 0x2 => .unpackHdr
  | 0x3 => .encPdu
  | 0x4 => .encFrame
  | 0x5 => .decFrame
  | 0x6 => .encUpg
  | 0x7 => .decUpg
  | 0x8 => .recAppver
  | 0x9 => .recDatareq
  | 0xA => .segment
  | 0x0 => .reservedOp0
  | 0xB => .reservedOpB
  | 0xC => .reservedOpC
  | 0xD => .reservedOpD
  | 0xE => .reservedOpE
  | _ => .reservedOpF

/-- The WIRE_DESC rows (R90, R91, R92). -/
def decodeDesc (d : BitVec 16) : Except DecodeError Instr :=
  if d = 0x0105#16 then .ok .appverRsp
  else if d = 0x0C80#16 then .ok .dataBytesReqNtf
  else if d = 0x0C02#16 then .ok .upgDataCmd
  else .error .noDescRow

/-- The WIRE_UPG rows (R90, R91). -/
def decodeUpgHeader (v : BitVec 24) : Except DecodeError Instr :=
  if v = 0x030008#24 then .ok .upgDataBytesReq
  else if v.extractLsb' 16 8 = 0x04#8 then .ok (.upgData (v.extractLsb' 0 16))
  else .error .noUpgRow

/-- The decoder: total, rejecting by name. Bits [31:4] of a CMD write are ignored (R22). -/
def decode : Code → Except DecodeError Instr
  | .cmd wdata => .ok (decodeOp (wdata.extractLsb' 0 4))
  | .desc d => decodeDesc d
  | .upg v => decodeUpgHeader v

/-- The value a row is matched with, read from bytes: OP from the low bits of one byte, the wire values most significant
byte first (R65). The bytes after it come back with it. -/
def readCode : Format → Bytes → Except DecodeError (Code × Bytes)
  | .cmd, b :: rest => .ok (.cmd (b.setWidth 32), rest)
  | .wireDesc, b0 :: b1 :: rest => .ok (.desc (b0 ++ b1), rest)
  | .wireUpg, b0 :: b1 :: b2 :: rest => .ok (.upg (b0 ++ b1 ++ b2), rest)
  | _, _ => .error .tooShort

/-- The decoder on any bytes. -/
def decodeBytes (f : Format) (bytes : Bytes) : Except DecodeError (Instr × Bytes) :=
  match readCode f bytes with
  | .error e => .error e
  | .ok (c, rest) =>
    match decode c with
    | .error e => .error e
    | .ok i => .ok (i, rest)

/-- The encoder: the value that the row of an instruction matches, reserved bits 0. -/
def encode : Instr → Code
  | .packHdr => .cmd 0x1#32
  | .unpackHdr => .cmd 0x2#32
  | .encPdu => .cmd 0x3#32
  | .encFrame => .cmd 0x4#32
  | .decFrame => .cmd 0x5#32
  | .encUpg => .cmd 0x6#32
  | .decUpg => .cmd 0x7#32
  | .recAppver => .cmd 0x8#32
  | .recDatareq => .cmd 0x9#32
  | .segment => .cmd 0xA#32
  | .reservedOp0 => .cmd 0x0#32
  | .reservedOpB => .cmd 0xB#32
  | .reservedOpC => .cmd 0xC#32
  | .reservedOpD => .cmd 0xD#32
  | .reservedOpE => .cmd 0xE#32
  | .reservedOpF => .cmd 0xF#32
  | .appverRsp => .desc 0x0105#16
  | .dataBytesReqNtf => .desc 0x0C80#16
  | .upgDataBytesReq => .upg 0x030008#24
  | .upgDataCmd => .desc 0x0C02#16
  | .upgData contentLength => .upg (0x04#8 ++ contentLength)

/-- The format of an instruction's row. -/
def formatOf (i : Instr) : Format :=
  match encode i with
  | .cmd _ => .cmd
  | .desc _ => .wireDesc
  | .upg _ => .wireUpg

/-- A code as bytes: OP in one byte, the wire values most significant byte first. -/
def codeBytes : Code → Bytes
  | .cmd wdata => [wdata.setWidth 8]
  | .desc d => Machine.be16 d
  | .upg v => Machine.be24 v

/-- The words of an instruction as bytes. -/
def encodeBytes (i : Instr) : Bytes := codeBytes (encode i)

/-- The value of a table word of the given number of bits: the table gives OP at most 8 bits, a command description 16, an
upgrade-message header 24. A wider word is a whole CMD write. -/
def codeOfTableWord (nbits w : Nat) : Code :=
  if nbits ≤ 8 then .cmd (BitVec.ofNat 32 (w % 256))
  else if nbits ≤ 16 then .desc (BitVec.ofNat 16 w)
  else if nbits ≤ 24 then .upg (BitVec.ofNat 24 w)
  else .cmd (BitVec.ofNat 32 w)

/-- The format of a table word of the given number of bits. -/
def formatOfTableWord (nbits : Nat) : Format :=
  if nbits ≤ 8 then .cmd else if nbits ≤ 16 then .wireDesc else if nbits ≤ 24 then .wireUpg else .cmd

/-- The instruction the decoder reads from a word of the opcode table, laid out as bytes. -/
def decodeTableWord (nbits w : Nat) : Option Instr :=
  match decodeBytes (formatOfTableWord nbits) (codeBytes (codeOfTableWord nbits w)) with
  | .ok (i, _) => some i
  | .error _ => none

end Sys2Proof
end

