-- ==== Sys2Proof/Machine/HostPort.lean ====
section
/-! DEFINITION. The host's port: the register map (R22 to R44), register and buffer accesses (R60 to R63), and what BUSY
does to them (R276, R277). -/

namespace Sys2Proof.Machine

/-- The defined registers of the REG space. -/
inductive Reg where
  | cmd
  | status
  | cfg
  | vendor
  | expect
  | hdrIn
  | descIn
  | inLen
  | upgOp
  | fwLen
  | cursor
  | req
  | rewind
  | maxPkt
  | outLen
  | resDesc
  | resFields
  | resUpgOp
  | resReq
  | resMoveBy
  | resCursor
  | resFrames
  deriving DecidableEq, Repr

/-- The byte offset of a register (spec/10_state.md section 2). -/
def regOffset : Reg → BitVec 8
  | .cmd => 0x00
  | .status => 0x04
  | .cfg => 0x08
  | .vendor => 0x0C
  | .expect => 0x10
  | .hdrIn => 0x14
  | .descIn => 0x18
  | .inLen => 0x1C
  | .upgOp => 0x20
  | .fwLen => 0x24
  | .cursor => 0x28
  | .req => 0x2C
  | .rewind => 0x30
  | .maxPkt => 0x34
  | .outLen => 0x40
  | .resDesc => 0x44
  | .resFields => 0x48
  | .resUpgOp => 0x4C
  | .resReq => 0x50
  | .resMoveBy => 0x54
  | .resCursor => 0x58
  | .resFrames => 0x5C

/-- The register that an access reaches: offset bits [1:0] are ignored (R61), the other offsets are reserved (R44). -/
def regAt (offset : BitVec 8) : Option Reg :=
  match (offset.extractLsb' 2 6).toNat with
  | 0x00 => some .cmd
  | 0x01 => some .status
  | 0x02 => some .cfg
  | 0x03 => some .vendor
  | 0x04 => some .expect
  | 0x05 => some .hdrIn
  | 0x06 => some .descIn
  | 0x07 => some .inLen
  | 0x08 => some .upgOp
  | 0x09 => some .fwLen
  | 0x0A => some .cursor
  | 0x0B => some .req
  | 0x0C => some .rewind
  | 0x0D => some .maxPkt
  | 0x10 => some .outLen
  | 0x11 => some .resDesc
  | 0x12 => some .resFields
  | 0x13 => some .resUpgOp
  | 0x14 => some .resReq
  | 0x15 => some .resMoveBy
  | 0x16 => some .resCursor
  | 0x17 => some .resFrames
  | _ => none

/-- The word of STATUS (R23): BUSY [0], DONE [1], RESULT [3:2], ERRCODE [11:8], the other bits 0. -/
def statusWord (t : Status) : Word :=
  0#20 ++ t.errCode ++ 0#4 ++ t.result ++ BitVec.ofBool t.done ++ BitVec.ofBool t.busy

/-- The word of RES_FIELDS (R38): RES_FEATURE [6:0], RES_TYPE [9:8], RES_COMMAND [22:16], the other bits 0. -/
def resFieldsWord (r : ResultRegs) : Word :=
  0#9 ++ r.command ++ 0#6 ++ r.packetType ++ 0#1 ++ r.feature

/-- The value of a register (R22 to R43); reserved bits read 0 (R44). Reading changes nothing (R67), and STATUS, CMD and the
results read while BUSY just as they stand (R276). -/
def regValue (r : Reg) (s : State) : Word :=
  match r with
  | .cmd => s.operands.op.setWidth 32
  | .status => statusWord s.status
  | .cfg => 0#23 ++ BitVec.ofBool s.operands.useChecksum ++ s.operands.version
  | .vendor => s.operands.vendorId.setWidth 32
  | .expect => s.operands.expectedVendor.setWidth 32
  | .hdrIn => 0#8 ++ s.operands.commandIn ++ s.operands.typeIn ++ s.operands.featureIn
  | .descIn => s.operands.descIn.setWidth 32
  | .inLen => s.operands.inLen
  | .upgOp => s.operands.upgOpcode.setWidth 32
  | .fwLen => s.operands.fwLen
  | .cursor => s.operands.cursorIn
  | .req => s.operands.requestedIn
  | .rewind => s.operands.rewindIn
  | .maxPkt => s.operands.maxPerPacket
  | .outLen => s.results.outLen
  | .resDesc => s.results.desc.setWidth 32
  | .resFields => resFieldsWord s.results
  | .resUpgOp => s.results.upgOpcode.setWidth 32
  | .resReq => s.results.requested
  | .resMoveBy => s.results.moveBy
  | .resCursor => s.results.cursor
  | .resFrames => s.results.frames

/-- The operand registers after a host write of a register that is not CMD: the defined fields take the data word's bits,
reserved bits and read-only registers take nothing (R24 to R35, R44). -/
def withRegWritten (r : Reg) (w : Word) (o : OperandRegs) : OperandRegs :=
  match r with
  | .cfg => { o with version := w.extractLsb' 0 8, useChecksum := w.getLsbD 8 }
  | .vendor => { o with vendorId := w.extractLsb' 0 16 }
  | .expect => { o with expectedVendor := w.extractLsb' 0 16 }
  | .hdrIn =>
    { o with featureIn := w.extractLsb' 0 8, typeIn := w.extractLsb' 8 8, commandIn := w.extractLsb' 16 8 }
  | .descIn => { o with descIn := w.extractLsb' 0 16 }
  | .inLen => { o with inLen := w }
  | .upgOp => { o with upgOpcode := w.extractLsb' 0 8 }
  | .fwLen => { o with fwLen := w }
  | .cursor => { o with cursorIn := w }
  | .req => { o with requestedIn := w }
  | .rewind => { o with rewindIn := w }
  | .maxPkt => { o with maxPerPacket := w }
  | .cmd => o
  | .status => o
  | .outLen => o
  | .resDesc => o
  | .resFields => o
  | .resUpgOp => o
  | .resReq => o
  | .resMoveBy => o
  | .resCursor => o
  | .resFrames => o

/-- A host write of a defined register while the block is idle: a write of CMD is a START, also of a reserved code (R22,
R274). -/
def writeIdleReg (r : Reg) (w : Word) (s : State) : State :=
  if r = .cmd then startOp (w.extractLsb' 0 4) s else { s with operands := withRegWritten r w s.operands }

/-- A host write in the REG space: ignored while BUSY (R277) and at a reserved offset (R44). -/
def hostWriteReg (offset : BitVec 8) (w : Word) (s : State) : State :=
  if s.status.busy then s
  else
    match regAt offset with
    | some r => writeIdleReg r w s
    | none => s

/-- A host read in the REG space: a reserved offset reads 0 (R44). -/
def hostReadReg (offset : BitVec 8) (s : State) : Word :=
  match regAt offset with
  | some r => regValue r s
  | none => 0

/-- A host write of one buffer byte: ignored while BUSY (R277), in OBUF (R63), beyond the buffer (R62). -/
def hostWriteByte (b : Buf) (addr : Nat) (v : Byte) (s : State) : State :=
  if s.status.busy then s
  else if b = .obuf then s
  else if inBuffer s.params b addr then memWrite b addr [v] s
  else s

/-- A host read of one buffer byte: 0 beyond the buffer (R62). -/
def hostReadByte (b : Buf) (addr : Nat) (s : State) : Byte :=
  if inBuffer s.params b addr then bufferByte b addr s else 0

/-- One host access: a read changes nothing in the block, its answer goes to the host (R67, R69). -/
def hostAccess (a : Access) (s : State) : State :=
  match a with
  | .writeReg offset w => hostWriteReg offset w s
  | .writeByte b addr v => hostWriteByte b addr v s
  | .readReg offset => { s with answers := hostReadReg offset s :: s.answers }
  | .readByte b addr => { s with answers := (hostReadByte b addr s).setWidth 32 :: s.answers }

end Sys2Proof.Machine
end

