-- ==== Sys2Proof/Machine/Fetch.lean ====
section
/-! DEFINITION. Where the instruction of the next completion step comes from, and how a word of the opcode table is put
there. -/

namespace Sys2Proof.Machine

/-- The instruction in flight: the block has no stored program, the instruction is CMD.OP (R46, R72). -/
def fetch (s : State) : Instr := decodeOp s.operands.op

/-- The agenda in which the sequencer's turn comes next: that is so already in an empty one. -/
def sequencerNext (agenda : List Turn) : List Turn := if agenda = [] then [] else .sequencer :: agenda

/-- An operation code in flight, the sequencer's turn next. -/
def placeOp (op : BitVec 4) (s : State) : State :=
  { startOp op s with agenda := sequencerNext s.agenda }

/-- A candidate frame for a recognizer in IBUF, and the recognizer in flight. -/
def placeCandidate (op : BitVec 4) (frame : Bytes) (s : State) : State :=
  let t := placeOp op (memWrite .ibuf 0 frame s)
  { t with operands := { t.operands with inLen := BitVec.ofNat 32 frame.length } }

/-- A SEGMENT in flight whose one message carries a chunk of the given length. -/
def placeSegment (chunk : Nat) (s : State) : State :=
  let t := placeOp 0xA s
  { t with
    operands :=
      { t.operands with
        version := 4
        fwLen := BitVec.ofNat 32 chunk
        cursorIn := 0
        requestedIn := BitVec.ofNat 32 chunk
        rewindIn := 0
        maxPerPacket := BitVec.ofNat 32 (max 1 chunk) } }

/-- A version-3 frame from the expected vendor with the given command description and payload, without checksum. -/
def candidateFrame (d : BitVec 16) (p : Bytes) (s : State) : Bytes :=
  [0xFF, 0x03, 0x00, BitVec.ofNat 8 p.length] ++ be16 s.operands.expectedVendor ++ be16 d ++ p

/-- The word where the block takes it from: an operation code in CMD with BUSY set; a command description or an
upgrade-message header inside the candidate frame of the recognizer that looks for it; for the two values that the block
only emits, the operands of a SEGMENT that emits them. -/
def placeCode (c : Code) (s : State) : State :=
  match c with
  | .cmd wdata => placeOp (wdata.extractLsb' 0 4) s
  | .desc d =>
    if d = 0x0C02 then placeSegment 0 s
    else if d = 0x0C80 then
      placeCandidate 0x9 (candidateFrame d (be24 0x030008 ++ List.replicate 8 0) s) s
    else placeCandidate 0x8 (candidateFrame d [] s) s
  | .upg v =>
    if v.extractLsb' 16 8 = 0x04 then placeSegment ((v.extractLsb' 0 16).toNat - 1) s
    else placeCandidate 0x9 (candidateFrame 0x0C80 (be24 v ++ List.replicate 8 0) s) s

end Sys2Proof.Machine
end

