-- ==== Sys2Proof/Machine/Step.lean ====
section
/-! DEFINITION. One block step: the next turn of the agenda, or, where the outside world has nothing more to do, the
sequencer's turn. -/

namespace Sys2Proof.Machine

/-- The sequencer's turn: the completion step of the operation in flight, if there is one (R275). -/
def sequencerTurn (s : State) : Host.Outcome State Fault Refusal :=
  if s.status.busy then exec (fetch s) s else .next s

/-- One block step. With an empty agenda the sequencer has the turn, so an operation in flight completes (R282). -/
def step (s : State) : Host.Outcome State Fault Refusal :=
  match s.agenda with
  | [] => sequencerTurn s
  | .sequencer :: rest => sequencerTurn { s with agenda := rest }
  | .host a :: rest => .next (hostAccess a { s with agenda := rest })
  | .idle :: rest => .next { s with agenda := rest }
  | .reset :: rest => .next (applyReset { s with agenda := rest })

/-- The state in which the next step runs the instruction of a word of the opcode table. -/
def State.withFetchWord (s : State) (nbits w : Nat) : State := placeCode (codeOfTableWord nbits w) s

end Sys2Proof.Machine
end

