-- ==== Sys2Proof/Machine/Program.lean ====
section
/-! DEFINITION. The host program syntax of R98 and R99: statements, the bus accesses they stand for, the pseudo-instructions,
the written form of an access. -/

namespace Sys2Proof.Machine

/-- The statements of R98. A numeric offset may stand in place of a register's name. -/
inductive Stmt where
  | wr (r : Reg) (imm : Word)
  | wrAt (offset : BitVec 8) (imm : Word)
  | rd (r : Reg)
  | rdAt (offset : BitVec 8)
  | wrb (buf : Buf) (addr : Nat) (imm : Byte)
  | rdb (buf : Buf) (addr : Nat)
  deriving DecidableEq, Repr

/-- The bus access of a statement (R98). -/
def stmtAccess : Stmt → Access
  | .wr r imm => .writeReg (regOffset r) imm
  | .wrAt offset imm => .writeReg offset imm
  | .rd r => .readReg (regOffset r)
  | .rdAt offset => .readReg offset
  | .wrb b addr imm => .writeByte b addr imm
  | .rdb b addr => .readByte b addr

/-- The turns of a program (R98): one host access a statement. -/
def hostTurns (program : List Stmt) : List Turn := program.map fun st => .host (stmtAccess st)

/-- start OPNAME (R99). -/
def pseudoStart (op : BitVec 4) : List Stmt := [.wr .cmd (op.setWidth 32)]

/-- wait: as many polls of STATUS as the host makes until BUSY reads 0 (R99). -/
def pseudoWait (polls : Nat) : List Stmt := List.replicate polls (.rd .status)

/-- cfg ver, chk: wr CFG, (chk << 8) | ver (R99). -/
def pseudoCfg (ver : Byte) (chk : Bool) : List Stmt :=
  [.wr .cfg (((BitVec.ofBool chk).setWidth 32 <<< 8) ||| ver.setWidth 32)]

/-- hdr f, t, c: wr HDR_IN, (c << 16) | (t << 8) | f (R99). -/
def pseudoHdr (f t c : Byte) : List Stmt :=
  [.wr .hdrIn ((c.setWidth 32 <<< 16) ||| (t.setWidth 32 <<< 8) ||| f.setWidth 32)]

/-- The byte writes of a sequence to a buffer, from an address. -/
def byteWrites (b : Buf) (addr : Nat) : Bytes → List Stmt
  | [] => []
  | v :: vs => .wrb b addr v :: byteWrites b (addr + 1) vs

/-- ldin [b0, …] (R99). -/
def pseudoLdin (bytes : Bytes) : List Stmt :=
  byteWrites .ibuf 0 bytes ++ [.wr .inLen (BitVec.ofNat 32 bytes.length)]

/-- ldfw [b0, …] (R99). -/
def pseudoLdfw (bytes : Bytes) : List Stmt :=
  byteWrites .fwbuf 0 bytes ++ [.wr .fwLen (BitVec.ofNat 32 bytes.length)]

/-- fwfill k, expr(i) (R99). -/
def pseudoFwfill (k : Nat) (expr : Nat → Byte) : List Stmt := pseudoLdfw ((List.range k).map expr)

/-- The copy of OBUF bytes to IBUF, from an address, with the bytes that the reads answer. -/
def byteCopies (addr : Nat) : Bytes → List Stmt
  | [] => []
  | v :: vs => .rdb .obuf addr :: .wrb .ibuf addr v :: byteCopies (addr + 1) vs

/-- mvout (R99), with the bytes that the host reads. -/
def pseudoMvout (bytes : Bytes) : List Stmt :=
  [.rd .outLen] ++ byteCopies 0 bytes ++ [.wr .inLen (BitVec.ofNat 32 bytes.length)]

/-- op OPNAME (R99) with a LATENCY in which the host polls the given number of times while BUSY: START, the polls, the
completion step, the poll that reads BUSY = 0. -/
def pseudoOp (op : BitVec 4) (polls : Nat) : List Turn :=
  hostTurns (pseudoStart op ++ pseudoWait polls) ++ [.sequencer] ++ hostTurns (pseudoWait 1)

/-- A hexadecimal digit as the spec writes it. -/
def hexDigit (n : Nat) : Char := ['0', '1', '2', '3', '4', '5', '6', '7', '8', '9', 'A', 'B', 'C', 'D', 'E', 'F'].getD n '0'

/-- The last digits of a number in hexadecimal, most significant first. -/
def hexDigits : Nat → Nat → List Char
  | 0, _ => []
  | digits + 1, n => hexDigits digits (n / 16) ++ [hexDigit (n % 16)]

/-- The name of a buffer's address space. -/
def bufName : Buf → String
  | .ibuf => "IBUF"
  | .fwbuf => "FWBUF"
  | .obuf => "OBUF"

/-- How many hexadecimal digits a buffer address is written with: at least four, as R98 shows, and as many as hold it. -/
def addrDigits (n : Nat) : Nat := max 4 (n.log2 / 4 + 1)

/-- The written form of an access, W REG 0x08 0x00000103 or R OBUF 0x0000 (R98). No digit of an address is left out: a buffer
may be larger than any fixed number of digits (R1). -/
def accessText (a : Access) : String :=
  let hex (digits n : Nat) : String := "0x" ++ String.ofList (hexDigits digits n)
  let addrText (n : Nat) : String := hex (addrDigits n) n
  match a with
  | .writeReg offset w => "W REG " ++ hex 2 offset.toNat ++ " " ++ hex 8 w.toNat
  | .readReg offset => "R REG " ++ hex 2 offset.toNat
  | .writeByte b addr v => "W " ++ bufName b ++ " " ++ addrText addr ++ " " ++ hex 2 v.toNat
  | .readByte b addr => "R " ++ bufName b ++ " " ++ addrText addr

end Sys2Proof.Machine
end

