-- ==== Sys2Proof/Safety.lean ====
section
/-! DEFINITION. The words in which statements speak: what an operation keeps, what each result class writes, which states the
block can be in. -/

namespace Sys2Proof.Machine

/-- The byte-sequence input of an operation in a state is p: IN_LEN is its length, which fits IBUF, and IBUF holds it from
offset 0 (R29, R64). -/
def InputIs (p : Bytes) (s : State) : Prop :=
  s.operands.inLen.toNat = p.length ∧ p.length ≤ s.params.ibufBytes ∧
    ∀ (i : Nat) (h : i < p.length), bufferByte .ibuf i s = p[i]

/-- The firmware in a state is fw: FW_LEN is its length, which fits FWBUF, and FWBUF holds it from offset 0 (R31). -/
def FirmwareIs (fw : Bytes) (s : State) : Prop :=
  s.operands.fwLen.toNat = fw.length ∧ fw.length ≤ s.params.fwMaxBytes ∧
    ∀ (i : Nat) (h : i < fw.length), bufferByte .fwbuf i s = fw[i]

/-- Every byte of a buffer reads as before. -/
def SameBytes (b : Buf) (s t : State) : Prop := ∀ a, bufferByte b a t = bufferByte b a s

/-- What no operation changes: the operand registers, every byte of IBUF and FWBUF (R45, R63), the configuration, what is
outside the block. -/
def KeepsInputs (s t : State) : Prop :=
  t.operands = s.operands ∧ SameBytes .ibuf s t ∧ SameBytes .fwbuf s t ∧ t.params = s.params ∧ t.agenda = s.agenda ∧
    t.answers = s.answers

/-- OBUF holds the output from offset 0 and every byte after it as before (R64). -/
def OutputIs (out : Bytes) (s t : State) : Prop :=
  (∀ (a : Nat) (h : a < out.length), bufferByte .obuf a t = out[a]) ∧
    ∀ a, out.length ≤ a → bufferByte .obuf a t = bufferByte .obuf a s

/-- t is s after a completion with OK that outputs out and leaves the result registers r, where OUT_LEN is the length of the
output if 32 bits hold it (R243). Nothing is said of OUT_LEN for a longer output. -/
def CompletesOk (out : Bytes) (r : ResultRegs) (s t : State) : Prop :=
  KeepsInputs s t ∧ OutputIs out s t ∧
    t.status = { busy := false, done := true, result := 0, errCode := 0 } ∧
    t.results = { r with outLen := t.results.outLen } ∧
    (out.length < 2 ^ 32 → t.results.outLen.toNat = out.length)

/-- t is s after a completion that commits STATUS and OUT_LEN = 0 only (R244, R245). -/
def CompletesEmpty (result : BitVec 2) (errCode : BitVec 4) (s t : State) : Prop :=
  KeepsInputs s t ∧ SameBytes .obuf s t ∧
    t.status = { busy := false, done := true, result := result, errCode := errCode } ∧
    t.results = { s.results with outLen := 0 }

/-- The result registers with RES_DESC and RES_FIELDS written (R37, R38). -/
def resultsWithDesc (d : BitVec 16) (r : ResultRegs) : ResultRegs :=
  { r with
    desc := d
    feature := d.extractLsb' 9 7
    packetType := d.extractLsb' 7 2
    command := d.extractLsb' 0 7 }

/-- The command description that the masked fields of HDR_IN make: feature, packet type, command, most significant first
(R27, R80, R120). -/
def maskedHeader (o : OperandRegs) : BitVec 16 :=
  o.featureIn.extractLsb' 0 7 ++ o.typeIn.extractLsb' 0 2 ++ o.commandIn.extractLsb' 0 7

/-- A byte sequence with its checksum byte after it where one is asked for (R86). -/
def withChecksum (chk : Bool) (body : Bytes) : Bytes :=
  if chk then body ++ [body.foldl (fun acc b => acc ^^^ b) 0] else body

/-- The frame of R84 with the given vendor, command description, payload, version and checksum choice, as an encoder writes
it: the 2-byte length field exactly at version 4 or above with more than 255 payload bytes (R144, R145). -/
def frameOf (v d : BitVec 16) (p : Bytes) (ver : Byte) (chk : Bool) : Bytes :=
  withChecksum chk
    (if 4 ≤ ver.toNat ∧ 255 < p.length then
      [0xFF, ver, if chk then 0x03 else 0x02] ++ be16 (BitVec.ofNat 16 p.length) ++ be16 v ++ be16 d ++ p
    else [0xFF, ver, if chk then 0x01 else 0x00] ++ [BitVec.ofNat 8 p.length] ++ be16 v ++ be16 d ++ p)

/-- F is a frame from the vendor exp with command description d and payload p (R84 with the tolerance of R150: flags bits
[7:2] are any, bit 1 counts at version 4 or above only, and then whatever the payload length is). -/
def FrameParses (F : Bytes) (exp d : BitVec 16) (p : Bytes) : Prop :=
  ∃ (ver flags : Byte) (lengthBytes : Bytes),
    3 ≤ ver.toNat ∧
    (if 4 ≤ ver.toNat ∧ flags.getLsbD 1 = true then
      p.length < 65536 ∧ lengthBytes = be16 (BitVec.ofNat 16 p.length)
    else p.length < 256 ∧ lengthBytes = [BitVec.ofNat 8 p.length]) ∧
    F = withChecksum (flags.getLsbD 0) ([0xFF, ver, flags] ++ lengthBytes ++ be16 exp ++ be16 d ++ p)

/-- The message bytes m hold an upgrade message with the given opcode and content, with or without bytes after it (R89,
R172). -/
def MessageParses (m : Bytes) (op : Byte) (content : Bytes) : Prop :=
  content.length < 65536 ∧
    ∃ trailing, m = [op] ++ be16 (BitVec.ofNat 16 content.length) ++ content ++ trailing

/-- The segmenter's cursor after the clamp of R212. -/
def clampedCursor (cursor L : Int) : Int := max 0 (min cursor L)

/-- The segmenter's cursor after the forward skip of R213. -/
def skippedCursor (cursor rewind L : Int) : Int :=
  if rewind > 0 ∧ clampedCursor cursor L + rewind < L then clampedCursor cursor L + rewind
  else clampedCursor cursor L

/-- The bytes that SEGMENT has to send (R215). -/
def bytesAvailable (requested cursor rewind L : Int) : Nat :=
  (max 0 (min requested (L - skippedCursor cursor rewind L))).toNat

/-- The chunk size in force (R214). -/
def chunkLimit (ver : Byte) (maxPerPacket : Nat) : Nat := if ver.toNat < 4 then min maxPerPacket 250 else maxPerPacket

/-- The number read from a peer word (R33, R34). -/
def peerNumber (signed : Bool) (v : Word) : Int :=
  if signed ∧ 2 ^ 31 ≤ v.toNat then (v.toNat : Int) - 2 ^ 32 else (v.toNat : Int)

/-- The number read from CURSOR (R32). -/
def cursorNumber (v : Word) : Int := if 2 ^ 31 ≤ v.toNat then (v.toNat : Int) - 2 ^ 32 else (v.toNat : Int)

/-- The segmenter's cursor at the start of the chunk loop, in a state with firmware length L. -/
def startCursor (s : State) : Nat :=
  (skippedCursor (cursorNumber s.operands.cursorIn) (peerNumber s.params.peerWordSigned s.operands.rewindIn)
    s.operands.fwLen.toNat).toNat

/-- The bytes that SEGMENT has to send in a state. -/
def sendable (s : State) : Nat :=
  bytesAvailable (peerNumber s.params.peerWordSigned s.operands.requestedIn) (cursorNumber s.operands.cursorIn)
    (peerNumber s.params.peerWordSigned s.operands.rewindIn) s.operands.fwLen.toNat

/-- The chunk size in force in a state. -/
def chunkLimitOf (s : State) : Nat := chunkLimit s.operands.version s.operands.maxPerPacket.toNat

/-- The frames that carry the given chunks of a firmware of length L, the first chunk standing at cur: upgrade-data
commands from vendor 0x001D, each marked final where its end is the end of the firmware (R91, R216, R217). -/
def dataFrames (ver : Byte) (chk : Bool) (L : Nat) : Nat → List Bytes → List Bytes
  | _, [] => []
  | cur, d :: ds =>
    frameOf 0x001D 0x0C02
        ([0x04] ++ be16 (BitVec.ofNat 16 (1 + d.length)) ++ [if cur + d.length = L then 0x01 else 0x00] ++ d) ver chk ::
      dataFrames ver chk L (cur + d.length) ds

/-- The chunks that SEGMENT cuts a run of bytes into: one empty chunk for none, else full chunks and a last one that is not
empty (R216, R217). -/
def ChunksOf (limit : Nat) (run : Bytes) (chunks : List Bytes) : Prop :=
  chunks.flatten = run ∧
    (run = [] → chunks = [[]]) ∧
    (run ≠ [] → chunks.dropLast.all (fun c => c.length == limit) = true ∧
      ∃ last, chunks.getLast? = some last ∧ 1 ≤ last.length ∧ last.length ≤ limit)

/-- An instruction completes as R191 says of REC_APPVER: with the payload of an application-version response from the
expected vendor, with NOT_RECOGNIZED for every other candidate, with IN_LEN_RANGE where the candidate does not fit IBUF. -/
def CompletesAsAppVersion (i : Instr) (s : State) : Prop :=
  (∀ F, InputIs F s →
    (∀ p, FrameParses F s.operands.expectedVendor 0x0105 p → ∃ t, exec i s = .next t ∧
      CompletesOk p (resultsWithDesc 0x0105 s.results) s t) ∧
    ((∀ p, ¬FrameParses F s.operands.expectedVendor 0x0105 p) → ∃ t, exec i s = .next t ∧ CompletesEmpty 1 0 s t)) ∧
    (s.params.ibufBytes < s.operands.inLen.toNat → ∃ t, exec i s = .next t ∧ CompletesEmpty 2 2 s t)

/-- A candidate frame holds a "data bytes requested" notification from the vendor exp with the given two words (R90): the
upgrade message may have bytes after it (decision D34). -/
def RequestParses (F : Bytes) (exp : BitVec 16) (requested moveBy : Word) : Prop :=
  ∃ p, FrameParses F exp 0x0C80 p ∧ MessageParses p 0x03 (be32 requested ++ be32 moveBy)

/-- An instruction completes as R193 says of REC_DATAREQ: with the two words of a "data bytes requested" notification from
the expected vendor, with NOT_RECOGNIZED for every other candidate, with IN_LEN_RANGE where the candidate does not fit
IBUF. -/
def CompletesAsDataRequest (i : Instr) (s : State) : Prop :=
  (∀ F, InputIs F s →
    (∀ requested moveBy, RequestParses F s.operands.expectedVendor requested moveBy → ∃ t, exec i s = .next t ∧
      CompletesOk []
        { resultsWithDesc 0x0C80 s.results with upgOpcode := 0x03, requested := requested, moveBy := moveBy } s t) ∧
    ((∀ requested moveBy, ¬RequestParses F s.operands.expectedVendor requested moveBy) → ∃ t, exec i s = .next t ∧
      CompletesEmpty 1 0 s t)) ∧
    (s.params.ibufBytes < s.operands.inLen.toNat → ∃ t, exec i s = .next t ∧ CompletesEmpty 2 2 s t)

/-- An instruction completes as R219 says of SEGMENT: the contract errors of R211, the first that applies reported; else the
frames of the chunks of the bytes that are to be sent, the cursor behind them, the number of frames. -/
def CompletesAsSegment (i : Instr) (s : State) : Prop :=
  (s.params.fwMaxBytes < s.operands.fwLen.toNat → ∃ t, exec i s = .next t ∧ CompletesEmpty 2 3 s t) ∧
    (∀ fw, FirmwareIs fw s →
      (s.operands.version.toNat < 3 → ∃ t, exec i s = .next t ∧ CompletesEmpty 2 4 s t) ∧
      (3 ≤ s.operands.version.toNat → s.operands.maxPerPacket = 0 →
        ∃ t, exec i s = .next t ∧ CompletesEmpty 2 7 s t) ∧
      (4 ≤ s.operands.version.toNat → s.operands.maxPerPacket ≠ 0 →
        65535 < min (chunkLimitOf s) (sendable s) + 4 → ∃ t, exec i s = .next t ∧ CompletesEmpty 2 5 s t) ∧
      (3 ≤ s.operands.version.toNat → s.operands.maxPerPacket ≠ 0 →
        (4 ≤ s.operands.version.toNat → min (chunkLimitOf s) (sendable s) + 4 ≤ 65535) →
        ∃ t chunks, exec i s = .next t ∧
          ChunksOf (chunkLimitOf s) (slice fw (startCursor s) (startCursor s + sendable s)) chunks ∧
          CompletesOk
            (dataFrames s.operands.version s.operands.useChecksum fw.length (startCursor s) chunks).flatten
            { s.results with
              cursor := BitVec.ofNat 32 (startCursor s + sendable s)
              frames := BitVec.ofNat 32 chunks.length } s t))

/-- out is a run of frames, each from vendor 0x001D with description 0x0C02 and an upgrade message with opcode 4 that carries
a marker and the data at its place in datas (R91, R220). -/
def CarriesData (out : Bytes) (datas : List Bytes) : Prop :=
  ∃ frames : List Bytes, out = frames.flatten ∧ frames.length = datas.length ∧
    ∀ (j : Nat) (hj : j < frames.length) (hd : j < datas.length), ∃ (m : Byte) (payload : Bytes),
      decFrame frames[j] 0x001D = .ok (0x0C02, payload) ∧ decUpg payload = .ok (0x04, m :: datas[j])

/-- What two runs leave in one place: both keep it, or both end with the same. -/
def KeptOrEqual {α : Type} (old new old' new' : α) : Prop := (new = old ∧ new' = old') ∨ new' = new

/-- The legal values of STATUS: in flight, with DONE, RESULT and ERRCODE 0 (R276); fresh from reset (R270); or completed
with a class, 3 never, and an error code from 1 to 7 exactly with CONTRACT_ERROR (R240, R241). -/
def StatusLegal (t : Status) : Prop :=
  t = { busy := true, done := false, result := 0, errCode := 0 } ∨
  t = { busy := false, done := false, result := 0, errCode := 0 } ∨
  (t.busy = false ∧ t.done = true ∧
    ((t.result = 0 ∧ t.errCode = 0) ∨ (t.result = 1 ∧ t.errCode = 0) ∨
      (t.result = 2 ∧ 1 ≤ t.errCode.toNat ∧ t.errCode.toNat ≤ 7)))

/-- RES_FIELDS are the fields of RES_DESC (R38). -/
def FieldsAgree (r : ResultRegs) : Prop :=
  r.feature = r.desc.extractLsb' 9 7 ∧ r.packetType = r.desc.extractLsb' 7 2 ∧ r.command = r.desc.extractLsb' 0 7

/-- The three buffers are in canonical form and inside their sizes (R47). -/
def BuffersWf (s : State) : Prop :=
  Memory.wf s.params.ibufBytes s.ibuf ∧ Memory.wf s.params.fwMaxBytes s.fwbuf ∧ Memory.wf s.params.obufBytes s.obuf

/-- What holds of every state the block can be in. -/
def BlockInv (s : State) : Prop :=
  BuffersWf s ∧ StatusLegal s.status ∧ FieldsAgree s.results ∧
    (s.status.result ≠ 0 → s.results.outLen = 0) ∧
    s.results.cursor.toNat ≤ s.params.fwMaxBytes ∧
    s.results.frames.toNat ≤ max 1 s.params.fwMaxBytes

/-- The result classes and error codes that R246 allows an operation. A wire selector has those of the operation that its
row's rule names. -/
def allowedOutcome : Instr → List (BitVec 2 × BitVec 4)
  | .packHdr => [(0, 0)]
  | .unpackHdr => [(0, 0)]
  | .encPdu => [(0, 0), (2, 2)]
  | .encFrame => [(0, 0), (2, 2), (2, 4), (2, 5)]
  | .decFrame => [(0, 0), (1, 0), (2, 2)]
  | .encUpg => [(0, 0), (2, 2), (2, 6)]
  | .decUpg => [(0, 0), (1, 0), (2, 2)]
  | .recAppver => [(0, 0), (1, 0), (2, 2)]
  | .recDatareq => [(0, 0), (1, 0), (2, 2)]
  | .segment => [(0, 0), (2, 3), (2, 4), (2, 7), (2, 5)]
  | .reservedOp0 => [(2, 1)]
  | .reservedOpB => [(2, 1)]
  | .reservedOpC => [(2, 1)]
  | .reservedOpD => [(2, 1)]
  | .reservedOpE => [(2, 1)]
  | .reservedOpF => [(2, 1)]
  | .appverRsp => [(0, 0), (1, 0), (2, 2)]
  | .dataBytesReqNtf => [(0, 0), (1, 0), (2, 2)]
  | .upgDataBytesReq => [(0, 0), (1, 0), (2, 2)]
  | .upgDataCmd => [(0, 0), (2, 3), (2, 4), (2, 7), (2, 5)]
  | .upgData _ => [(0, 0), (2, 3), (2, 4), (2, 7), (2, 5)]

/-- What the block shows of itself: everything but what is outside it. -/
def SameBlock (s t : State) : Prop :=
  t.operands = s.operands ∧ t.status = s.status ∧ t.results = s.results ∧ t.ibuf = s.ibuf ∧ t.fwbuf = s.fwbuf ∧
    t.obuf = s.obuf ∧ t.params = s.params

end Sys2Proof.Machine
end

