-- ==== Sys2Proof/Certificates/Slice0/Obligations.lean ====
section
/-! DEFINITION. What is to be proved of the FGC codec block. -/

open Sys2Proof Sys2Proof.Machine

/-! Encoding and stepping -/

/-- R22, R90, R91, R92, R95, R96: the decoder reads back what the encoder writes, whatever follows it, and it reads an
instruction only from bytes that carry its code; of a CMD byte only bits [3:0] count. -/
def Obligations.InstructionCodesRoundTrip : Prop :=
  (∀ (i : Instr) (rest : Bytes), decodeBytes (formatOf i) (encodeBytes i ++ rest) = .ok (i, rest)) ∧
    ∀ (f : Format) (bytes rest : Bytes) (i : Instr), decodeBytes f bytes = .ok (i, rest) →
      formatOf i = f ∧
        ∃ first, bytes = first ++ rest ∧ first.length = (encodeBytes i).length ∧
          (f = .cmd → (byteAt first 0).extractLsb' 0 4 = (byteAt (encodeBytes i) 0).extractLsb' 0 4) ∧
          (f ≠ .cmd → first = encodeBytes i)

/-- Words written out from the spec's tables decode to the instructions they stand for (R22, R90, R91, R92, R95, R96). MODEL'S
CHOICE (notes/assumptions/17.md): that a word of 8 bits is a CMD byte, one of 16 a command description, one of 24 an
upgrade-message header. -/
def Obligations.TableWordsDecode : Prop :=
  decodeTableWord 8 0x1 = some .packHdr ∧ decodeTableWord 8 0x4 = some .encFrame ∧
    decodeTableWord 8 0xA4 = some .encFrame ∧ decodeTableWord 8 0x5 = some .decFrame ∧
    decodeTableWord 8 0x7 = some .decUpg ∧ decodeTableWord 8 0x9 = some .recDatareq ∧
    decodeTableWord 8 0xA = some .segment ∧ decodeTableWord 8 0x0 = some .reservedOp0 ∧
    decodeTableWord 8 0xF = some .reservedOpF ∧ decodeTableWord 16 0x0105 = some .appverRsp ∧
    decodeTableWord 16 0x0C80 = some .dataBytesReqNtf ∧ decodeTableWord 16 0x0C02 = some .upgDataCmd ∧
    decodeTableWord 16 0x0005 = none ∧ decodeTableWord 24 0x030008 = some .upgDataBytesReq ∧
    decodeTableWord 24 0x030007 = none ∧ decodeTableWord 24 0x0400FB = some (.upgData 0x00FB)

/-- R46, R273, R275: with an operation in flight, the sequencer's turn is exec of the instruction that CMD.OP decodes to, and
of every wire selector that this operation carries; with none it changes nothing, and neither does an idle turn; the turn
itself only leaves the agenda. MODEL'S CHOICE: the agenda (notes/assumptions/5.md), what carries a wire selector
(notes/assumptions/4.md). -/
def Obligations.StepRunsTheInstructionInFlight : Prop :=
  (∀ (s : State) (i : Instr), s.status.busy = true → (i = decodeOp s.operands.op ∨ carries i s = true) →
    (s.agenda = [] → step s = exec i s) ∧
      ∀ rest, s.agenda = .sequencer :: rest → step s = exec i { s with agenda := rest }) ∧
    (∀ s : State, s.status.busy = false →
      (s.agenda = [] → step s = .next s) ∧
        ∀ rest, s.agenda = .sequencer :: rest → step s = .next { s with agenda := rest }) ∧
    ∀ (s : State) (rest : List Turn), s.agenda = .idle :: rest → step s = .next { s with agenda := rest }

/-- A state into which a word of the table was placed runs that instruction next, and the operation in flight carries it (a
SEGMENT carries the message length that fits FWBUF); no result register and no byte of FWBUF or OBUF changes, and a CMD
word changes CMD.OP and STATUS alone. MODEL'S CHOICE: how a word is placed and read (notes/assumptions/6.md and 17.md), what
carries a wire selector (notes/assumptions/4.md). -/
def Obligations.PlacedWordRunsNext : Prop :=
  ∀ (s : State) (nbits w : Nat) (i : Instr), decodeTableWord nbits w = some i →
    step (s.withFetchWord nbits w) = exec i { s.withFetchWord nbits w with agenda := s.agenda } ∧
      ((∀ n, i = .upgData n → Instr.wellFormed i = true ∧ n.toNat ≤ s.params.fwMaxBytes + 1) →
        carries i (s.withFetchWord nbits w) = true) ∧
      (s.withFetchWord nbits w).status = { busy := true, done := false, result := 0, errCode := 0 } ∧
      (s.withFetchWord nbits w).results = s.results ∧ (s.withFetchWord nbits w).params = s.params ∧
      (s.withFetchWord nbits w).answers = s.answers ∧ SameBytes .fwbuf s (s.withFetchWord nbits w) ∧
      SameBytes .obuf s (s.withFetchWord nbits w) ∧
      (nbits ≤ 8 ∨ 24 < nbits →
        (s.withFetchWord nbits w).operands = { s.operands with op := BitVec.ofNat 4 w } ∧
          SameBytes .ibuf s (s.withFetchWord nbits w))

/-! Header codec -/

/-- R121, R120: PACK_HDR always completes with OK; the description is the three masked fields. -/
def Obligations.PackHdrPacksTheMaskedFields : Prop :=
  ∀ s : State, ∃ t, exec .packHdr s = .next t ∧
    CompletesOk [] (resultsWithDesc (maskedHeader s.operands) s.results) s t

/-- R123: UNPACK_HDR always completes with OK; the description is DESC_IN. -/
def Obligations.UnpackHdrTakesTheDescriptionApart : Prop :=
  ∀ s : State, ∃ t, exec .unpackHdr s = .next t ∧
    CompletesOk [] (resultsWithDesc s.operands.descIn s.results) s t

/-- R124: packing and unpacking are inverse up to the wire widths. -/
def Obligations.HeaderPackAndUnpackAreInverse : Prop :=
  (∀ d : BitVec 16,
    packDesc (unpackDesc d).feature.toNat (unpackDesc d).packetType.toNat (unpackDesc d).command.toNat = d) ∧
    ∀ f t c : Nat,
      (unpackDesc (packDesc f t c)).feature.toNat = f % 128 ∧ (unpackDesc (packDesc f t c)).packetType.toNat = t % 4 ∧
        (unpackDesc (packDesc f t c)).command.toNat = c % 128

/-! Frame codec -/

/-- R142, R140, R141: ENC_PDU writes vendor, description, payload, whatever CFG holds, and fails only where IN_LEN exceeds
IBUF. -/
def Obligations.EncPduWritesTheAddressedCommand : Prop :=
  ∀ s : State,
    (∀ p, InputIs p s → ∃ t, exec .encPdu s = .next t ∧
      CompletesOk (be16 s.operands.vendorId ++ be16 (maskedHeader s.operands) ++ p)
        (resultsWithDesc (maskedHeader s.operands) s.results) s t) ∧
      (s.params.ibufBytes < s.operands.inLen.toNat → ∃ t, exec .encPdu s = .next t ∧ CompletesEmpty 2 2 s t)

/-- R147, R143 to R145: ENC_FRAME reports the first contract error that applies, and writes the frame of its operands where
none does. -/
def Obligations.EncFrameWritesTheFrameOrRejects : Prop :=
  ∀ s : State,
    (s.params.ibufBytes < s.operands.inLen.toNat → ∃ t, exec .encFrame s = .next t ∧ CompletesEmpty 2 2 s t) ∧
      ∀ p, InputIs p s →
        (s.operands.version.toNat < 3 → ∃ t, exec .encFrame s = .next t ∧ CompletesEmpty 2 4 s t) ∧
          (4 ≤ s.operands.version.toNat → 65535 < p.length →
            ∃ t, exec .encFrame s = .next t ∧ CompletesEmpty 2 5 s t) ∧
          (s.operands.version.toNat = 3 → 254 < p.length →
            ∃ t, exec .encFrame s = .next t ∧ CompletesEmpty 2 5 s t) ∧
          (3 ≤ s.operands.version.toNat → (s.operands.version.toNat = 3 → p.length ≤ 254) →
            (4 ≤ s.operands.version.toNat → p.length ≤ 65535) →
            ∃ t, exec .encFrame s = .next t ∧
              CompletesOk
                (frameOf s.operands.vendorId (maskedHeader s.operands) p s.operands.version s.operands.useChecksum)
                (resultsWithDesc (maskedHeader s.operands) s.results) s t)

/-- R146: the length of an encoded frame. -/
def Obligations.EncodedFrameLength : Prop :=
  ∀ (v : BitVec 16) (f t c : Nat) (p : Bytes) (ver : Byte) (chk : Bool) (fr : Bytes),
    encFrame v f t c p ver chk = .ok fr →
      fr.length = (if 4 ≤ ver.toNat ∧ 255 < p.length then 5 else 4) + 4 + p.length + (if chk then 1 else 0) ∧
        8 ≤ fr.length ∧ fr.length ≤ 65545

/-- R153, R149 to R152: DEC_FRAME completes with the description and the payload of every candidate that is a frame from the
expected vendor, and with NOT_RECOGNIZED for every other. -/
def Obligations.DecFrameRecognizesExactlyFrames : Prop :=
  ∀ (s : State),
    (∀ F, InputIs F s →
      (∀ d p, FrameParses F s.operands.expectedVendor d p → ∃ t, exec .decFrame s = .next t ∧
        CompletesOk p (resultsWithDesc d s.results) s t) ∧
      ((∀ d p, ¬FrameParses F s.operands.expectedVendor d p) → ∃ t, exec .decFrame s = .next t ∧
        CompletesEmpty 1 0 s t)) ∧
      (s.params.ibufBytes < s.operands.inLen.toNat → ∃ t, exec .decFrame s = .next t ∧ CompletesEmpty 2 2 s t)

/-- R154: decoding an encoded frame with its vendor gives back the description and the payload. -/
def Obligations.FrameRoundTrip : Prop :=
  ∀ (v : BitVec 16) (f t c : Nat) (p : Bytes) (ver : Byte) (chk : Bool), f < 128 → t < 4 → c < 128 →
    3 ≤ ver.toNat → (ver.toNat = 3 → p.length ≤ 254) → (4 ≤ ver.toNat → p.length ≤ 65535) →
    ∃ fr, encFrame v f t c p ver chk = .ok fr ∧ decFrame fr v = .ok (packDesc f t c, p)

/-- R155: changing one byte of a checksummed frame makes it unrecognized, but for the one case the rule names. -/
def Obligations.OneChangedByteIsNotRecognized : Prop :=
  ∀ (v : BitVec 16) (f t c : Nat) (p : Bytes) (ver : Byte) (fr : Bytes) (i : Nat) (b : Byte),
    f < 128 → t < 4 → c < 128 → encFrame v f t c p ver true = .ok fr → i < fr.length → b ≠ byteAt fr i →
    if 4 ≤ ver.toNat ∧ p = [] ∧ v = 0 ∧ f = 0 ∧ t < 2 ∧ i = 2 ∧ b.getLsbD 0 = false ∧ b.getLsbD 1 = true then
      decFrame (fr.set i b) v = .ok ((packDesc f t c).extractLsb' 0 8 ++ byteAt fr 8, [])
    else decFrame (fr.set i b) v = .notRecognized

/-! Upgrade messages -/

/-- R171, R170: ENC_UPG writes opcode, length, content; it fails where IN_LEN exceeds IBUF, then where the content exceeds
65535 bytes. -/
def Obligations.EncUpgWritesTheMessage : Prop :=
  ∀ s : State,
    (∀ c, InputIs c s → c.length ≤ 65535 → ∃ t, exec .encUpg s = .next t ∧
      CompletesOk ([s.operands.upgOpcode] ++ be16 (BitVec.ofNat 16 c.length) ++ c) s.results s t) ∧
      (∀ c, InputIs c s → 65535 < c.length → ∃ t, exec .encUpg s = .next t ∧ CompletesEmpty 2 6 s t) ∧
      (s.params.ibufBytes < s.operands.inLen.toNat → ∃ t, exec .encUpg s = .next t ∧ CompletesEmpty 2 2 s t)

/-- R173, R172: DEC_UPG completes with the opcode and the content of every message, trailing bytes dropped, and with
NOT_RECOGNIZED for every other input. -/
def Obligations.DecUpgTakesTheMessageApart : Prop :=
  ∀ s : State,
    (∀ m, InputIs m s →
      (∀ op content, MessageParses m op content → ∃ t, exec .decUpg s = .next t ∧
        CompletesOk content { s.results with upgOpcode := op } s t) ∧
      ((∀ op content, ¬MessageParses m op content) → ∃ t, exec .decUpg s = .next t ∧ CompletesEmpty 1 0 s t)) ∧
      (s.params.ibufBytes < s.operands.inLen.toNat → ∃ t, exec .decUpg s = .next t ∧ CompletesEmpty 2 2 s t)

/-- R174: decoding undoes encoding, tolerates trailing bytes, rejects every proper prefix. -/
def Obligations.UpgradeMessageLaws : Prop :=
  ∀ (op : Byte) (c : Bytes), c.length ≤ 65535 →
    ∃ u, encUpg op c = .ok u ∧ (∀ x, decUpg (u ++ x) = .ok (op, c)) ∧ decUpg u = .ok (op, c) ∧
      ∀ n, n < u.length → decUpg (u.take n) = .notRecognized

/-! Recognizers -/

/-- R191, R190, R92: REC_APPVER completes with the payload of an application-version response from the expected vendor and
with NOT_RECOGNIZED for every other candidate. -/
def Obligations.RecAppverRecognizesTheResponse : Prop := ∀ s : State, CompletesAsAppVersion .recAppver s

/-- R193, R192, R90: REC_DATAREQ completes with the two words of a "data bytes requested" notification from the expected
vendor and with NOT_RECOGNIZED for every other candidate. -/
def Obligations.RecDatareqRecognizesTheNotification : Prop := ∀ s : State, CompletesAsDataRequest .recDatareq s

/-- R194: after a recognizer, whatever its result, the next recognizer gives the answer it would give alone; one that does
not match leaves every result register but OUT_LEN and every byte as they were. -/
def Obligations.ProbingDoesNotDisturb : Prop :=
  ∀ (s t : State) (i j : Instr), (i = .decFrame ∨ i = .recAppver ∨ i = .recDatareq) →
    (j = .decFrame ∨ j = .recAppver ∨ j = .recDatareq) → exec i s = .next t →
    SameBytes .ibuf s t ∧ (t.status.result = 1 → CompletesEmpty 1 0 s t) ∧
      ∃ u u', exec j s = .next u ∧ exec j t = .next u' ∧ u'.status = u.status ∧
        u'.results.outLen = u.results.outLen ∧
        (∀ a, a < u.results.outLen.toNat → bufferByte .obuf a u' = bufferByte .obuf a u) ∧
        (u.status.result = 0 → u'.results.desc = u.results.desc ∧ u'.results.feature = u.results.feature ∧
          u'.results.packetType = u.results.packetType ∧ u'.results.command = u.results.command) ∧
        (u.status.result = 0 → j = .recDatareq → u'.results.upgOpcode = u.results.upgOpcode ∧
          u'.results.requested = u.results.requested ∧ u'.results.moveBy = u.results.moveBy) ∧
        (t.status.result = 1 → u'.results = u.results ∧ SameBytes .obuf u u')

/-! Segmenter -/

/-- R219, R210 to R217: SEGMENT reports the first contract error that applies; else it emits the frames of the chunks of the
bytes that are to be sent, and the cursor behind them. -/
def Obligations.SegmentEmitsTheChunksOrRejects : Prop := ∀ s : State, CompletesAsSegment .segment s

/-- The five wire selectors complete by the rule that their rows name: R191, R193, R193, R219, R216. MODEL'S CHOICE
(notes/assumptions/4.md): the spec gives a wire selector no START of its own. -/
def Obligations.WireSelectorsCompleteByTheirRules : Prop :=
  ∀ s : State, CompletesAsAppVersion .appverRsp s ∧ CompletesAsDataRequest .dataBytesReqNtf s ∧
    CompletesAsDataRequest .upgDataBytesReq s ∧ CompletesAsSegment .upgDataCmd s ∧
    ∀ contentLength, CompletesAsSegment (.upgData contentLength) s

/-- R220 property 6: every frame that the segmenter emits, given to the decoder with vendor 0x001D, is an upgrade-data
command whose message has opcode 4 and content marker and data; R220 property 5: the data are the firmware bytes sent. -/
def Obligations.SegmenterFramesDecode : Prop :=
  ∀ (fw : Bytes) (g : SegOperands) (p : SegProgress), segmentFn fw g = .ok p →
    ∃ frames datas : List Bytes,
      p.out = frames.flatten ∧ frames.length = p.frames ∧ datas.length = p.frames ∧
        datas.flatten = slice fw (segCur2 fw.length g).toNat ((segCur2 fw.length g).toNat + segAvail fw.length g) ∧
        ∀ (j : Nat) (hj : j < frames.length) (hd : j < datas.length), ∃ (m : Byte) (payload : Bytes),
          decFrame frames[j] 0x001D = .ok (0x0C02, payload) ∧ decUpg payload = .ok (0x04, m :: datas[j]) ∧
            m = (if j + 1 = p.frames ∧ p.cur = fw.length then 1 else 0)

/-- R217: where nothing is to be sent, exactly one frame is emitted, whose message holds the marker alone, 1 where the cursor
stands at the end of the firmware, and the cursor stays behind the skip. -/
def Obligations.NothingToSendIsAcknowledged : Prop :=
  ∀ (fw : Bytes) (g : SegOperands), 3 ≤ g.ver.toNat → g.maxChunk ≠ 0 → segAvail fw.length g = 0 →
    segmentFn fw g = .ok
      { out :=
          frameOf 0x001D 0x0C02 [0x04, 0x00, 0x01, if (segCur2 fw.length g).toNat = fw.length then 0x01 else 0x00]
            g.ver g.chk
        cur := (segCur2 fw.length g).toNat
        sent := 0
        frames := 1 }

/-- R220 property 8: a call and a second one from the cursor that the first returned, without a skip, emit the same data bytes
and end at the same cursor as one call with the summed request, where the first request does not reach past the end. -/
def Obligations.SegmenterThreadsTheCursor : Prop :=
  ∀ (fw : Bytes) (g : SegOperands) (first second : Nat) (p q whole : SegProgress),
    (segCur2 fw.length g).toNat + first ≤ fw.length → segmentFn fw { g with req := first } = .ok p →
    segmentFn fw { g with cur0 := p.cur, req := second, rew := 0 } = .ok q →
    segmentFn fw { g with req := first + second } = .ok whole →
    q.cur = whole.cur ∧
      (∃ datasP datasQ datasWhole,
        CarriesData p.out datasP ∧ CarriesData q.out datasQ ∧ CarriesData whole.out datasWhole) ∧
      ∀ datasP datasQ datasWhole,
        CarriesData p.out datasP → CarriesData q.out datasQ → CarriesData whole.out datasWhole →
        datasP.flatten ++ datasQ.flatten = datasWhole.flatten

/-- R218: the output of the segmenter is at most max(13, 14 * avail) bytes long. -/
def Obligations.SegmenterOutputBound : Prop :=
  ∀ (fw : Bytes) (g : SegOperands) (p : SegProgress), segmentFn fw g = .ok p →
    p.out.length ≤ max 13 (14 * segAvail fw.length g)

/-- R220 properties 4 and 7: the cursor that comes back is cur2 + avail, inside the firmware, and at least one frame is
emitted. -/
def Obligations.SegmenterCursorAndLiveness : Prop :=
  ∀ (fw : Bytes) (g : SegOperands) (p : SegProgress), segmentFn fw g = .ok p →
    p.cur = (segCur2 fw.length g).toNat + segAvail fw.length g ∧ p.cur ≤ fw.length ∧ 1 ≤ p.frames

/-- R220 property 1: a whole firmware from cursor 0 in chunks of 250. -/
def Obligations.SegmentSendsTheWholeFirmware : Prop :=
  ∀ s : State, s.operands.fwLen.toNat ≤ s.params.fwMaxBytes → 0 < s.operands.fwLen.toNat →
    s.operands.cursorIn = 0 → s.operands.requestedIn = s.operands.fwLen → s.operands.rewindIn = 0 →
    s.operands.maxPerPacket = 250 → 3 ≤ s.operands.version.toNat →
    ∃ t, exec .segment s = .next t ∧ t.status.result = 0 ∧ t.results.cursor = s.operands.fwLen ∧
      t.results.frames.toNat = (s.operands.fwLen.toNat + 249) / 250

/-- R213: the sign reading of REWIND is not observable, and that of REQ only from 0x80000000 on. -/
def Obligations.PeerSignIsObservableOnlyThroughLargeRequests : Prop :=
  ∀ (s : State), s.operands.requestedIn.toNat < 2 ^ 31 →
    ∃ t u, exec .segment { s with params := { s.params with peerWordSigned := true } } = .next t ∧
      exec .segment { s with params := { s.params with peerWordSigned := false } } = .next u ∧
      t.status = u.status ∧ t.results = u.results ∧ SameBytes .obuf t u

/-! Result classes -/

/-- R96, R241: every reserved code completes with ILLEGAL_OP and commits nothing else. -/
def Obligations.ReservedCodesAreIllegal : Prop :=
  ∀ (s : State) (i : Instr),
    (i = .reservedOp0 ∨ i = .reservedOpB ∨ i = .reservedOpC ∨ i = .reservedOpD ∨ i = .reservedOpE ∨ i = .reservedOpF) →
    ∃ t, exec i s = .next t ∧ CompletesEmpty 2 1 s t

/-- R240, R241, R246: every operation completes, idle and done, in one of the classes and with one of the codes that R246
gives it. -/
def Obligations.EveryOperationEndsInItsClasses : Prop :=
  ∀ (i : Instr) (s : State), ∃ t, exec i s = .next t ∧ t.status.busy = false ∧ t.status.done = true ∧
    (t.status.result, t.status.errCode) ∈ allowedOutcome i

/-- R244, R245, R247: a completion that is not OK commits STATUS and OUT_LEN = 0, nothing else. -/
def Obligations.FailuresCommitNothing : Prop :=
  ∀ (i : Instr) (s t : State), exec i s = .next t →
    (t.status.result = 1 → CompletesEmpty 1 0 s t) ∧
      (t.status.result = 2 → CompletesEmpty 2 t.status.errCode s t) ∧ t.status.result ≠ 3

/-- R63, R64: no operation writes an operand register, IBUF or FWBUF, and OBUF keeps every byte from OUT_LEN on. The premises
on the sizes are there because OUT_LEN is a free value for an output of 2^32 bytes or more (notes/assumptions/3.md). That
the wire selectors complete too is the MODEL'S CHOICE (notes/assumptions/4.md). -/
def Obligations.OperationsWriteOnlyTheirOutput : Prop :=
  ∀ (i : Instr) (s t : State), exec i s = .next t → s.operands.inLen.toNat + 4 < 2 ^ 32 →
    14 * s.params.fwMaxBytes < 2 ^ 32 →
    KeepsInputs s t ∧ ∀ a, t.results.outLen.toNat ≤ a → bufferByte .obuf a t = bufferByte .obuf a s

/-- R64, R97, R48: an operation depends on the operand registers, the configuration, IBUF below IN_LEN and FWBUF below
FW_LEN, and on nothing else: each result register and each byte of OBUF is kept in both runs or ends the same in both, and
the output is the same whatever OBUF held. That the wire selectors complete too is the MODEL'S CHOICE
(notes/assumptions/4.md). -/
def Obligations.OperationsReadOnlyTheirInputs : Prop :=
  ∀ (i : Instr) (s s' : State), s'.operands = s.operands → s'.params = s.params →
    (∀ a, a < s.operands.inLen.toNat → bufferByte .ibuf a s' = bufferByte .ibuf a s) →
    (∀ a, a < s.operands.fwLen.toNat → bufferByte .fwbuf a s' = bufferByte .fwbuf a s) →
    ∃ t t', exec i s = .next t ∧ exec i s' = .next t' ∧ t'.status = t.status ∧
      t'.results.outLen = t.results.outLen ∧
      (∀ a, a < t.results.outLen.toNat → bufferByte .obuf a t' = bufferByte .obuf a t) ∧
      (∀ a, KeptOrEqual (bufferByte .obuf a s) (bufferByte .obuf a t) (bufferByte .obuf a s') (bufferByte .obuf a t')) ∧
      KeptOrEqual s.results.desc t.results.desc s'.results.desc t'.results.desc ∧
      KeptOrEqual s.results.feature t.results.feature s'.results.feature t'.results.feature ∧
      KeptOrEqual s.results.packetType t.results.packetType s'.results.packetType t'.results.packetType ∧
      KeptOrEqual s.results.command t.results.command s'.results.command t'.results.command ∧
      KeptOrEqual s.results.upgOpcode t.results.upgOpcode s'.results.upgOpcode t'.results.upgOpcode ∧
      KeptOrEqual s.results.requested t.results.requested s'.results.requested t'.results.requested ∧
      KeptOrEqual s.results.moveBy t.results.moveBy s'.results.moveBy t'.results.moveBy ∧
      KeptOrEqual s.results.cursor t.results.cursor s'.results.cursor t'.results.cursor ∧
      KeptOrEqual s.results.frames t.results.frames s'.results.frames t'.results.frames

/-! Host port -/

/-- R274, R22, R61: a host write of CMD while idle, at any of its four byte offsets, starts the operation of its low four bits
and changes nothing else. -/
def Obligations.StartLatchesTheOperation : Prop :=
  ∀ (s : State) (offset : BitVec 8) (w : Word) (rest : List Turn), s.status.busy = false → offset.toNat < 4 →
    s.agenda = .host (.writeReg offset w) :: rest →
    step s = .next
      { s with
        agenda := rest
        operands := { s.operands with op := w.extractLsb' 0 4 }
        status := { busy := true, done := false, result := 0, errCode := 0 } }

/-- R277: a host write while BUSY changes nothing, in any space, and a write to OBUF never does. -/
def Obligations.WritesWhileBusyAreIgnored : Prop :=
  ∀ (s : State) (rest : List Turn) (a : Access), s.agenda = .host a :: rest →
    (∀ offset, a ≠ .readReg offset) → (∀ b addr, a ≠ .readByte b addr) →
    (s.status.busy = true ∨ ∃ addr v, a = .writeByte .obuf addr v) → step s = .next { s with agenda := rest }

/-- R67, R276: a host read changes nothing in the block, busy or not; it answers the value that stands there. -/
def Obligations.ReadsHaveNoSideEffect : Prop :=
  ∀ (s : State) (rest : List Turn),
    (∀ offset, s.agenda = .host (.readReg offset) :: rest →
      step s = .next { s with agenda := rest, answers := hostReadReg offset s :: s.answers }) ∧
      ∀ b addr, s.agenda = .host (.readByte b addr) :: rest →
        step s = .next { s with agenda := rest, answers := (hostReadByte b addr s).setWidth 32 :: s.answers }

/-- R24 to R35, R44, R61: while idle an operand register reads back the defined bits of the word last written, at each of
its four offsets, and its reserved bits 0; a register write that is no write of CMD replaces the addressed register alone:
every other register reads as before, and nothing else of the state changes. -/
def Obligations.OperandRegistersReadBack : Prop :=
  (∀ (s : State) (w : Word) (low low' : BitVec 8), s.status.busy = false → low.toNat < 4 → low'.toNat < 4 →
      hostReadReg (0x08 + low) (hostWriteReg (0x08 + low') w s) = w &&& 0x1FF ∧
        hostReadReg (0x0C + low) (hostWriteReg (0x0C + low') w s) = w &&& 0xFFFF ∧
        hostReadReg (0x10 + low) (hostWriteReg (0x10 + low') w s) = w &&& 0xFFFF ∧
        hostReadReg (0x14 + low) (hostWriteReg (0x14 + low') w s) = w &&& 0xFFFFFF ∧
        hostReadReg (0x18 + low) (hostWriteReg (0x18 + low') w s) = w &&& 0xFFFF ∧
        hostReadReg (0x1C + low) (hostWriteReg (0x1C + low') w s) = w ∧
        hostReadReg (0x20 + low) (hostWriteReg (0x20 + low') w s) = w &&& 0xFF ∧
        hostReadReg (0x24 + low) (hostWriteReg (0x24 + low') w s) = w ∧
        hostReadReg (0x28 + low) (hostWriteReg (0x28 + low') w s) = w ∧
        hostReadReg (0x2C + low) (hostWriteReg (0x2C + low') w s) = w ∧
        hostReadReg (0x30 + low) (hostWriteReg (0x30 + low') w s) = w ∧
        hostReadReg (0x34 + low) (hostWriteReg (0x34 + low') w s) = w) ∧
    ∀ (s : State) (w : Word) (offset : BitVec 8), 4 ≤ offset.toNat →
      (hostWriteReg offset w s).status = s.status ∧ (hostWriteReg offset w s).results = s.results ∧
        (hostWriteReg offset w s).ibuf = s.ibuf ∧ (hostWriteReg offset w s).fwbuf = s.fwbuf ∧
        (hostWriteReg offset w s).obuf = s.obuf ∧ (hostWriteReg offset w s).params = s.params ∧
        (hostWriteReg offset w s).agenda = s.agenda ∧ (hostWriteReg offset w s).answers = s.answers ∧
        ∀ other : BitVec 8, other.toNat / 4 ≠ offset.toNat / 4 →
          hostReadReg other (hostWriteReg offset w s) = hostReadReg other s

/-- R44, R23, R36 to R43: a write at a reserved offset or at a read-only register is ignored, and a reserved offset reads
0. -/
def Obligations.ReservedAndReadOnlyRegisters : Prop :=
  ∀ (s : State) (w : Word) (offset : BitVec 8),
    ((offset.toNat / 4 = 1 ∨ 14 ≤ offset.toNat / 4) → hostWriteReg offset w s = s) ∧
      ((offset.toNat / 4 = 14 ∨ offset.toNat / 4 = 15 ∨ 24 ≤ offset.toNat / 4) → hostReadReg offset s = 0)

/-- R23, R38: the fields of STATUS and RES_FIELDS stand at their places in the words the host reads. -/
def Obligations.StatusAndFieldsWords : Prop :=
  ∀ s : State,
    (hostReadReg 0x04 s).getLsbD 0 = s.status.busy ∧ (hostReadReg 0x04 s).getLsbD 1 = s.status.done ∧
      (hostReadReg 0x04 s).extractLsb' 2 2 = s.status.result ∧
      (hostReadReg 0x04 s).extractLsb' 8 4 = s.status.errCode ∧ hostReadReg 0x04 s &&& 0xFFFFF0F0 = 0 ∧
      (hostReadReg 0x48 s).extractLsb' 0 7 = s.results.feature ∧
      (hostReadReg 0x48 s).extractLsb' 8 2 = s.results.packetType ∧
      (hostReadReg 0x48 s).extractLsb' 16 7 = s.results.command ∧ hostReadReg 0x48 s &&& 0xFF80FC80 = 0

/-- R62, R63, R69, R276: a host read inside a buffer, busy or not, answers the byte it holds, and one beyond it answers 0;
while idle a byte written inside IBUF or FWBUF reads back and every other byte of every buffer reads as before; a write
beyond the buffer is ignored, and so is a write to OBUF. -/
def Obligations.BufferAccesses : Prop :=
  ∀ (s : State) (b : Buf) (addr : Nat) (v : Byte),
    (addr < bufferSize s.params b → hostReadByte b addr s = bufferByte b addr s) ∧
      (bufferSize s.params b ≤ addr → hostReadByte b addr s = 0) ∧
      (s.status.busy = false → b ≠ .obuf → addr < bufferSize s.params b →
        hostReadByte b addr (hostWriteByte b addr v s) = v ∧
          ∀ b' a, (b' ≠ b ∨ a ≠ addr) → bufferByte b' a (hostWriteByte b addr v s) = bufferByte b' a s) ∧
      ((b = .obuf ∨ bufferSize s.params b ≤ addr) → hostWriteByte b addr v s = s)

/-- R99: the ldin pseudo-instruction, run on an idle block, leaves its bytes as the input of the next operation. -/
def Obligations.LdinLoadsTheInput : Prop :=
  ∀ (s : State) (bytes : Bytes), s.status.busy = false → bytes.length ≤ s.params.ibufBytes → bytes.length < 2 ^ 32 →
    s.agenda = hostTurns (pseudoLdin bytes) →
    ∃ t, Sys2Proof.core.run (bytes.length + 1) s = .next t ∧ InputIs bytes t ∧ t.agenda = [] ∧
      t.status = s.status ∧ t.results = s.results ∧ SameBytes .fwbuf s t ∧ SameBytes .obuf s t

/-! Reset, life cycle, invariants -/

/-- R270, R271, R272: a reset gives every register its reset value, an operation in flight or not, and every buffer byte
stays. -/
def Obligations.ResetSetsTheRegisters : Prop :=
  ∀ (s : State) (rest : List Turn), s.agenda = .reset :: rest →
    ∃ t, step s = .next t ∧ t.agenda = rest ∧ t.params = s.params ∧ (∀ b, SameBytes b s t) ∧
      ∀ r : Reg, regValue r t =
        (if r = .vendor ∨ r = .expect then 0x0000001D else if r = .maxPkt then 0x000000FA else 0)

/-- R270, R273: the machine right after reset has the registers of the reset table, no operation in flight. -/
def Obligations.PowerOnRegisters : Prop :=
  ∀ r : Reg, regValue r State.reset =
    (if r = .vendor ∨ r = .expect then 0x0000001D else if r = .maxPkt then 0x000000FA else 0)

/-- The invariant holds right after power-on in every configuration. -/
def Obligations.InvariantHoldsAtReset : Prop := (∀ p : Params, BlockInv (State.powerOn p)) ∧ BlockInv State.reset

/-- Every step keeps the invariant: buffers in canonical form inside their sizes (R47, R218), STATUS legal (R23, R240,
R241), RES_FIELDS those of RES_DESC (R38), OUT_LEN 0 after a failure (R36), RES_CURSOR inside FWBUF (R42). -/
def Obligations.StepKeepsTheInvariant : Prop := ∀ s t : State, BlockInv s → step s = .next t → BlockInv t

/-- No step stops (DEDUCED from R249, notes/assumptions/14.md), and none changes the configuration: that the parameters of R1
stand in the state, where R20 calls them no state, and that no step changes them is the MODEL'S CHOICE
(notes/assumptions/7.md). -/
def Obligations.EveryStepGoesOn : Prop := ∀ s : State, ∃ t, step s = .next t ∧ t.params = s.params

/-- R282: an operation in flight is over after finitely many steps, at most one more than the turns that are pending. -/
def Obligations.OperationsTerminate : Prop :=
  ∀ s : State, s.status.busy = true →
    ∃ k t, 1 ≤ k ∧ k ≤ s.agenda.length + 1 ∧ Sys2Proof.core.run k s = .next t ∧ t.status.busy = false

/-- R275, R45: whatever the host does and however long it takes until the completion step, the block ends as if it had
completed at once. MODEL'S CHOICE (notes/assumptions/5.md): that waiting and host accesses stand in an agenda, and that an
empty one gives the sequencer the turn. -/
def Obligations.OutcomeDoesNotDependOnLatency : Prop :=
  ∀ (s : State) (waits : List Turn), s.status.busy = true → (∀ x ∈ waits, x = .idle ∨ ∃ a, x = .host a) →
    ∃ t u, Sys2Proof.core.run (waits.length + 1) { s with agenda := waits ++ [.sequencer] } = .next t ∧
      step { s with agenda := [] } = .next u ∧ SameBlock u t

/-- R2, R1: a configuration that violates R1 is refused by name, and one that meets it is taken with its sizes. -/
def Obligations.NonconformingConfigurationsAreRefused : Prop :=
  ∀ c : RawParams,
    (¬(65545 ≤ c.ibufBytes ∧ c.fwMaxBytes ≤ 2 ^ 31 - 1 ∧
      max (c.ibufBytes + 4) (max (14 * c.fwMaxBytes) 65545) ≤ c.obufBytes) →
      configure c = .error .nonconformingConfiguration) ∧
      (65545 ≤ c.ibufBytes ∧ c.fwMaxBytes ≤ 2 ^ 31 - 1 ∧
        max (c.ibufBytes + 4) (max (14 * c.fwMaxBytes) 65545) ≤ c.obufBytes →
        ∃ p, configure c = .ok p ∧ p.ibufBytes = c.ibufBytes ∧ p.fwMaxBytes = c.fwMaxBytes ∧
          p.obufBytes = c.obufBytes ∧ p.peerWordSigned = c.peerWordSigned)

/-! Register words, the split of an output -/

/-- R22 to R43, R61, R44: at each of its four byte offsets every register reads as its fields at their places, reserved bits
0. -/
def Obligations.RegistersReadAsTheirFields : Prop :=
  ∀ (s : State) (low : BitVec 8), low.toNat < 4 →
    (hostReadReg (0x00 + low) s).toNat = s.operands.op.toNat ∧
      hostReadReg (0x04 + low) s = hostReadReg 0x04 s ∧
      (hostReadReg (0x08 + low) s).toNat =
        s.operands.version.toNat + 256 * (if s.operands.useChecksum then 1 else 0) ∧
      (hostReadReg (0x0C + low) s).toNat = s.operands.vendorId.toNat ∧
      (hostReadReg (0x10 + low) s).toNat = s.operands.expectedVendor.toNat ∧
      (hostReadReg (0x14 + low) s).toNat =
        s.operands.featureIn.toNat + 256 * s.operands.typeIn.toNat + 65536 * s.operands.commandIn.toNat ∧
      (hostReadReg (0x18 + low) s).toNat = s.operands.descIn.toNat ∧
      hostReadReg (0x1C + low) s = s.operands.inLen ∧
      (hostReadReg (0x20 + low) s).toNat = s.operands.upgOpcode.toNat ∧
      hostReadReg (0x24 + low) s = s.operands.fwLen ∧
      hostReadReg (0x28 + low) s = s.operands.cursorIn ∧
      hostReadReg (0x2C + low) s = s.operands.requestedIn ∧
      hostReadReg (0x30 + low) s = s.operands.rewindIn ∧
      hostReadReg (0x34 + low) s = s.operands.maxPerPacket ∧
      hostReadReg (0x40 + low) s = s.results.outLen ∧
      (hostReadReg (0x44 + low) s).toNat = s.results.desc.toNat ∧
      hostReadReg (0x48 + low) s = hostReadReg 0x48 s ∧
      (hostReadReg (0x4C + low) s).toNat = s.results.upgOpcode.toNat ∧
      hostReadReg (0x50 + low) s = s.results.requested ∧
      hostReadReg (0x54 + low) s = s.results.moveBy ∧
      hostReadReg (0x58 + low) s = s.results.cursor ∧
      hostReadReg (0x5C + low) s = s.results.frames

/-- R220 property 6, R88: a byte sequence is a run of recognizable frames in at most one way, so the output of the segmenter
splits uniquely. -/
def Obligations.RunsOfFramesSplitUniquely : Prop :=
  ∀ (vendor : BitVec 16) (frames frames' : List Bytes), (∀ f ∈ frames, ∃ r, decFrame f vendor = .ok r) →
    (∀ f ∈ frames', ∃ r, decFrame f vendor = .ok r) → frames.flatten = frames'.flatten → frames = frames'

/-- R67, R69: a host write whose turn comes is performed by the step, as the register and byte writes above say. MODEL'S
CHOICE: the agenda (notes/assumptions/5.md). -/
def Obligations.StepPerformsHostWrites : Prop :=
  ∀ (s : State) (rest : List Turn),
    (∀ offset w, s.agenda = .host (.writeReg offset w) :: rest →
      step s = .next (hostWriteReg offset w { s with agenda := rest })) ∧
      ∀ b addr v, s.agenda = .host (.writeByte b addr v) :: rest →
        step s = .next (hostWriteByte b addr v { s with agenda := rest })
end

