-- ==== Sys2Proof/Laws/State.lean ====
section
/-! SUPPORT. The fields of the state after each named update. -/

namespace Sys2Proof.Machine

section StartOp
variable (op : BitVec 4) (s : State)
@[simp] theorem startOp_operands : (startOp op s).operands = { s.operands with op := op } := rfl
@[simp] theorem startOp_status : (startOp op s).status = statusStarted := rfl
@[simp] theorem startOp_results : (startOp op s).results = s.results := rfl
@[simp] theorem startOp_ibuf : (startOp op s).ibuf = s.ibuf := rfl
@[simp] theorem startOp_fwbuf : (startOp op s).fwbuf = s.fwbuf := rfl
@[simp] theorem startOp_obuf : (startOp op s).obuf = s.obuf := rfl
@[simp] theorem startOp_params : (startOp op s).params = s.params := rfl
@[simp] theorem startOp_agenda : (startOp op s).agenda = s.agenda := rfl
@[simp] theorem startOp_answers : (startOp op s).answers = s.answers := rfl
end StartOp

section ApplyReset
variable (s : State)
@[simp] theorem applyReset_operands : (applyReset s).operands = .atReset := rfl
@[simp] theorem applyReset_status : (applyReset s).status = .atReset := rfl
@[simp] theorem applyReset_results : (applyReset s).results = .atReset := rfl
@[simp] theorem applyReset_ibuf : (applyReset s).ibuf = s.ibuf := rfl
@[simp] theorem applyReset_fwbuf : (applyReset s).fwbuf = s.fwbuf := rfl
@[simp] theorem applyReset_obuf : (applyReset s).obuf = s.obuf := rfl
@[simp] theorem applyReset_params : (applyReset s).params = s.params := rfl
@[simp] theorem applyReset_agenda : (applyReset s).agenda = s.agenda := rfl
@[simp] theorem applyReset_answers : (applyReset s).answers = s.answers := rfl
end ApplyReset

section CompleteOk
variable (c : Commit) (s : State)
@[simp] theorem completeOk_operands : (completeOk c s).operands = s.operands := rfl
@[simp] theorem completeOk_status : (completeOk c s).status = statusOk := rfl
@[simp] theorem completeOk_results : (completeOk c s).results = committedResults c s.results := rfl
@[simp] theorem completeOk_ibuf : (completeOk c s).ibuf = s.ibuf := rfl
@[simp] theorem completeOk_fwbuf : (completeOk c s).fwbuf = s.fwbuf := rfl
@[simp] theorem completeOk_obuf : (completeOk c s).obuf = writeCells 0 c.bytes s.obuf := rfl
@[simp] theorem completeOk_params : (completeOk c s).params = s.params := rfl
@[simp] theorem completeOk_agenda : (completeOk c s).agenda = s.agenda := rfl
@[simp] theorem completeOk_answers : (completeOk c s).answers = s.answers := rfl
end CompleteOk

section CompleteNotRecognized
variable (s : State)
@[simp] theorem completeNotRecognized_operands : (completeNotRecognized s).operands = s.operands := rfl
@[simp] theorem completeNotRecognized_status : (completeNotRecognized s).status = statusNotRecognized := rfl
@[simp] theorem completeNotRecognized_results :
    (completeNotRecognized s).results = { s.results with outLen := 0 } := rfl
@[simp] theorem completeNotRecognized_ibuf : (completeNotRecognized s).ibuf = s.ibuf := rfl
@[simp] theorem completeNotRecognized_fwbuf : (completeNotRecognized s).fwbuf = s.fwbuf := rfl
@[simp] theorem completeNotRecognized_obuf : (completeNotRecognized s).obuf = s.obuf := rfl
@[simp] theorem completeNotRecognized_params : (completeNotRecognized s).params = s.params := rfl
@[simp] theorem completeNotRecognized_agenda : (completeNotRecognized s).agenda = s.agenda := rfl
@[simp] theorem completeNotRecognized_answers : (completeNotRecognized s).answers = s.answers := rfl
end CompleteNotRecognized

section RaiseContractError
variable (e : ErrCode) (s : State)
@[simp] theorem raiseContractError_operands : (raiseContractError e s).operands = s.operands := rfl
@[simp] theorem raiseContractError_status : (raiseContractError e s).status = statusContractError e := rfl
@[simp] theorem raiseContractError_results :
    (raiseContractError e s).results = { s.results with outLen := 0 } := rfl
@[simp] theorem raiseContractError_ibuf : (raiseContractError e s).ibuf = s.ibuf := rfl
@[simp] theorem raiseContractError_fwbuf : (raiseContractError e s).fwbuf = s.fwbuf := rfl
@[simp] theorem raiseContractError_obuf : (raiseContractError e s).obuf = s.obuf := rfl
@[simp] theorem raiseContractError_params : (raiseContractError e s).params = s.params := rfl
@[simp] theorem raiseContractError_agenda : (raiseContractError e s).agenda = s.agenda := rfl
@[simp] theorem raiseContractError_answers : (raiseContractError e s).answers = s.answers := rfl
end RaiseContractError

section WithCells
variable (b : Buf) (m : Memory) (s : State)
@[simp] theorem withCells_operands : (withCells b m s).operands = s.operands := by cases b <;> rfl
@[simp] theorem withCells_status : (withCells b m s).status = s.status := by cases b <;> rfl
@[simp] theorem withCells_results : (withCells b m s).results = s.results := by cases b <;> rfl
@[simp] theorem withCells_params : (withCells b m s).params = s.params := by cases b <;> rfl
@[simp] theorem withCells_agenda : (withCells b m s).agenda = s.agenda := by cases b <;> rfl
@[simp] theorem withCells_answers : (withCells b m s).answers = s.answers := by cases b <;> rfl
@[simp] theorem cellsOf_withCells : cellsOf b (withCells b m s) = m := by cases b <;> rfl
theorem cellsOf_withCells_other {b' : Buf} (h : b' ≠ b) : cellsOf b' (withCells b m s) = cellsOf b' s := by
  cases b <;> cases b' <;> first | rfl | exact absurd rfl h
end WithCells

section CellsOf
variable (s : State)
@[simp] theorem cellsOf_ibuf : cellsOf .ibuf s = s.ibuf := rfl
@[simp] theorem cellsOf_fwbuf : cellsOf .fwbuf s = s.fwbuf := rfl
@[simp] theorem cellsOf_obuf : cellsOf .obuf s = s.obuf := rfl
end CellsOf

section PowerOn
variable (p : Params)
@[simp] theorem powerOn_operands : (State.powerOn p).operands = .atReset := rfl
@[simp] theorem powerOn_status : (State.powerOn p).status = .atReset := rfl
@[simp] theorem powerOn_results : (State.powerOn p).results = .atReset := rfl
@[simp] theorem powerOn_ibuf : (State.powerOn p).ibuf = [] := rfl
@[simp] theorem powerOn_fwbuf : (State.powerOn p).fwbuf = [] := rfl
@[simp] theorem powerOn_obuf : (State.powerOn p).obuf = [] := rfl
@[simp] theorem powerOn_params : (State.powerOn p).params = p := rfl
@[simp] theorem powerOn_agenda : (State.powerOn p).agenda = [] := rfl
@[simp] theorem powerOn_answers : (State.powerOn p).answers = [] := rfl
end PowerOn

end Sys2Proof.Machine
end

