-- ==== Sys2Proof/Laws/Memory.lean ====
section
/-! SUPPORT. Reading after writing, and the canonical form of the buffers. -/

namespace Sys2Proof.Machine

theorem cellAt_append (m m' : Memory) (a : Nat) : cellAt (m ++ m') a = (cellAt m a).or (cellAt m' a) := by
  induction m with
  | nil => simp [cellAt]
  | cons c m ih =>
    obtain ⟨b, v⟩ := c
    by_cases h : b = a <;> simp [cellAt, h, ih]

theorem cellAt_cellsFrom (a : Nat) (vs : Bytes) (x : Nat) :
    cellAt (cellsFrom a vs) x = if a ≤ x then vs[x - a]? else none := by
  induction vs generalizing a with
  | nil => simp [cellsFrom, cellAt]
  | cons v vs ih =>
    simp only [cellsFrom, cellAt, ih]
    by_cases h : a = x
    · simp [h]
    · by_cases hx : a ≤ x
      · obtain ⟨k, rfl⟩ : ∃ k, x = a + 1 + k := ⟨x - a - 1, by omega⟩
        have e : a + 1 + k - a = k + 1 := by omega
        simp [h, e]
        omega
      · simp [h, hx, show ¬a + 1 ≤ x by omega]

/-- A filter on addresses that keeps an address keeps what is read there. -/
theorem cellAt_filter (m : Memory) (p : Nat → Bool) (a : Nat) :
    cellAt (m.filter fun c => p c.1) a = if p a then cellAt m a else none := by
  induction m with
  | nil => simp [cellAt]
  | cons c m ih =>
    obtain ⟨b, v⟩ := c
    by_cases hb : p b <;> by_cases h : b = a
    · subst h; simp [cellAt, hb]
    · simp [cellAt, hb, h, ih]
    · subst h; simp [hb, ih]
    · simp [cellAt, hb, h, ih]

/-- Reading after a run of bytes is written: the run inside it, the old cells outside. -/
theorem cellAt_writeCells (a : Nat) (vs : Bytes) (m : Memory) (x : Nat) :
    cellAt (writeCells a vs m) x = if a ≤ x ∧ x < a + vs.length then vs[x - a]? else cellAt m x := by
  unfold writeCells
  rw [cellAt_append, cellAt_append, cellAt_cellsFrom,
    cellAt_filter m (fun y => decide (y < a)), cellAt_filter m (fun y => decide (a + vs.length ≤ y))]
  by_cases h1 : x < a
  · have : ¬a ≤ x := by omega
    have : ¬a + vs.length ≤ x := by omega
    simp [*]
  · by_cases h2 : x < a + vs.length
    · have : a ≤ x := by omega
      have : ¬a + vs.length ≤ x := by omega
      simp [*]
    · have h3 : a ≤ x := by omega
      have h4 : a + vs.length ≤ x := by omega
      have h5 : vs[x - a]? = none := List.getElem?_eq_none (by omega)
      simp [h1, h2, h3, h4, h5]

theorem bufferByte_memWrite (b : Buf) (a : Nat) (vs : Bytes) (s : State) (x : Nat) :
    bufferByte b x (memWrite b a vs s) =
      if h : a ≤ x ∧ x < a + vs.length then vs[x - a]'(by omega) else bufferByte b x s := by
  unfold bufferByte memWrite
  rw [cellsOf_withCells, cellAt_writeCells]
  by_cases h : a ≤ x ∧ x < a + vs.length
  · rw [if_pos h, dif_pos h, List.getElem?_eq_getElem (by omega)]
    rfl
  · rw [if_neg h, dif_neg h]

theorem bufferByte_memWrite_other {b b' : Buf} (h : b' ≠ b) (a : Nat) (vs : Bytes) (s : State) (x : Nat) :
    bufferByte b' x (memWrite b a vs s) = bufferByte b' x s := by
  unfold bufferByte memWrite
  rw [cellsOf_withCells_other _ _ _ h]

@[simp] theorem memRead_length (b : Buf) (a n : Nat) (s : State) : (memRead b a n s).length = n := by
  simp [memRead]

@[simp] theorem memRead_getElem (b : Buf) (a n : Nat) (s : State) (i : Nat) (h : i < (memRead b a n s).length) :
    (memRead b a n s)[i] = bufferByte b (a + i) s := by
  simp [memRead]

theorem cellsFrom_addr {a : Nat} {vs : Bytes} {c : Host.Cell} (h : c ∈ cellsFrom a vs) :
    a ≤ c.1 ∧ c.1 < a + vs.length := by
  induction vs generalizing a with
  | nil => simp [cellsFrom] at h
  | cons v vs ih =>
    simp only [cellsFrom, List.mem_cons] at h
    rcases h with rfl | h
    · simp
    · have := ih h
      simp only [List.length_cons]
      omega

theorem cellsFrom_rising (a : Nat) (vs : Bytes) : (cellsFrom a vs).Pairwise fun x y => x.1 < y.1 := by
  induction vs generalizing a with
  | nil => simp [cellsFrom]
  | cons v vs ih =>
    refine List.pairwise_cons.2 ⟨fun c hc => ?_, ih (a + 1)⟩
    have := cellsFrom_addr hc
    show a < c.1
    omega

/-- Writing a run of bytes that ends inside the buffer keeps the canonical form. -/
theorem writeCells_wf {size a : Nat} {vs : Bytes} {m : Memory} (hm : Memory.wf size m) (h : a + vs.length ≤ size) :
    Memory.wf size (writeCells a vs m) := by
  obtain ⟨hr, hb⟩ := hm
  unfold writeCells
  refine ⟨?_, ?_⟩
  · rw [List.append_assoc, List.pairwise_append, List.pairwise_append]
    refine ⟨hr.filter _, ⟨cellsFrom_rising a vs, hr.filter _, ?_⟩, ?_⟩
    · intro x hx y hy
      have := cellsFrom_addr hx
      simp only [List.mem_filter, decide_eq_true_eq] at hy
      omega
    · intro x hx y hy
      simp only [List.mem_filter, decide_eq_true_eq] at hx
      simp only [List.mem_append, List.mem_filter, decide_eq_true_eq] at hy
      rcases hy with hy | hy
      · have := cellsFrom_addr hy
        omega
      · omega
  · intro c hc
    simp only [List.mem_append, List.mem_filter] at hc
    rcases hc with (hc | hc) | hc
    · exact hb c hc.1
    · have := cellsFrom_addr hc
      omega
    · exact hb c hc.1

theorem empty_wf (size : Nat) : Memory.wf size [] := by simp [Memory.wf]

/-- The machine after reset has its buffers in canonical form. -/
theorem reset_buffers_wf (b : Buf) : Memory.wf (bufferSize State.reset.params b) (cellsOf b State.reset) := by
  cases b <;> exact empty_wf _

/-- No buffer is smaller than its least size (R1). -/
theorem leastSize_le (p : Params) (b : Buf) : leastSize b ≤ bufferSize p b := by
  cases b <;> simp only [leastSize, bufferSize, Params.ibufBytes, Params.obufBytes, leastObufBytes] <;> omega

theorem inBuffer_iff (p : Params) (b : Buf) (a : Nat) : inBuffer p b a = true ↔ a < bufferSize p b := by
  have := leastSize_le p b
  rw [inBuffer, Bool.or_eq_true, decide_eq_true_iff, decide_eq_true_iff]
  omega

theorem holds_iff (p : Params) (b : Buf) (n : Nat) : holds p b n = true ↔ n ≤ bufferSize p b := by
  have := leastSize_le p b
  rw [holds, Bool.or_eq_true, decide_eq_true_iff, decide_eq_true_iff]
  omega

end Sys2Proof.Machine
end

