-- ==== Sys2Proof/Laws/Complete.lean ====
section
/-! SUPPORT. What a completion can do, said once: the frame, the three result classes, that every instruction is a
completion, the inversion of a step. -/

namespace Sys2Proof.Machine

theorem outLenWord_toNat {n : Nat} (h : n < 2 ^ 32) : (outLenWord n).toNat = n := by
  unfold outLenWord
  rw [if_pos h, BitVec.toNat_ofNat, Nat.mod_eq_of_lt h]

theorem committedResults_outLen (c : Commit) (r : ResultRegs) :
    (committedResults c r).outLen = outLenWord c.bytes.length := by
  unfold committedResults withProgress withDataRequest withUpgOpcode withDesc
  cases c.progress <;> cases c.dataRequest <;> cases c.upgOpcode <;> cases c.desc <;> rfl

/-- No completion changes an operand register, a byte of IBUF or FWBUF, the configuration or what is outside the block. -/
theorem completeWith_keepsInputs (r : Result Commit) (s : State) : KeepsInputs s (completeWith r s) := by
  cases r <;> exact ⟨rfl, fun _ => rfl, fun _ => rfl, rfl, rfl, rfl⟩

/-- Every byte of OBUF after an OK completion. -/
theorem completeOk_obufByte (c : Commit) (s : State) (a : Nat) :
    bufferByte .obuf a (completeOk c s) =
      if h : a < c.bytes.length then c.bytes[a] else bufferByte .obuf a s := by
  have h := bufferByte_memWrite .obuf 0 c.bytes s a
  have e : bufferByte .obuf a (completeOk c s) = bufferByte .obuf a (memWrite .obuf 0 c.bytes s) := rfl
  simpa [e] using h

/-- All that an OK completion does. -/
theorem completeOk_completes (c : Commit) (s : State) :
    CompletesOk c.bytes (committedResults c s.results) s (completeOk c s) := by
  refine ⟨completeWith_keepsInputs (.ok c) s, ⟨fun a h => ?_, fun a h => ?_⟩, rfl, rfl, fun h => ?_⟩
  · rw [completeOk_obufByte, dif_pos h]
  · rw [completeOk_obufByte, dif_neg (by omega)]
  · rw [completeOk_results, committedResults_outLen, outLenWord_toNat h]

/-- All that a NOT_RECOGNIZED completion does. -/
theorem completeNotRecognized_completes (s : State) : CompletesEmpty 1 0 s (completeNotRecognized s) :=
  ⟨completeWith_keepsInputs .notRecognized s, fun _ => rfl, rfl, rfl⟩

/-- All that a contract error does. -/
theorem raiseContractError_completes (e : ErrCode) (s : State) :
    CompletesEmpty 2 (errCodeBits e) s (raiseContractError e s) :=
  ⟨completeWith_keepsInputs (.contractError e) s, fun _ => rfl, rfl, rfl⟩

/-- The result with which an instruction completes. -/
def resultOf (i : Instr) (s : State) : Result Commit :=
  match i with
  | .packHdr => packHdrResult s
  | .unpackHdr => unpackHdrResult s
  | .encPdu => encPduResult s
  | .encFrame => encFrameResult s
  | .decFrame => decFrameResult s
  | .encUpg => encUpgResult s
  | .decUpg => decUpgResult s
  | .recAppver => recAppverResult s
  | .recDatareq => recDatareqResult s
  | .segment => segmentResult s
  | .reservedOp0 => reservedResult
  | .reservedOpB => reservedResult
  | .reservedOpC => reservedResult
  | .reservedOpD => reservedResult
  | .reservedOpE => reservedResult
  | .reservedOpF => reservedResult
  | .appverRsp => recAppverResult s
  | .dataBytesReqNtf => recDatareqResult s
  | .upgDataBytesReq => recDatareqResult s
  | .upgDataCmd => segmentResult s
  | .upgData _ => segmentResult s

/-- Every instruction completes with its result. -/
theorem exec_eq_completeWith (i : Instr) (s : State) : exec i s = .next (completeWith (resultOf i s) s) := by
  cases i <;> rfl

theorem sequencerTurn_busy {s : State} (h : s.status.busy = true) : sequencerTurn s = exec (fetch s) s := by
  simp [sequencerTurn, h]

theorem sequencerTurn_idle {s : State} (h : s.status.busy = false) : sequencerTurn s = .next s := by
  simp [sequencerTurn, h]

/-- What the sequencer's turn can do. -/
theorem sequencerTurn_cases {s t : State} (h : sequencerTurn s = .next t) :
    (s.status.busy = false ∧ t = s) ∨
      (s.status.busy = true ∧ t = completeWith (resultOf (fetch s) s) s) := by
  cases hb : s.status.busy with
  | false =>
    rw [sequencerTurn_idle hb] at h
    injection h with h
    exact .inl ⟨rfl, h.symm⟩
  | true =>
    rw [sequencerTurn_busy hb, exec_eq_completeWith] at h
    injection h with h
    exact .inr ⟨rfl, h.symm⟩

/-- The state in which a turn is taken: the agenda without it. -/
def withAgenda (rest : List Turn) (s : State) : State := { s with agenda := rest }

/-- All that one step can do. -/
theorem step_cases {s t : State} (h : step s = .next t) :
    (s.agenda = [] ∧ sequencerTurn s = .next t) ∨
      (∃ rest, s.agenda = .sequencer :: rest ∧ sequencerTurn (withAgenda rest s) = .next t) ∨
      (∃ a rest, s.agenda = .host a :: rest ∧ t = hostAccess a (withAgenda rest s)) ∨
      (∃ rest, s.agenda = .idle :: rest ∧ t = withAgenda rest s) ∨
      (∃ rest, s.agenda = .reset :: rest ∧ t = applyReset (withAgenda rest s)) := by
  unfold step at h
  split at h
  · exact .inl ⟨‹_›, h⟩
  · exact .inr (.inl ⟨_, ‹_›, h⟩)
  · injection h with h; exact .inr (.inr (.inl ⟨_, _, ‹_›, h.symm⟩))
  · injection h with h; exact .inr (.inr (.inr (.inl ⟨_, ‹_›, h.symm⟩)))
  · injection h with h; exact .inr (.inr (.inr (.inr ⟨_, ‹_›, h.symm⟩)))

/-- What a host access can do to the block. -/
theorem hostAccess_cases (a : Access) (s : State) :
    hostAccess a s = s ∨
      (∃ w, hostAccess a s = { s with answers := w :: s.answers }) ∨
      (s.status.busy = false ∧ ∃ op, hostAccess a s = startOp op s) ∨
      (s.status.busy = false ∧ ∃ r w, r ≠ .cmd ∧
        hostAccess a s = { s with operands := withRegWritten r w s.operands }) ∨
      (s.status.busy = false ∧ ∃ b addr v, b ≠ .obuf ∧ addr < bufferSize s.params b ∧
        hostAccess a s = memWrite b addr [v] s) := by
  cases a with
  | readReg offset => exact .inr (.inl ⟨_, rfl⟩)
  | readByte b addr => exact .inr (.inl ⟨_, rfl⟩)
  | writeReg offset w =>
    simp only [hostAccess, hostWriteReg]
    cases hb : s.status.busy with
    | true => exact .inl (by simp)
    | false =>
      cases hr : regAt offset with
      | none => exact .inl (by simp)
      | some r =>
        by_cases hc : r = .cmd
        · exact .inr (.inr (.inl ⟨rfl, _, by simp [writeIdleReg, hc]; rfl⟩))
        · exact .inr (.inr (.inr (.inl ⟨rfl, r, w, hc, by simp [writeIdleReg, hc]⟩)))
  | writeByte b addr v =>
    simp only [hostAccess, hostWriteByte]
    cases hb : s.status.busy with
    | true => exact .inl (by simp)
    | false =>
      by_cases ho : b = .obuf
      · exact .inl (by simp [ho])
      · cases hi : inBuffer s.params b addr with
        | false => exact .inl (by simp)
        | true => exact .inr (.inr (.inr (.inr ⟨rfl, b, addr, v, ho, (inBuffer_iff _ _ _).1 hi, by simp [ho]⟩)))

/-- The input of a state whose IN_LEN fits IBUF is what the sequencer reads (R29). -/
theorem inputIs_memRead {s : State} (h : s.operands.inLen.toNat ≤ s.params.ibufBytes) :
    InputIs (memRead .ibuf 0 s.operands.inLen.toNat s) s :=
  ⟨(memRead_length ..).symm, by rw [memRead_length]; exact h, fun i hi => by rw [memRead_getElem, Nat.zero_add]⟩

/-- A state has at most one input. -/
theorem inputIs_eq {p : Bytes} {s : State} (h : InputIs p s) : p = memRead .ibuf 0 s.operands.inLen.toNat s := by
  obtain ⟨hl, -, hb⟩ := h
  refine List.ext_getElem (by rw [memRead_length, hl]) fun i h1 h2 => ?_
  rw [memRead_getElem, Nat.zero_add, hb i h1]

/-- The firmware of a state whose FW_LEN fits FWBUF is what the sequencer reads (R31). -/
theorem firmwareIs_memRead {s : State} (h : s.operands.fwLen.toNat ≤ s.params.fwMaxBytes) :
    FirmwareIs (memRead .fwbuf 0 s.operands.fwLen.toNat s) s :=
  ⟨(memRead_length ..).symm, by rw [memRead_length]; exact h, fun i hi => by rw [memRead_getElem, Nat.zero_add]⟩

/-- A state has at most one firmware. -/
theorem firmwareIs_eq {fw : Bytes} {s : State} (h : FirmwareIs fw s) :
    fw = memRead .fwbuf 0 s.operands.fwLen.toNat s := by
  obtain ⟨hl, -, hb⟩ := h
  refine List.ext_getElem (by rw [memRead_length, hl]) fun i h1 h2 => ?_
  rw [memRead_getElem, Nat.zero_add, hb i h1]

/-- What the operand form of IBUF answers (R29, R242). -/
theorem ibufInput_ok {p : Bytes} {s : State} (h : InputIs p s) : ibufInput s = .ok p := by
  have hl : s.operands.inLen.toNat ≤ bufferSize s.params .ibuf := by
    have := h.1; have := h.2.1; show _ ≤ s.params.ibufBytes; omega
  rw [ibufInput, if_pos ((holds_iff ..).2 hl), inputIs_eq h]

theorem ibufInput_range {s : State} (h : s.params.ibufBytes < s.operands.inLen.toNat) :
    ibufInput s = .contractError .inLenRange := by
  rw [ibufInput, if_neg]
  rw [holds_iff]
  show ¬_ ≤ s.params.ibufBytes
  omega

/-- What the operand form of FWBUF answers (R31, R242). -/
theorem firmwareInput_ok {fw : Bytes} {s : State} (h : FirmwareIs fw s) : firmwareInput s = .ok fw := by
  have hl : s.operands.fwLen.toNat ≤ bufferSize s.params .fwbuf := by
    have := h.1; have := h.2.1; show _ ≤ s.params.fwMaxBytes; omega
  rw [firmwareInput, if_pos ((holds_iff ..).2 hl), firmwareIs_eq h]

theorem firmwareInput_range {s : State} (h : s.params.fwMaxBytes < s.operands.fwLen.toNat) :
    firmwareInput s = .contractError .fwLenRange := by
  rw [firmwareInput, if_neg]
  rw [holds_iff]
  show ¬_ ≤ s.params.fwMaxBytes
  omega

end Sys2Proof.Machine
end

