-- ==== Sys2Proof/Laws/PerInstr.lean ====
section
/-! SUPPORT. For each instruction: the decoder reads its encoding back. -/

namespace Sys2Proof.Laws.Codec

/-- The value that the row of an instruction matches decodes to the instruction (R90, R91, R92, R95, R96). -/
def Statement (i : Instr) : Prop := decode (encode i) = .ok i

theorem packHdr : Statement .packHdr := rfl
theorem unpackHdr : Statement .unpackHdr := rfl
theorem encPdu : Statement .encPdu := rfl
theorem encFrame : Statement .encFrame := rfl
theorem decFrame : Statement .decFrame := rfl
theorem encUpg : Statement .encUpg := rfl
theorem decUpg : Statement .decUpg := rfl
theorem recAppver : Statement .recAppver := rfl
theorem recDatareq : Statement .recDatareq := rfl
theorem segment : Statement .segment := rfl
theorem reservedOp0 : Statement .reservedOp0 := rfl
theorem reservedOpB : Statement .reservedOpB := rfl
theorem reservedOpC : Statement .reservedOpC := rfl
theorem reservedOpD : Statement .reservedOpD := rfl
theorem reservedOpE : Statement .reservedOpE := rfl
theorem reservedOpF : Statement .reservedOpF := rfl
theorem appverRsp : Statement .appverRsp := rfl
theorem dataBytesReqNtf : Statement .dataBytesReqNtf := rfl
theorem upgDataBytesReq : Statement .upgDataBytesReq := rfl
theorem upgDataCmd : Statement .upgDataCmd := rfl

theorem upgData (contentLength : BitVec 16) : Statement (.upgData contentLength) := by
  have opcode : (0x04#8 ++ contentLength).extractLsb' 16 8 = 0x04#8 := by
    apply BitVec.eq_of_getLsbD_eq
    intro k hk
    simp only [BitVec.getLsbD_extractLsb', BitVec.getLsbD_append]
    simp [hk]
  have length : (0x04#8 ++ contentLength).extractLsb' 0 16 = contentLength := by
    apply BitVec.eq_of_getLsbD_eq
    intro k hk
    simp only [BitVec.getLsbD_extractLsb', BitVec.getLsbD_append]
    simp [hk]
  have request : (0x04#8 ++ contentLength) ≠ 0x030008#24 := by
    intro h
    rw [h] at opcode
    exact absurd opcode (by decide)
  show decodeUpgHeader (0x04#8 ++ contentLength) = _
  unfold decodeUpgHeader
  rw [if_neg request, if_pos opcode, length]

end Sys2Proof.Laws.Codec
end

