-- ==== Sys2Proof/Laws/Program.lean ====
section
/-! SUPPORT. The written form of an access loses nothing of its numbers. -/

namespace Sys2Proof.Machine

/-- The number that a hexadecimal digit stands for. -/
def digitValue (c : Char) : Nat := if c.toNat < 58 then c.toNat - 48 else c.toNat - 55

/-- The number that digits stand for, most significant first. -/
def digitsValue (cs : List Char) : Nat := cs.foldl (fun acc c => 16 * acc + digitValue c) 0

theorem digitValue_hexDigit {d : Nat} (h : d < 16) : digitValue (hexDigit d) = d := by
  interval_cases d <;> decide

theorem hexDigits_length (digits n : Nat) : (hexDigits digits n).length = digits := by
  induction digits generalizing n with
  | zero => rfl
  | succ digits ih => simp [hexDigits, ih]

/-- Digits that hold a number read back as it. -/
theorem digitsValue_hexDigits {digits n : Nat} (h : n < 16 ^ digits) : digitsValue (hexDigits digits n) = n := by
  induction digits generalizing n with
  | zero => simp at h; simp [hexDigits, digitsValue, h]
  | succ digits ih =>
    have hd : n / 16 < 16 ^ digits := by
      rw [Nat.div_lt_iff_lt_mul (by decide)]
      rwa [Nat.pow_succ] at h
    have e : digitsValue (hexDigits (digits + 1) n) =
        16 * digitsValue (hexDigits digits (n / 16)) + digitValue (hexDigit (n % 16)) := by
      simp [digitsValue, hexDigits]
    rw [e, ih hd, digitValue_hexDigit (Nat.mod_lt _ (by decide))]
    omega

/-- The digits of a buffer address hold it, however large it is. -/
theorem lt_addrDigits (n : Nat) : n < 16 ^ addrDigits n := by
  have h1 : n < 2 ^ (n.log2 + 1) := Nat.lt_log2_self
  have h2 : n.log2 + 1 ≤ 4 * addrDigits n := by
    unfold addrDigits
    omega
  calc n < 2 ^ (n.log2 + 1) := h1
    _ ≤ 2 ^ (4 * addrDigits n) := Nat.pow_le_pow_right (by decide) h2
    _ = 16 ^ addrDigits n := by rw [Nat.pow_mul]

/-- A written buffer address reads back as the address, so two accesses to different addresses are written differently. -/
theorem digitsValue_address (n : Nat) : digitsValue (hexDigits (addrDigits n) n) = n :=
  digitsValue_hexDigits (lt_addrDigits n)

end Sys2Proof.Machine
end

