-- ==== Sys2Proof/Laws/Wire.lean ====
section
/-! SUPPORT. The byte helpers: lengths, reading back what was written, slices, the checksum of a sequence with a byte added,
the two readings of a peer word. -/

namespace Sys2Proof.Machine

@[simp] theorem be16_length (v : BitVec 16) : (be16 v).length = 2 := rfl
@[simp] theorem be24_length (v : BitVec 24) : (be24 v).length = 3 := rfl
@[simp] theorem be32_length (v : BitVec 32) : (be32 v).length = 4 := rfl

theorem byteAt_eq_getElem {s : Bytes} {i : Nat} (h : i < s.length) : byteAt s i = s[i] := by
  simp [byteAt, h]

theorem byteAt_append_left {s t : Bytes} {i : Nat} (h : i < s.length) : byteAt (s ++ t) i = byteAt s i := by
  rw [byteAt_eq_getElem h, byteAt_eq_getElem (by simp; omega), List.getElem_append_left h]

theorem byteAt_append_right (s t : Bytes) (i : Nat) : byteAt (s ++ t) (s.length + i) = byteAt t i := by
  simp only [byteAt, List.getD_eq_getElem?_getD]
  rw [List.getElem?_append_right (Nat.le_add_right _ _), Nat.add_sub_cancel_left]

/-- The halves of a 16-bit value make it again. -/
theorem halves16 (v : BitVec 16) : (v.extractLsb' 8 8 ++ v.extractLsb' 0 8 : BitVec 16) = v := by
  apply BitVec.eq_of_getLsbD_eq
  intro i hi
  simp only [BitVec.getLsbD_append, BitVec.getLsbD_extractLsb']
  by_cases h : i < 8
  · simp [h]
  · simp [h, show i - 8 < 8 by omega, show 8 + (i - 8) = i by omega]

/-- rd16 reads back be16 (R6). -/
theorem rd16_be16 (v : BitVec 16) (rest : Bytes) : rd16 (be16 v ++ rest) 0 = v := halves16 v

theorem slice_length (s : Bytes) (a b : Nat) : (slice s a b).length = min (b - a) (s.length - a) := by
  simp [slice]

/-- xorsum(s ‖ [b]) = xorsum(s) ^ b (R7). -/
theorem xorsum_append_singleton (s : Bytes) (b : Byte) : xorsum (s ++ [b]) = xorsum s ^^^ b := by
  simp [xorsum]

/-- A 32-bit pattern with its top bit clear reads the same signed and unsigned. -/
theorem sext_eq_zext {v : Word} (h : v.getLsbD 31 = false) : sext v = zext v := by
  rw [sext, zext, h, if_neg (by simp)]

/-- The reading of a peer word in the spec's own words (R33, R34). -/
theorem peerWord_eq (p : Params) (v : Word) : peerWord p v = if p.peerWordSigned then sext v else zext v := by
  unfold peerWord
  cases hv : v.getLsbD 31 with
  | false => cases p.peerWordSigned <;> simp [sext_eq_zext hv]
  | true => cases p.peerWordSigned <;> rfl

theorem encPdu_length (v : BitVec 16) (f t c : Nat) (p : Bytes) : (encPdu v f t c p).length = 4 + p.length := by
  simp [encPdu]
  omega

theorem frameBody_length (v : BitVec 16) (f t c : Nat) (p : Bytes) (ver : Byte) (chk : Bool) :
    (frameBody v f t c p ver chk).length = (if usesExtension ver p.length then 5 else 4) + 4 + p.length := by
  cases h : usesExtension ver p.length <;> simp [frameBody, lengthField, encPdu_length, h] <;> omega

/-- The length of the frame that is built (R146). -/
theorem frameBytes_length (v : BitVec 16) (f t c : Nat) (p : Bytes) (ver : Byte) (chk : Bool) :
    (frameBytes v f t c p ver chk).length =
      (if usesExtension ver p.length then 5 else 4) + 4 + p.length + (if chk then 1 else 0) := by
  cases chk <;> simp [frameBytes, frameBody_length]

/-- What encFrame answers when it answers a frame. -/
theorem encFrame_ok {v : BitVec 16} {f t c : Nat} {p : Bytes} {ver : Byte} {chk : Bool} {fr : Bytes}
    (h : encFrame v f t c p ver chk = .ok fr) :
    3 ≤ ver.toNat ∧ (ver.toNat = 3 → p.length ≤ 254) ∧ (4 ≤ ver.toNat → p.length ≤ 65535) ∧
      fr = frameBytes v f t c p ver chk := by
  unfold encFrame at h
  split at h
  · exact nomatch h
  split at h
  · exact nomatch h
  split at h
  · exact nomatch h
  injection h with h
  exact ⟨by omega, by omega, by omega, h.symm⟩

/-- What decFrame answers when it answers a description and a payload. -/
theorem decFrame_ok {F : Bytes} {exp d : BitVec 16} {p : Bytes} (h : decFrame F exp = .ok (d, p)) :
    8 ≤ F.length ∧ byteAt F 0 = 0xFF#8 ∧ 3 ≤ (byteAt F 1).toNat ∧
      headerLength F + 4 + declaredLength F + checksumCount F = F.length ∧
      (checksumCount F = 1 → xorsum (slice F 0 (F.length - 1)) = byteAt F (F.length - 1)) ∧
      rd16 F (headerLength F) = exp ∧ d = rd16 F (headerLength F + 2) ∧
      p = slice F (headerLength F + 4) (headerLength F + 4 + declaredLength F) := by
  unfold decFrame at h
  split at h
  · exact nomatch h
  rename_i a1
  split at h
  · exact nomatch h
  rename_i a2
  split at h
  · exact nomatch h
  rename_i a3
  split at h
  · exact nomatch h
  split at h
  · exact nomatch h
  rename_i a5
  split at h
  · exact nomatch h
  rename_i a6
  split at h
  · exact nomatch h
  rename_i a7
  injection h with h
  injection h with h1 h2
  refine ⟨by omega, not_not.1 a2, by omega, not_not.1 a5, fun hc => ?_, not_not.1 a7, h1.symm, h2.symm⟩
  by_contra hne
  exact a6 ⟨hc, hne⟩

/-- decFrame never raises a contract error (R246). -/
theorem decFrame_no_contractError (F : Bytes) (exp : BitVec 16) (e : ErrCode) : decFrame F exp ≠ .contractError e := by
  unfold decFrame
  repeat' split
  all_goals simp

/-- What decUpg answers when it answers an opcode and a content. -/
theorem decUpg_ok {s : Bytes} {op : Byte} {content : Bytes} (h : decUpg s = .ok (op, content)) :
    3 + (rd16 s 1).toNat ≤ s.length ∧ op = byteAt s 0 ∧ content = slice s 3 (3 + (rd16 s 1).toNat) := by
  unfold decUpg at h
  split at h
  · exact nomatch h
  split at h
  · exact nomatch h
  injection h with h
  injection h with h1 h2
  exact ⟨by omega, h1.symm, h2.symm⟩

/-- What encUpg answers when it answers a message. -/
theorem encUpg_ok {op : Byte} {c u : Bytes} (h : encUpg op c = .ok u) :
    c.length ≤ 65535 ∧ u = [op] ++ be16 (BitVec.ofNat 16 c.length) ++ c := by
  unfold encUpg at h
  split at h
  · injection h with h
    exact ⟨by omega, h.symm⟩
  · exact nomatch h

end Sys2Proof.Machine
end

