-- ==== Sys2Proof/Laws/Segment.lean ====
section
/-! SUPPORT. The segmenter: the range of its cursor, the frames it builds, what the chunk loop answers. -/

namespace Sys2Proof.Machine

theorem segCur1_range (L : Nat) (g : SegOperands) : 0 ≤ segCur1 L g ∧ segCur1 L g ≤ L := by
  unfold segCur1 clamp
  omega

theorem segCur2_range (L : Nat) (g : SegOperands) : 0 ≤ segCur2 L g ∧ segCur2 L g ≤ L := by
  have := segCur1_range L g
  unfold segCur2
  split <;> omega

theorem segAvail_le (L : Nat) (g : SegOperands) : (segCur2 L g).toNat + segAvail L g ≤ L := by
  have := segCur2_range L g
  unfold segAvail
  omega

/-- A chunk length that the checks of R211 let through. -/
def ChunkFits (g : SegOperands) (k : Nat) : Prop :=
  3 ≤ g.ver.toNat ∧ (g.ver.toNat = 3 → k ≤ 250) ∧ (4 ≤ g.ver.toNat → k + 4 ≤ 65535)

/-- The frame of a chunk that fits. -/
theorem dataFrame_ok {g : SegOperands} {m : Byte} {d : Bytes} (h : ChunkFits g d.length) :
    ∃ fr, dataFrame g m d = .ok fr ∧ fr.length ≤ 13 + d.length + (if g.chk then 1 else 0) ∧
      (d.length ≤ 251 → fr.length = 12 + d.length + (if g.chk then 1 else 0)) := by
  obtain ⟨h1, h2, h3⟩ := h
  have hl : ([m] ++ d).length = d.length + 1 := by simp
  have hu : encUpg 0x04 ([m] ++ d) = .ok ([0x04] ++ be16 (BitVec.ofNat 16 ([m] ++ d).length) ++ ([m] ++ d)) := by
    unfold encUpg
    rw [if_pos (by omega)]
  have hp : ([(0x04 : Byte)] ++ be16 (BitVec.ofNat 16 ([m] ++ d).length) ++ ([m] ++ d)).length = d.length + 4 := by
    simp
    omega
  have hf : ∀ u : Bytes, u.length = d.length + 4 →
      encFrame 0x001D 0x06 (packetTypeCode .command).toNat 0x02 u g.ver g.chk =
        .ok (frameBytes 0x001D 0x06 (packetTypeCode .command).toNat 0x02 u g.ver g.chk) := by
    intro u hu
    unfold encFrame
    rw [if_neg (by omega), if_neg (by omega), if_neg (by omega)]
  refine ⟨_, by rw [dataFrame, hu]; exact hf _ hp, ?_, fun hd => ?_⟩
  · rw [frameBytes_length, hp]
    split <;> omega
  · rw [frameBytes_length, hp]
    have : usesExtension g.ver (d.length + 4) = false := by
      simp only [usesExtension]
      rw [show decide (d.length + 4 ≤ 255) = true by simp; omega]
      simp
    rw [this, if_neg (by simp)]
    omega

/-- What the chunk loop answers: it sends all that is available, moves the cursor by as much, and its frames take at most
14 bytes for each byte sent (R216, R218). -/
theorem segLoop_ok {fw : Bytes} {g : SegOperands} {avail : Nat} (he : 1 ≤ segEff g)
    (hfit : ∀ k, k ≤ min (segEff g) avail → ChunkFits g k) :
    ∀ (turns : Nat) (p : SegProgress), p.sent ≤ avail → avail - p.sent ≤ turns →
      ∃ q, segLoop fw g avail turns p = .ok q ∧ q.sent = avail ∧ q.cur = p.cur + (avail - p.sent) ∧
        q.frames ≤ p.frames + (avail - p.sent) ∧ (p.sent < avail → p.frames + 1 ≤ q.frames) ∧
        q.out.length ≤ p.out.length + 14 * (avail - p.sent) ∧ (avail = p.sent → q = p) := by
  intro turns
  induction turns with
  | zero =>
    intro p h1 h2
    exact ⟨p, rfl, by omega, by omega, by omega, by omega, by omega, fun _ => rfl⟩
  | succ turns ih =>
    intro p h1 h2
    unfold segLoop
    by_cases hlt : p.sent < avail
    · rw [if_pos hlt]
      have hlen : (slice fw p.cur (p.cur + min (segEff g) (avail - p.sent))).length ≤
          min (segEff g) (avail - p.sent) := by
        rw [slice_length]
        omega
      obtain ⟨fr, hfr, hb, hs⟩ := dataFrame_ok (g := g)
        (m := finalMarker (p.cur + min (segEff g) (avail - p.sent)) fw.length)
        (d := slice fw p.cur (p.cur + min (segEff g) (avail - p.sent))) (hfit _ (by omega))
      obtain ⟨q, hq, a1, a2, a3, a4, a5, -⟩ := ih
        { out := p.out ++ fr, cur := p.cur + min (segEff g) (avail - p.sent),
          sent := p.sent + min (segEff g) (avail - p.sent), frames := p.frames + 1 }
        (by simp only; omega) (by simp only; omega)
      simp only [List.length_append] at a1 a2 a3 a4 a5
      refine ⟨q, by simp only [segChunk, hfr, andThen]; exact hq, a1, by omega, by omega, fun _ => ?_, ?_,
        fun h => by omega⟩
      · by_cases hx : p.sent + min (segEff g) (avail - p.sent) < avail
        · have := a4 hx
          omega
        · have h0 : avail = p.sent + min (segEff g) (avail - p.sent) := by omega
          have hk := (ih
            { out := p.out ++ fr, cur := p.cur + min (segEff g) (avail - p.sent),
              sent := p.sent + min (segEff g) (avail - p.sent), frames := p.frames + 1 }
            (by simp only; omega) (by simp only; omega))
          obtain ⟨q', hq', -, -, -, -, -, e⟩ := hk
          rw [hq] at hq'
          injection hq' with hq'
          rw [hq', e h0]
      · have h1 : fr.length ≤ 14 * min (segEff g) (avail - p.sent) := by
          by_cases hk : min (segEff g) (avail - p.sent) = 1
          · rw [hs (by omega)]
            split <;> omega
          · have : fr.length ≤ 14 + min (segEff g) (avail - p.sent) := by
              revert hb
              split <;> omega
            omega
        omega
    · rw [if_neg hlt]
      exact ⟨p, rfl, by omega, by omega, by omega, by omega, by omega, fun _ => rfl⟩

end Sys2Proof.Machine
end

