-- ==== Sys2Proof/Tests/Slice0.lean ====
section
/-! SUPPORT. The model's own tests: ill-formed terms that the checks refuse, words written out from the spec's tables, one
completion for each instruction with the expected values of spec/95_test_vectors.md, and for every statement with hypotheses
a state and operands that meet them. -/

namespace Sys2Proof.Tests

open Sys2Proof.Machine

/-! ## Helpers -/

/-- A small conforming configuration: the least IBUF, 70000 bytes of firmware. -/
def smallParams : Params := { ibufExtra := 0, fwMax := 70000, obufExtra := 0, peerWordSigned := false }

/-- The idle block right after power-on in that configuration. -/
def idle : State := State.powerOn smallParams

/-- The block after the host accesses of a program (R98). -/
def load (program : List Stmt) (s : State) : State := program.foldl (fun s st => hostAccess (stmtAccess st) s) s

/-- The block with a byte sequence as its input. -/
def input (bytes : Bytes) : State := load (pseudoLdin bytes) idle

/-- The state that an outcome goes on with. -/
def stateOf (o : Host.Outcome State Fault Refusal) : State :=
  match o with
  | .next t => t
  | .fault _ => idle
  | .refused _ => idle

/-- The block after the completion of an instruction. -/
def after (i : Instr) (s : State) : State := stateOf (exec i s)

theorem exec_after (i : Instr) (s : State) : exec i s = .next (after i s) := by
  rw [after, exec_eq_completeWith]
  rfl

/-- The bytes of the output. -/
def output (t : State) : Bytes := memRead .obuf 0 t.results.outLen.toNat t

/-- The words of some registers. -/
def words (rs : List Reg) (t : State) : List Word := rs.map fun r => regValue r t

/-! ## Well-formedness -/

theorem test_upgData_without_marker_refused : (Instr.upgData 0).wellFormed = false := by decide
theorem test_upgData_longer_than_a_frame_refused : (Instr.upgData 65533).wellFormed = false := by decide
theorem test_upgData_longest_accepted : (Instr.upgData 65532).wellFormed = true := by decide

/-- R1: IBUF_BYTES below 65545. -/
theorem test_small_ibuf_refused :
    configure { ibufBytes := 65544, fwMaxBytes := 0, obufBytes := 100000, peerWordSigned := false } =
      .error .nonconformingConfiguration := by decide
/-- R1: FW_MAX_BYTES above 2^31 - 1. -/
theorem test_large_fwbuf_refused :
    configure { ibufBytes := 65545, fwMaxBytes := 2147483648, obufBytes := 100000000000, peerWordSigned := false } =
      .error .nonconformingConfiguration := by decide
/-- R1: OBUF_BYTES below IBUF_BYTES + 4. -/
theorem test_small_obuf_refused :
    configure { ibufBytes := 65545, fwMaxBytes := 0, obufBytes := 65548, peerWordSigned := true } =
      .error .nonconformingConfiguration := by decide
/-- R1: OBUF_BYTES below 14 * FW_MAX_BYTES. -/
theorem test_small_obuf_for_firmware_refused :
    configure { ibufBytes := 65545, fwMaxBytes := 10000, obufBytes := 139999, peerWordSigned := true } =
      .error .nonconformingConfiguration := by decide
theorem test_least_configuration_taken :
    configure { ibufBytes := 65545, fwMaxBytes := 10000, obufBytes := 140000, peerWordSigned := true } =
      .ok { ibufExtra := 0, fwMax := 10000, obufExtra := 0, peerWordSigned := true } := by decide

/-! ## Decoding -/

/-- A row of the opcode table: how many bits it matches on, the value, the mask, the instruction. -/
structure Row where
  nbits : Nat
  value : Nat
  mask : Nat
  instr : Instr

/-- The rows of R95, R96 (OP in bits [3:0]). -/
def cmdRows : List Row :=
  [⟨8, 0b0001, 0xF, .packHdr⟩, ⟨8, 0b0010, 0xF, .unpackHdr⟩, ⟨8, 0b0011, 0xF, .encPdu⟩, ⟨8, 0b0100, 0xF, .encFrame⟩,
    ⟨8, 0b0101, 0xF, .decFrame⟩, ⟨8, 0b0110, 0xF, .encUpg⟩, ⟨8, 0b0111, 0xF, .decUpg⟩, ⟨8, 0b1000, 0xF, .recAppver⟩,
    ⟨8, 0b1001, 0xF, .recDatareq⟩, ⟨8, 0b1010, 0xF, .segment⟩, ⟨8, 0b0000, 0xF, .reservedOp0⟩,
    ⟨8, 0b1011, 0xF, .reservedOpB⟩, ⟨8, 0b1100, 0xF, .reservedOpC⟩, ⟨8, 0b1101, 0xF, .reservedOpD⟩,
    ⟨8, 0b1110, 0xF, .reservedOpE⟩, ⟨8, 0b1111, 0xF, .reservedOpF⟩]

/-- The rows of R90, R91, R92, written out field by field: feature (7 bits), type (2), command (7); opcode (8), length
(16). -/
def wireRows : List Row :=
  [⟨16, 0b0000000 <<< 9 ||| 0b10 <<< 7 ||| 0b0000101, 0xFFFF, .appverRsp⟩,
    ⟨16, 0b0000110 <<< 9 ||| 0b01 <<< 7 ||| 0b0000000, 0xFFFF, .dataBytesReqNtf⟩,
    ⟨16, 0b0000110 <<< 9 ||| 0b00 <<< 7 ||| 0b0000010, 0xFFFF, .upgDataCmd⟩,
    ⟨24, 0b00000011 <<< 16 ||| 0b0000000000001000, 0xFFFFFF, .upgDataBytesReq⟩,
    ⟨24, 0b00000100 <<< 16, 0xFF0000, .upgData 0⟩]

theorem test_cmd_words_decode : (cmdRows.all fun r => decodeTableWord r.nbits r.value == some r.instr) = true := by
  decide +kernel
theorem test_wire_words_decode : (wireRows.all fun r => decodeTableWord r.nbits r.value == some r.instr) = true := by
  decide +kernel
/-- R91: the header of a message with 251 content bytes, 04 00 FB. -/
theorem test_upgData_length_decodes : decodeTableWord 24 0x0400FB = some (.upgData 251) := by decide +kernel
/-- R22: bits above OP are ignored. -/
theorem test_cmd_high_bits_ignored : decode (.cmd 0xFFFFFFF4) = .ok .encFrame := by decide +kernel
theorem test_other_description_refused : decode (.desc 0x0005) = .error .noDescRow := by decide +kernel
theorem test_other_header_refused : decode (.upg 0x030009) = .error .noUpgRow := by decide +kernel
theorem test_short_bytes_refused : decodeBytes .wireUpg [0x03, 0x00] = .error .tooShort := by decide +kernel

/-- No two rows of one format match the same value. -/
theorem test_rows_do_not_overlap :
    (cmdRows ++ wireRows).Pairwise fun a b =>
      a.nbits ≠ b.nbits ∨ a.value &&& (a.mask &&& b.mask) ≠ b.value &&& (a.mask &&& b.mask) := by decide +kernel

/-! ## One completion for each instruction -/

/-- V-HDR: HDR_IN = 00FFFFFF. -/
theorem test_packHdr_all_bits :
    words [.status, .outLen, .resDesc, .resFields] (after .packHdr (load [.wr .hdrIn 0x00FFFFFF] idle)) =
      [0x00000002, 0, 0xFFFF, 0x007F037F] := by decide +kernel
/-- V-HDR: HDR_IN = 00040480. -/
theorem test_packHdr_masks :
    words [.resDesc, .resFields] (after .packHdr (load [.wr .hdrIn 0x00040480] idle)) = [0x0004, 0x00040000] := by
  decide +kernel
/-- V-HDR: DESC_IN = 0C80. -/
theorem test_unpackHdr :
    words [.status, .resDesc, .resFields] (after .unpackHdr (load [.wr .descIn 0x0C80] idle)) =
      [0x00000002, 0x0C80, 0x00000106] := by decide +kernel
/-- V-PDU: the first row. -/
theorem test_encPdu :
    output (after .encPdu (load [.wr .hdrIn 0x00050200] (input [0x31, 0x2E, 0x32, 0x2E, 0x33]))) =
      [0x00, 0x1D, 0x01, 0x05, 0x31, 0x2E, 0x32, 0x2E, 0x33] := by decide +kernel
/-- R29, R241: IN_LEN = 65546 where IBUF has 65545 bytes. -/
theorem test_encPdu_range :
    words [.status, .outLen] (after .encPdu (load [.wr .inLen 65546] idle)) = [0x0000020A, 0] := by decide +kernel
/-- W1: version 3 with checksum. -/
theorem test_encFrame_checksum :
    output (after .encFrame
        (load (pseudoCfg 3 true ++ pseudoHdr 0x00 2 0x05) (input [0x31, 0x2E, 0x32, 0x2E, 0x33]))) =
      [0xFF, 0x03, 0x01, 0x05, 0x00, 0x1D, 0x01, 0x05, 0x31, 0x2E, 0x32, 0x2E, 0x33, 0xD1] := by decide +kernel
/-- V-ENC: version 5, (1, 2, 3), 256 bytes AA, checksum E5, 266 bytes. -/
theorem test_encFrame_extended :
    let out := output (after .encFrame
      (load (pseudoCfg 5 true ++ pseudoHdr 1 2 3)
        { idle with
          ibuf := cellsFrom 0 (List.replicate 256 0xAA)
          operands := { OperandRegs.atReset with inLen := 256 } }))
    out.take 10 = [0xFF, 0x05, 0x03, 0x01, 0x00, 0x00, 0x1D, 0x03, 0x03, 0xAA] ∧ out.length = 266 ∧
      out.getLast? = some 0xE5 := by decide +kernel
/-- V-DEC: the first row. -/
theorem test_decFrame_checksum :
    let t := after .decFrame (input [0xFF, 0x03, 0x01, 0x05, 0x00, 0x1D, 0x01, 0x05, 0x31, 0x2E, 0x32, 0x2E, 0x33, 0xD1])
    words [.status, .resDesc] t = [0x00000002, 0x0105] ∧ output t = [0x31, 0x2E, 0x32, 0x2E, 0x33] := by
  decide +kernel
/-- V-DEC: the extension used for a short payload, an unknown version above 4 allowed. -/
theorem test_decFrame_extended :
    output (after .decFrame (input [0xFF, 0x04, 0x02, 0x00, 0x03, 0x00, 0x1D, 0x01, 0x05, 0x31, 0x32, 0x33])) =
      [0x31, 0x32, 0x33] := by decide +kernel
/-- V-UPG: 00 AA under opcode 04. -/
theorem test_encUpg :
    output (after .encUpg (load [.wr .upgOp 0x04] (input [0x00, 0xAA]))) = [0x04, 0x00, 0x02, 0x00, 0xAA] := by
  decide +kernel
/-- V-UPG: trailing bytes are dropped. -/
theorem test_decUpg_trailing :
    let t := after .decUpg (input [0x04, 0x00, 0x02, 0x01, 0x02, 0x03, 0x04])
    words [.status, .resUpgOp] t = [0x00000002, 0x04] ∧ output t = [0x01, 0x02] := by decide +kernel
/-- V-UPG: one byte too few. -/
theorem test_decUpg_short :
    words [.status, .outLen] (after .decUpg (input [0x03, 0x00, 0x02, 0x01])) = [0x00000006, 0] := by decide +kernel
/-- W7: the response, and the same frame with type Command. -/
theorem test_recAppver :
    output (after .recAppver (input [0xFF, 0x03, 0x00, 0x05, 0x00, 0x1D, 0x01, 0x05, 0x31, 0x2E, 0x32, 0x2E, 0x33])) =
      [0x31, 0x2E, 0x32, 0x2E, 0x33] := by decide +kernel
theorem test_recAppver_command :
    words [.status] (after .recAppver
        (input [0xFF, 0x03, 0x00, 0x05, 0x00, 0x1D, 0x00, 0x05, 0x31, 0x2E, 0x32, 0x2E, 0x33])) = [0x00000006] := by
  decide +kernel
/-- V-REC: 100 and 10. -/
theorem test_recDatareq :
    words [.status, .outLen, .resDesc, .resUpgOp, .resReq, .resMoveBy] (after .recDatareq
        (input [0xFF, 0x03, 0x00, 0x0B, 0x00, 0x1D, 0x0C, 0x80, 0x03, 0x00, 0x08, 0, 0, 0, 0x64, 0, 0, 0, 0x0A])) =
      [0x00000002, 0, 0x0C80, 3, 100, 10] := by decide +kernel
/-- V-REC: a content of 7 bytes. -/
theorem test_recDatareq_content :
    words [.status] (after .recDatareq
        (input [0xFF, 0x03, 0x00, 0x0A, 0x00, 0x1D, 0x0C, 0x80, 0x03, 0x00, 0x07, 0, 0, 0, 0, 0, 0, 0])) =
      [0x00000006] := by decide +kernel

/-- Three firmware bytes with the operands of S13. -/
def threeBytes : State :=
  load (pseudoCfg 3 true ++ pseudoLdfw [0x11, 0x22, 0x33] ++ [.wr .maxPkt 1, .wr .req 3]) idle

/-- S13: one byte a frame. -/
theorem test_segment_single_bytes :
    output (after .segment threeBytes) =
      [0xFF, 0x03, 0x01, 0x05, 0x00, 0x1D, 0x0C, 0x02, 0x04, 0x00, 0x02, 0x00, 0x11, 0xFC,
        0xFF, 0x03, 0x01, 0x05, 0x00, 0x1D, 0x0C, 0x02, 0x04, 0x00, 0x02, 0x00, 0x22, 0xCF,
        0xFF, 0x03, 0x01, 0x05, 0x00, 0x1D, 0x0C, 0x02, 0x04, 0x00, 0x02, 0x01, 0x33, 0xDF] := by decide +kernel
/-- S15: a skip that would reach the end is ignored. -/
theorem test_segment_skip_ignored :
    let t := after .segment
      (load (pseudoCfg 3 false ++ pseudoFwfill 12 (BitVec.ofNat 8) ++ [.wr .cursor 10, .wr .rewind 2, .wr .req 5]) idle)
    output t = [0xFF, 0x03, 0x00, 0x06, 0x00, 0x1D, 0x0C, 0x02, 0x04, 0x00, 0x03, 0x01, 0x0A, 0x0B] ∧
      words [.resCursor, .resFrames] t = [12, 1] := by decide +kernel

/-- P4 step 3: a reserved code gives STATUS 0000010A. -/
theorem test_reserved :
    ([Instr.reservedOp0, .reservedOpB, .reservedOpC, .reservedOpD, .reservedOpE, .reservedOpF].all fun i =>
      words [.status, .outLen] (after i idle) == [0x0000010A, 0]) = true := by decide +kernel

/-- W7 through the row APPVER_RSP. -/
theorem test_appverRsp :
    output (after .appverRsp (input [0xFF, 0x03, 0x00, 0x01, 0x00, 0x1D, 0x01, 0x05, 0x31])) = [0x31] := by
  decide +kernel
/-- V-REC, the trailing byte of decision D34, through the rows DATA_BYTES_REQ_NTF and UPG_DATA_BYTES_REQ. -/
theorem test_dataBytesReq_rows :
    ([Instr.dataBytesReqNtf, .upgDataBytesReq].all fun i =>
      words [.status, .resReq] (after i
        (input [0xFF, 0x03, 0x00, 0x0C, 0x00, 0x1D, 0x0C, 0x80, 0x03, 0x00, 0x08, 0, 0, 1, 0, 0, 0, 0, 0, 0xEE])) ==
        [0x00000002, 0x100]) = true := by decide +kernel
/-- S11 through the rows UPG_DATA_CMD and UPG_DATA: an empty firmware is acknowledged with marker 1. -/
theorem test_upgData_rows :
    ([Instr.upgDataCmd, .upgData 1].all fun i =>
      output (after i (load (pseudoCfg 4 true) idle)) ==
        [0xFF, 0x04, 0x01, 0x04, 0x00, 0x1D, 0x0C, 0x02, 0x04, 0x00, 0x01, 0x01, 0xE9]) = true := by decide +kernel

/-- R98: the written form of an access. -/
theorem test_access_text :
    accessText (.writeReg 0x08 0x00000103) = "W REG 0x08 0x00000103" ∧ accessText (.readByte .obuf 0) = "R OBUF 0x0000" := by
  decide +kernel

/-- R98, R1: an address above 32 bits keeps all its digits. -/
theorem test_access_text_of_a_large_address :
    accessText (.readByte .obuf 0x100000000) = "R OBUF 0x100000000" ∧
      accessText (.writeByte .ibuf 0x10000 0x5A) = "W IBUF 0x10000 0x5A" := by decide +kernel

/-! ## For every statement with hypotheses, a case that meets them -/

/-- An idle block with the given IN_LEN and CFG.VERSION; its input is the draws of power-on. -/
def sized (n : Nat) (ver : Byte) : State :=
  { idle with operands := { OperandRegs.atReset with inLen := BitVec.ofNat 32 n, version := ver } }

theorem sized_input (n : Nat) (ver : Byte) (h : n ≤ 65545) : ∃ p, InputIs p (sized n ver) ∧ p.length = n := by
  have hn : (sized n ver).operands.inLen.toNat = n := by
    show (BitVec.ofNat 32 n).toNat = n
    rw [BitVec.toNat_ofNat]
    omega
  have hp : (sized n ver).params.ibufBytes = 65545 := by
    show smallParams.ibufBytes = 65545
    decide +kernel
  exact ⟨_, inputIs_memRead (by rw [hn, hp]; exact h), by rw [memRead_length, hn]⟩

/-- An idle block with the given segmenter operands; its firmware is the draws of power-on. -/
def segmenting (fwLen cursor req rewind maxPkt : Nat) (ver : Byte) : State :=
  { idle with
    operands :=
      { OperandRegs.atReset with
        version := ver
        fwLen := BitVec.ofNat 32 fwLen
        cursorIn := BitVec.ofNat 32 cursor
        requestedIn := BitVec.ofNat 32 req
        rewindIn := BitVec.ofNat 32 rewind
        maxPerPacket := BitVec.ofNat 32 maxPkt } }

theorem segmenting_firmware (fwLen cursor req rewind maxPkt : Nat) (ver : Byte) (h : fwLen ≤ 70000) :
    ∃ fw, FirmwareIs fw (segmenting fwLen cursor req rewind maxPkt ver) ∧ fw.length = fwLen := by
  have hn : (segmenting fwLen cursor req rewind maxPkt ver).operands.fwLen.toNat = fwLen := by
    show (BitVec.ofNat 32 fwLen).toNat = fwLen
    rw [BitVec.toNat_ofNat]
    omega
  have hp : (segmenting fwLen cursor req rewind maxPkt ver).params.fwMaxBytes = 70000 := by
    show smallParams.fwMaxBytes = 70000
    decide +kernel
  exact ⟨_, firmwareIs_memRead (by rw [hn, hp]; exact h), by rw [memRead_length, hn]⟩

theorem frameParses_length {F : Bytes} {exp d : BitVec 16} {p : Bytes} (h : FrameParses F exp d p) : 8 ≤ F.length := by
  obtain ⟨ver, flags, lengthBytes, -, hl, rfl⟩ := h
  have : 1 ≤ lengthBytes.length := by
    split at hl <;> rw [hl.2] <;> simp
  unfold withChecksum
  split <;> simp <;> omega

/-- Whether a result is Ok. -/
def isOk {α : Type} (r : Result α) : Bool :=
  match r with
  | .ok _ => true
  | .notRecognized => false
  | .contractError _ => false

theorem exists_of_isOk {α : Type} {r : Result α} (h : isOk r = true) : ∃ a, r = .ok a := by
  cases r with
  | ok a => exact ⟨a, rfl⟩
  | notRecognized => simp [isOk] at h
  | contractError e => simp [isOk] at h

theorem messageParses_length {m : Bytes} {op : Byte} {content : Bytes} (h : MessageParses m op content) :
    3 ≤ m.length := by
  obtain ⟨-, trailing, rfl⟩ := h
  simp

/-- An operation in flight. -/
def inFlight (op : BitVec 4) (s : State) : State := startOp op s

/-! ### InstructionCodesRoundTrip, StepRunsTheInstructionInFlight, PlacedWordRunsNext -/

theorem witness_decodeBytes :
    decodeBytes .cmd [0xA4, 0x01] = .ok (.encFrame, [0x01]) ∧
      decodeBytes .wireDesc [0x0C, 0x02] = .ok (.upgDataCmd, []) ∧
      decodeBytes .wireUpg [0x04, 0xFF, 0xFF, 0x00] = .ok (.upgData 0xFFFF, [0x00]) := by decide +kernel

theorem witness_operation_in_flight :
    (inFlight 0xF idle).status.busy = true ∧ Instr.reservedOpF = decodeOp (inFlight 0xF idle).operands.op ∧
      (inFlight 0xF idle).agenda = [] ∧
      ({ inFlight 0xF idle with agenda := [.sequencer, .idle] } : State).agenda = .sequencer :: [.idle] := by decide +kernel

theorem witness_carried_wire_values :
    carries .appverRsp (placeCode (.desc 0x0105) idle) = true ∧
      carries .dataBytesReqNtf (placeCode (.desc 0x0C80) idle) = true ∧
      carries .upgDataBytesReq (placeCode (.upg 0x030008) idle) = true ∧
      carries .upgDataCmd (placeCode (.desc 0x0C02) idle) = true ∧
      carries (.upgData 3) (placeCode (.upg 0x040003) idle) = true ∧
      (placeCode (.upg 0x040003) idle).status.busy = true := by decide +kernel

theorem witness_turns_without_effect :
    idle.status.busy = false ∧ idle.agenda = [] ∧
      ({ idle with agenda := [.sequencer, .reset] } : State).agenda = .sequencer :: [.reset] ∧
      ({ inFlight 4 idle with agenda := [.idle] } : State).agenda = .idle :: [] := by decide +kernel

theorem witness_placed_words :
    decodeTableWord 8 0xF4 = some .encFrame ∧ decodeTableWord 32 0xFFFFFFF0 = some .reservedOp0 ∧
      decodeTableWord 16 0x0C80 = some .dataBytesReqNtf ∧ decodeTableWord 24 0x030008 = some .upgDataBytesReq ∧
      decodeTableWord 24 0x040001 = some (.upgData 1) ∧ decodeTableWord 24 0x04FFFC = some (.upgData 65532) := by
  decide +kernel
theorem witness_placed_upgData :
    Instr.wellFormed (.upgData 1) = true ∧ (1 : BitVec 16).toNat ≤ idle.params.fwMaxBytes + 1 ∧
      Instr.wellFormed (.upgData 65532) = true ∧ (65532 : BitVec 16).toNat ≤ idle.params.fwMaxBytes + 1 := by
  decide +kernel

/-! ### ENC_PDU, ENC_FRAME, ENC_UPG -/

theorem witness_encPdu_input : InputIs [0x31, 0x2E] (input [0x31, 0x2E]) ∧ InputIs [] idle := by
  unfold InputIs
  decide +kernel
theorem witness_longest_input : ∃ p, InputIs p (sized 65545 0) := (sized_input 65545 0 (by decide)).imp fun _ h => h.1
theorem witness_input_range : (sized 65546 3).params.ibufBytes < (sized 65546 3).operands.inLen.toNat := by decide +kernel

theorem witness_encFrame_bad_version :
    ∃ p, InputIs p (sized 1 2) ∧ (sized 1 2).operands.version.toNat < 3 :=
  (sized_input 1 2 (by decide)).imp fun _ h => ⟨h.1, by decide⟩
theorem witness_encFrame_too_long_at_4 :
    ∃ p, InputIs p (sized 65536 4) ∧ 4 ≤ (sized 65536 4).operands.version.toNat ∧ 65535 < p.length :=
  (sized_input 65536 4 (by decide)).imp fun _ h => ⟨h.1, by decide, by omega⟩
theorem witness_encFrame_too_long_at_3 :
    ∃ p, InputIs p (sized 255 3) ∧ (sized 255 3).operands.version.toNat = 3 ∧ 254 < p.length :=
  (sized_input 255 3 (by decide)).imp fun _ h => ⟨h.1, by decide, by omega⟩
theorem witness_encFrame_frame_at_3 :
    ∃ p, InputIs p (sized 254 3) ∧ 3 ≤ (sized 254 3).operands.version.toNat ∧
      ((sized 254 3).operands.version.toNat = 3 → p.length ≤ 254) ∧
      (4 ≤ (sized 254 3).operands.version.toNat → p.length ≤ 65535) :=
  (sized_input 254 3 (by decide)).imp fun _ h => ⟨h.1, by decide, by omega, by omega⟩
theorem witness_encFrame_frame_at_4 :
    ∃ p, InputIs p (sized 65535 4) ∧ 3 ≤ (sized 65535 4).operands.version.toNat ∧
      ((sized 65535 4).operands.version.toNat = 3 → p.length ≤ 254) ∧
      (4 ≤ (sized 65535 4).operands.version.toNat → p.length ≤ 65535) :=
  (sized_input 65535 4 (by decide)).imp fun _ h => ⟨h.1, by decide, fun h3 => absurd h3 (by decide), by omega⟩
theorem witness_encFrame_ok :
    (∃ fr, encFrame 0x001D 0 2 5 [] 3 false = .ok fr) ∧
      ∃ fr, encFrame 0x001D 0 2 5 (List.replicate 256 0xAA) 4 true = .ok fr :=
  ⟨exists_of_isOk (by decide +kernel), exists_of_isOk (by decide +kernel)⟩

theorem witness_encUpg_longest : ∃ c, InputIs c (sized 65535 0) ∧ c.length ≤ 65535 :=
  (sized_input 65535 0 (by decide)).imp fun _ h => ⟨h.1, by omega⟩
theorem witness_encUpg_too_long : ∃ c, InputIs c (sized 65536 0) ∧ 65535 < c.length :=
  (sized_input 65536 0 (by decide)).imp fun _ h => ⟨h.1, by omega⟩
theorem witness_upgrade_message : ([] : Bytes).length ≤ 65535 ∧ (List.replicate 65535 (0 : Byte)).length ≤ 65535 ∧
    ∀ u, encUpg 0x09 [] = .ok u → 2 < u.length := by
  refine ⟨by simp, List.length_replicate.le, fun u h => ?_⟩
  rw [(encUpg_ok h).2]
  simp

/-! ### DEC_FRAME, DEC_UPG, the recognizers -/

/-- W1's frame. -/
def checksummedFrame : Bytes := [0xFF, 0x03, 0x01, 0x05, 0x00, 0x1D, 0x01, 0x05, 0x31, 0x2E, 0x32, 0x2E, 0x33, 0xD1]
/-- V-DEC: the extension used for a short payload. -/
def extendedFrame : Bytes := [0xFF, 0x04, 0x02, 0x00, 0x03, 0x00, 0x1D, 0x01, 0x05, 0x31, 0x32, 0x33]

theorem witness_frame_with_checksum :
    InputIs checksummedFrame (input checksummedFrame) ∧
      FrameParses checksummedFrame (input checksummedFrame).operands.expectedVendor 0x0105
        [0x31, 0x2E, 0x32, 0x2E, 0x33] :=
  ⟨by unfold InputIs; decide +kernel, 0x03, 0x01, [0x05], by decide, by decide, by decide +kernel⟩
theorem witness_frame_with_extension :
    InputIs extendedFrame (input extendedFrame) ∧
      FrameParses extendedFrame (input extendedFrame).operands.expectedVendor 0x0105 [0x31, 0x32, 0x33] :=
  ⟨by unfold InputIs; decide +kernel, 0x04, 0x02, [0x00, 0x03], by decide, by decide, by decide +kernel⟩
theorem witness_no_frame :
    InputIs (checksummedFrame.take 7) (input (checksummedFrame.take 7)) ∧
      ∀ d p, ¬FrameParses (checksummedFrame.take 7) (input (checksummedFrame.take 7)).operands.expectedVendor d p :=
  ⟨by unfold InputIs; decide +kernel, fun _ _ h => absurd (frameParses_length h) (by decide)⟩

theorem witness_message :
    InputIs [0x04, 0x00, 0x02, 0x01, 0x02, 0x03] (input [0x04, 0x00, 0x02, 0x01, 0x02, 0x03]) ∧
      MessageParses [0x04, 0x00, 0x02, 0x01, 0x02, 0x03] 0x04 [0x01, 0x02] :=
  ⟨by unfold InputIs; decide +kernel, by decide, [0x03], by decide⟩
theorem witness_no_message :
    InputIs [0x04, 0x00] (input [0x04, 0x00]) ∧ ∀ op content, ¬MessageParses [0x04, 0x00] op content :=
  ⟨by unfold InputIs; decide +kernel, fun _ _ h => absurd (messageParses_length h) (by decide)⟩

/-- W8's notification. -/
def requestFrame : Bytes :=
  [0xFF, 0x03, 0x00, 0x0B, 0x00, 0x1D, 0x0C, 0x80, 0x03, 0x00, 0x08, 0, 0, 1, 0, 0, 0, 0, 0]

theorem witness_request :
    InputIs requestFrame (input requestFrame) ∧
      RequestParses requestFrame (input requestFrame).operands.expectedVendor 0x100 0 :=
  ⟨by unfold InputIs; decide +kernel, requestFrame.drop 8,
    ⟨0x03, 0x00, [0x0B], by decide, by decide, by decide +kernel⟩, by decide, [], by decide +kernel⟩
theorem witness_no_request :
    InputIs [0xFF] (input [0xFF]) ∧
      ∀ requested moveBy, ¬RequestParses [0xFF] (input [0xFF]).operands.expectedVendor requested moveBy :=
  ⟨by unfold InputIs; decide +kernel, fun _ _ h => absurd (frameParses_length h.choose_spec.1) (by decide)⟩

theorem witness_probing :
    exec .recAppver (input requestFrame) = .next (after .recAppver (input requestFrame)) ∧
      (after .recAppver (input requestFrame)).status.result = 1 ∧
      (after .recDatareq (input requestFrame)).status.result = 0 := ⟨exec_after _ _, by decide +kernel, by decide +kernel⟩

theorem witness_round_trip :
    (127 : Nat) < 128 ∧ (3 : Nat) < 4 ∧ 3 ≤ (3 : Byte).toNat ∧ (List.replicate 254 (0 : Byte)).length ≤ 254 ∧
      3 ≤ (255 : Byte).toNat ∧ (List.replicate 65535 (0 : Byte)).length ≤ 65535 :=
  ⟨by decide, by decide, by decide, List.length_replicate.le, by decide, List.length_replicate.le⟩

theorem witness_changed_byte :
    encFrame 0x001D 0 2 5 [0x31, 0x2E, 0x32, 0x2E, 0x33] 3 true = .ok checksummedFrame ∧ 13 < checksummedFrame.length ∧
      (0xD0 : Byte) ≠ byteAt checksummedFrame 13 := by decide +kernel
/-- W2's exception. -/
theorem witness_changed_flags :
    encFrame 0 0 0 5 [] 4 true = .ok [0xFF, 0x04, 0x01, 0, 0, 0, 0, 0x05, 0xFF] ∧
      2 < [(0xFF : Byte), 0x04, 0x01, 0, 0, 0, 0, 0x05, 0xFF].length ∧
      (0x02 : Byte) ≠ byteAt [0xFF, 0x04, 0x01, 0, 0, 0, 0, 0x05, 0xFF] 2 ∧
      (0x02 : Byte).getLsbD 0 = false ∧ (0x02 : Byte).getLsbD 1 = true := by decide +kernel

/-! ### SEGMENT -/

theorem witness_segment_firmware_range :
    (segmenting 70001 0 0 0 0 2).params.fwMaxBytes < (segmenting 70001 0 0 0 0 2).operands.fwLen.toNat := by decide +kernel
theorem witness_segment_bad_version :
    ∃ fw, FirmwareIs fw (segmenting 70000 0 0 0 0 2) ∧ (segmenting 70000 0 0 0 0 2).operands.version.toNat < 3 :=
  (segmenting_firmware 70000 0 0 0 0 2 (by decide)).imp fun _ h => ⟨h.1, by decide⟩
theorem witness_segment_no_chunk_size :
    ∃ fw, FirmwareIs fw (segmenting 0 0 0 0 0 3) ∧ 3 ≤ (segmenting 0 0 0 0 0 3).operands.version.toNat ∧
      (segmenting 0 0 0 0 0 3).operands.maxPerPacket = 0 :=
  (segmenting_firmware 0 0 0 0 0 3 (by decide)).imp fun _ h => ⟨h.1, by decide, by decide⟩
theorem witness_segment_chunk_too_long :
    ∃ fw, FirmwareIs fw (segmenting 65532 0 65532 0 65532 4) ∧
      4 ≤ (segmenting 65532 0 65532 0 65532 4).operands.version.toNat ∧
      (segmenting 65532 0 65532 0 65532 4).operands.maxPerPacket ≠ 0 ∧
      65535 < min (chunkLimitOf (segmenting 65532 0 65532 0 65532 4)) (sendable (segmenting 65532 0 65532 0 65532 4)) + 4 :=
  (segmenting_firmware 65532 0 65532 0 65532 4 (by decide)).imp fun _ h =>
    ⟨h.1, by decide, by decide, by decide +kernel⟩
theorem witness_segment_longest_chunk :
    ∃ fw, FirmwareIs fw (segmenting 65531 0 65531 0 65531 4) ∧
      3 ≤ (segmenting 65531 0 65531 0 65531 4).operands.version.toNat ∧
      (segmenting 65531 0 65531 0 65531 4).operands.maxPerPacket ≠ 0 ∧
      min (chunkLimitOf (segmenting 65531 0 65531 0 65531 4)) (sendable (segmenting 65531 0 65531 0 65531 4)) + 4 ≤ 65535 :=
  (segmenting_firmware 65531 0 65531 0 65531 4 (by decide)).imp fun _ h =>
    ⟨h.1, by decide, by decide, by decide +kernel⟩
theorem witness_segment_nothing_to_send :
    ∃ fw, FirmwareIs fw (segmenting 12 10 0 5 1 3) ∧ 3 ≤ (segmenting 12 10 0 5 1 3).operands.version.toNat ∧
      (segmenting 12 10 0 5 1 3).operands.maxPerPacket ≠ 0 ∧ sendable (segmenting 12 10 0 5 1 3) = 0 :=
  (segmenting_firmware 12 10 0 5 1 3 (by decide)).imp fun _ h => ⟨h.1, by decide, by decide, by decide +kernel⟩

/-- One frame that carries three bytes (R91). -/
def dataFrameBytes : Bytes := [0xFF, 0x03, 0x00, 0x07, 0x00, 0x1D, 0x0C, 0x02, 0x04, 0x00, 0x04, 0x01, 0x11, 0x22, 0x33]

theorem witness_carried_data : CarriesData dataFrameBytes [[0x11, 0x22, 0x33]] := by
  refine ⟨[dataFrameBytes], rfl, rfl, fun j hj hd => ?_⟩
  obtain rfl : j = 0 := by simp at hj; exact hj
  have h1 : decFrame dataFrameBytes 0x001D = .ok (0x0C02, dataFrameBytes.drop 8) := by decide +kernel
  have h2 : decUpg (dataFrameBytes.drop 8) = .ok (0x04, [0x01, 0x11, 0x22, 0x33]) := by decide +kernel
  exact ⟨0x01, dataFrameBytes.drop 8, h1, h2⟩

/-- The operands of S13 for the pure function. -/
def singleBytes : SegOperands := { cur0 := 0, req := 3, rew := 0, maxChunk := 1, ver := 3, chk := true }

theorem witness_segmentFn :
    (∃ p, segmentFn [0x11, 0x22, 0x33] singleBytes = .ok p) ∧ ∃ p, segmentFn [] singleBytes = .ok p :=
  ⟨exists_of_isOk (by decide +kernel), exists_of_isOk (by decide +kernel)⟩

theorem witness_acknowledgement :
    3 ≤ singleBytes.ver.toNat ∧ singleBytes.maxChunk ≠ 0 ∧ segAvail 0 singleBytes = 0 ∧
      segAvail 12 { singleBytes with cur0 := 10, req := 0, rew := 2 } = 0 := by decide +kernel
theorem witness_threading :
    (segCur2 3 singleBytes).toNat + 3 ≤ 3 ∧
      (∃ p, segmentFn [0x11, 0x22, 0x33] { singleBytes with req := 2 } = .ok p ∧ p.cur = 2) ∧
      (∃ q, segmentFn [0x11, 0x22, 0x33] { singleBytes with cur0 := 2, req := 1, rew := 0 } = .ok q) ∧
      ∃ whole, segmentFn [0x11, 0x22, 0x33] { singleBytes with req := 2 + 1 } = .ok whole :=
  ⟨by decide +kernel, ⟨_, by rfl, by rfl⟩, exists_of_isOk (by decide +kernel), exists_of_isOk (by decide +kernel)⟩

theorem witness_run_of_frames :
    (∀ f ∈ [checksummedFrame, extendedFrame], ∃ r, decFrame f 0x001D = .ok r) ∧
      [checksummedFrame, extendedFrame].flatten = [checksummedFrame, extendedFrame].flatten := by
  refine ⟨fun f hf => ?_, rfl⟩
  simp only [List.mem_cons, List.not_mem_nil, or_false] at hf
  rcases hf with rfl | rfl <;> exact exists_of_isOk (by decide +kernel)

theorem witness_whole_firmware :
    let s := segmenting 70000 0 70000 0 250 3
    s.operands.fwLen.toNat ≤ s.params.fwMaxBytes ∧ 0 < s.operands.fwLen.toNat ∧ s.operands.cursorIn = 0 ∧
      s.operands.requestedIn = s.operands.fwLen ∧ s.operands.rewindIn = 0 ∧ s.operands.maxPerPacket = 250 ∧
      3 ≤ s.operands.version.toNat := by decide +kernel
theorem witness_small_request : (segmenting 1 0 0x7FFFFFFF 0xFFFFFFFF 1 3).operands.requestedIn.toNat < 2 ^ 31 := by
  decide +kernel

/-! ### The result classes and the frames of all operations -/

theorem witness_failures :
    exec .decFrame idle = .next (after .decFrame idle) ∧ (after .decFrame idle).status.result = 1 ∧
      exec .encFrame idle = .next (after .encFrame idle) ∧ (after .encFrame idle).status.result = 2 :=
  ⟨exec_after _ _, by decide +kernel, exec_after _ _, by decide +kernel⟩
theorem witness_output_frame :
    exec .encPdu (input [0x31]) = .next (after .encPdu (input [0x31])) ∧
      (input [0x31]).operands.inLen.toNat + 4 < 2 ^ 32 ∧ 14 * (input [0x31]).params.fwMaxBytes < 2 ^ 32 :=
  ⟨exec_after _ _, by decide +kernel, by decide +kernel⟩

/-- A state that agrees with `input [0x31]` on what an operation may read, and on nothing else. -/
def otherwise : State :=
  { input [0x31] with
    ibuf := [(0, 0x31), (1, 0x99)]
    obuf := [(7, 0x55)]
    results := { ResultRegs.atReset with desc := 0xFFFF } }

theorem witness_same_inputs :
    otherwise.operands = (input [0x31]).operands ∧ otherwise.params = (input [0x31]).params ∧
      (∀ a, a < (input [0x31]).operands.inLen.toNat → bufferByte .ibuf a otherwise = bufferByte .ibuf a (input [0x31])) ∧
      ∀ a, a < (input [0x31]).operands.fwLen.toNat →
        bufferByte .fwbuf a otherwise = bufferByte .fwbuf a (input [0x31]) := by decide +kernel
theorem witness_same_results :
    ({ otherwise with results := (input [0x31]).results } : State).results = (input [0x31]).results ∧
      SameBytes .obuf (input [0x31]) { otherwise with obuf := (input [0x31]).obuf } := ⟨rfl, fun _ => rfl⟩

/-! ### The host port -/

/-- A block with one turn pending. -/
def pending (turn : Turn) (s : State) : State := { s with agenda := [turn] }

theorem witness_start :
    (pending (.host (.writeReg 0x03 0xFFFFFFF4)) idle).status.busy = false ∧ (0x03 : BitVec 8).toNat < 4 ∧
      (0x00 : BitVec 8).toNat < 4 ∧
      (pending (.host (.writeReg 0x03 0xFFFFFFF4)) idle).agenda = .host (.writeReg 0x03 0xFFFFFFF4) :: [] := by
  decide +kernel
theorem witness_write_while_busy :
    (pending (.host (.writeReg 0x00 0x5)) (inFlight 4 idle)).status.busy = true ∧
      (pending (.host (.writeReg 0x00 0x5)) (inFlight 4 idle)).agenda = [.host (.writeReg 0x00 0x5)] ∧
      (∀ offset, Access.writeReg 0x00 0x5 ≠ .readReg offset) ∧
      ∀ b addr, Access.writeReg 0x00 0x5 ≠ .readByte b addr := by
  refine ⟨by decide, by decide, ?_, ?_⟩ <;> simp
theorem witness_host_writes :
    (pending (.host (.writeReg 0x08 0x103)) idle).agenda = .host (.writeReg 0x08 0x103) :: [] ∧
      (pending (.host (.writeByte .fwbuf 0 1)) idle).agenda = .host (.writeByte .fwbuf 0 1) :: [] := by decide
theorem witness_write_to_obuf :
    (pending (.host (.writeByte .obuf 0 1)) idle).agenda = [.host (.writeByte .obuf 0 1)] ∧
      (∃ addr v, Access.writeByte .obuf 0 1 = .writeByte .obuf addr v) ∧
      (∀ offset, Access.writeByte .obuf 0 1 ≠ .readReg offset) ∧
      ∀ b addr, Access.writeByte .obuf 0 1 ≠ .readByte b addr := by
  refine ⟨by decide, ⟨0, 1, rfl⟩, ?_, ?_⟩ <;> simp
theorem witness_reads :
    (pending (.host (.readReg 0x04)) idle).agenda = .host (.readReg 0x04) :: [] ∧
      (pending (.host (.readByte .ibuf 65545)) idle).agenda = .host (.readByte .ibuf 65545) :: [] := by decide
theorem witness_register_offsets : idle.status.busy = false ∧ (3 : BitVec 8).toNat < 4 := by decide
theorem witness_other_registers :
    4 ≤ (0x04 : BitVec 8).toNat ∧ (0x03 : BitVec 8).toNat / 4 ≠ (0x04 : BitVec 8).toNat / 4 ∧
      4 ≤ (0xFF : BitVec 8).toNat ∧ (0x5C : BitVec 8).toNat / 4 ≠ (0xFF : BitVec 8).toNat / 4 := by decide
theorem witness_reserved_offsets :
    (0x07 : BitVec 8).toNat / 4 = 1 ∧ 14 ≤ (0x38 : BitVec 8).toNat / 4 ∧ 14 ≤ (0xFF : BitVec 8).toNat / 4 ∧
      (0x38 : BitVec 8).toNat / 4 = 14 ∧ (0x3F : BitVec 8).toNat / 4 = 15 ∧ 24 ≤ (0x60 : BitVec 8).toNat / 4 := by decide
theorem witness_buffer_addresses :
    idle.status.busy = false ∧ Buf.ibuf ≠ .obuf ∧ 65544 < bufferSize idle.params .ibuf ∧
      bufferSize idle.params .ibuf ≤ 65545 ∧ 69999 < bufferSize idle.params .fwbuf ∧
      bufferSize idle.params .fwbuf ≤ 70000 ∧ 979999 < bufferSize idle.params .obuf ∧
      bufferSize idle.params .obuf ≤ 980000 := by decide +kernel
theorem witness_ldin :
    ({ idle with agenda := hostTurns (pseudoLdin [0x31]) } : State).status.busy = false ∧
      [(0x31 : Byte)].length ≤ idle.params.ibufBytes ∧ [(0x31 : Byte)].length < 2 ^ 32 ∧
      ({ idle with agenda := hostTurns (pseudoLdin [0x31]) } : State).agenda = hostTurns (pseudoLdin [0x31]) := by
  decide +kernel

/-! ### Reset, life cycle, invariant, configuration -/

theorem witness_reset_while_busy :
    (pending .reset (inFlight 4 idle)).agenda = .reset :: [] ∧ (pending .reset (inFlight 4 idle)).status.busy = true := by
  decide
theorem witness_invariant :
    BlockInv (inFlight 3 (input [0x31])) ∧
      step (inFlight 3 (input [0x31])) = .next (after .encPdu (inFlight 3 (input [0x31]))) := by
  refine ⟨?_, (sequencerTurn_busy (by decide +kernel)).trans (exec_after _ _)⟩
  unfold BlockInv BuffersWf StatusLegal FieldsAgree
  decide +kernel
theorem witness_termination : (pending .idle (inFlight 0 idle)).status.busy = true := by decide
theorem witness_latency :
    (inFlight 4 idle).status.busy = true ∧
      ∀ x ∈ [Turn.idle, .host (.writeReg 0x08 2), .host (.readReg 0x04)], x = .idle ∨ ∃ a, x = .host a := by
  refine ⟨by decide, fun x hx => ?_⟩
  simp only [List.mem_cons, List.not_mem_nil, or_false] at hx
  rcases hx with rfl | rfl | rfl
  · exact .inl rfl
  · exact .inr ⟨_, rfl⟩
  · exact .inr ⟨_, rfl⟩
theorem witness_configurations :
    ¬(65545 ≤ 65544 ∧ 0 ≤ 2 ^ 31 - 1 ∧ max (65544 + 4) (max (14 * 0) 65545) ≤ 65549) ∧
      (65545 ≤ 65545 ∧ 2 ^ 31 - 1 ≤ 2 ^ 31 - 1 ∧
        max (65545 + 4) (max (14 * (2 ^ 31 - 1)) 65545) ≤ 14 * (2 ^ 31 - 1)) := by decide

end Sys2Proof.Tests
end

section
/-! The check of a configuration (R1, R2). -/

namespace Sys2Proof

theorem RawParams.conforming_iff (c : RawParams) :
    c.conforming = true ↔
      65545 ≤ c.ibufBytes ∧ c.fwMaxBytes ≤ 2 ^ 31 - 1 ∧
        leastObufBytes c.ibufBytes c.fwMaxBytes ≤ c.obufBytes := by
  simp only [RawParams.conforming, Bool.and_eq_true, decide_eq_true_iff, and_assoc]

end Sys2Proof

namespace Sys2Proof.Machine

theorem configure_of_not_conforming {c : RawParams} (h : ¬ c.conforming = true) :
    configure c = .error .nonconformingConfiguration := if_neg h

/-- A conforming configuration is stored by what each size exceeds its least value; under R1 no size is lost by that. -/
theorem configure_of_conforming {c : RawParams} (h : c.conforming = true) :
    ∃ p, configure c = .ok p ∧ p.ibufBytes = c.ibufBytes ∧ p.fwMaxBytes = c.fwMaxBytes ∧
      p.obufBytes = c.obufBytes ∧ p.peerWordSigned = c.peerWordSigned := by
  obtain ⟨hibuf, hfw, hobuf⟩ := c.conforming_iff.mp h
  have ibuf_kept : c.ibufBytes - 65545 + 65545 = c.ibufBytes := Nat.sub_add_cancel hibuf
  have fw_kept : (BitVec.ofNat 31 c.fwMaxBytes).toNat = c.fwMaxBytes :=
    (BitVec.toNat_ofNat _ _).trans (Nat.mod_eq_of_lt (by omega))
  refine ⟨_, if_pos h, ibuf_kept, fw_kept, ?_, rfl⟩
  simp only [Params.obufBytes, Params.ibufBytes, Params.fwMaxBytes, ibuf_kept, fw_kept]
  exact Nat.sub_add_cancel hobuf

/-- Settles O49: the constraints written out in it are those of `RawParams.conforming`. -/
theorem nonconformingConfigurationsAreRefused : Obligations.NonconformingConfigurationsAreRefused := by
  intro c
  exact ⟨fun hbad => configure_of_not_conforming (mt c.conforming_iff.mp hbad),
    fun hgood => configure_of_conforming (c.conforming_iff.mpr hgood)⟩

end Sys2Proof.Machine
end

section
/-! The invariant of the block (R23, R38, R42, R43, R47, R218): what an OK completion may commit, that every instruction
commits no more than that, that every turn of the agenda keeps the invariant. -/

namespace Sys2Proof.Machine

section ResultShapes
variable {α β : Type}

@[simp] theorem andThen_ok (a : α) (f : α → Result β) : andThen (.ok a) f = f a := rfl

/-- A sequence of two rules answers a value only where both do. -/
theorem andThen_eq_ok {r : Result α} {f : α → Result β} {b : β} (h : andThen r f = .ok b) :
    ∃ a, r = .ok a ∧ f a = .ok b := by
  cases r with
  | ok a => exact ⟨a, rfl, h⟩
  | notRecognized => exact nomatch h
  | contractError e => exact nomatch h

end ResultShapes

section Params
variable (p : Params)

theorem ibufBytes_add_four_le_obufBytes : p.ibufBytes + 4 ≤ p.obufBytes := by
  simp only [Params.obufBytes, leastObufBytes]
  omega

theorem longest_frame_le_obufBytes : 65545 ≤ p.obufBytes := by
  simp only [Params.obufBytes, leastObufBytes]
  omega

theorem segmented_le_obufBytes : 14 * p.fwMaxBytes ≤ p.obufBytes := by
  simp only [Params.obufBytes, leastObufBytes]
  omega

/-- R1. -/
theorem fwMaxBytes_lt : p.fwMaxBytes < 2 ^ 31 := p.fwMax.isLt

end Params

/-- What an OK completion may commit in a configuration: an output that fits OBUF (R218), a cursor inside FWBUF (R42),
at most one frame for each firmware byte, or one acknowledgement (R43). -/
def CommitFits (p : Params) (c : Commit) : Prop :=
  c.bytes.length ≤ p.obufBytes ∧
    ∀ cursor frames, c.progress = some (cursor, frames) →
      cursor.toNat ≤ p.fwMaxBytes ∧ frames.toNat ≤ max 1 p.fwMaxBytes

/-- A commit without progress fits where its output does. -/
theorem commitFits_of_output {p : Params} {c : Commit} (hlen : c.bytes.length ≤ p.obufBytes)
    (hnone : c.progress = none) : CommitFits p c :=
  ⟨hlen, fun _ _ h => by simp [hnone] at h⟩

theorem ibufInput_length {s : State} {p : Bytes} (h : ibufInput s = .ok p) : p.length ≤ s.params.ibufBytes := by
  unfold ibufInput at h
  split at h
  next hfits =>
    injection h with h
    rw [← h, memRead_length]
    exact (holds_iff ..).1 hfits
  next => exact nomatch h

theorem firmwareInput_length {s : State} {fw : Bytes} (h : firmwareInput s = .ok fw) :
    fw.length ≤ s.params.fwMaxBytes := by
  unfold firmwareInput at h
  split at h
  next hfits =>
    injection h with h
    rw [← h, memRead_length]
    exact (holds_iff ..).1 hfits
  next => exact nomatch h

/-- No encoded frame is longer than 65545 bytes (R146). -/
theorem encFrame_length_le {v : BitVec 16} {f t c : Nat} {p : Bytes} {ver : Byte} {chk : Bool} {fr : Bytes}
    (h : encFrame v f t c p ver chk = .ok fr) : fr.length ≤ 65545 := by
  obtain ⟨hver, hshort, hlong, rfl⟩ := encFrame_ok h
  rw [frameBytes_length]
  split <;> split <;> omega

theorem decFrame_payload_length_le {F p : Bytes} {exp d : BitVec 16} (h : decFrame F exp = .ok (d, p)) :
    p.length ≤ F.length := by
  obtain ⟨-, -, -, -, -, -, -, rfl⟩ := decFrame_ok h
  rw [slice_length]
  omega

theorem decUpg_content_length_le {m content : Bytes} {op : Byte} (h : decUpg m = .ok (op, content)) :
    content.length ≤ m.length := by
  obtain ⟨-, -, rfl⟩ := decUpg_ok h
  rw [slice_length]
  omega

theorem encUpg_length_le {op : Byte} {c u : Bytes} (h : encUpg op c = .ok u) : u.length ≤ 65545 := by
  obtain ⟨hlen, rfl⟩ := encUpg_ok h
  simp
  omega

theorem recAppVer_payload_length_le {F p : Bytes} {exp d : BitVec 16} (h : recAppVer F exp = .ok (d, p)) :
    p.length ≤ F.length := by
  obtain ⟨⟨d', p'⟩, hframe, h⟩ := andThen_eq_ok h
  dsimp only at h
  split at h
  next =>
    injection h with h
    injection h with _ hp
    exact hp ▸ decFrame_payload_length_le hframe
  next => exact nomatch h

/-- The checks of R211 let only chunks through that a frame can carry. -/
theorem chunkFits_of_checks {g : SegOperands} {avail : Nat} (hver : 3 ≤ g.ver.toNat)
    (hlong : 4 ≤ g.ver.toNat → min (segEff g) avail + 4 ≤ 65535) {k : Nat} (hk : k ≤ min (segEff g) avail) :
    ChunkFits g k := by
  refine ⟨hver, fun h3 => ?_, fun h4 => ?_⟩
  · have heff : segEff g = min g.maxChunk 250 := if_pos (by omega)
    omega
  · have := hlong h4
    omega

theorem one_le_segEff {g : SegOperands} (h : g.maxChunk ≠ 0) : 1 ≤ segEff g := by
  unfold segEff
  split <;> omega

/-- Where the checks of R211 pass, the segmenter answers; it sends all that is available, or one acknowledgement, and
its output takes at most 14 bytes for each firmware byte, or 14 for the acknowledgement (R216 to R218). -/
theorem segEmit_ok {fw : Bytes} {g : SegOperands} (hver : 3 ≤ g.ver.toNat) (hmax : g.maxChunk ≠ 0)
    (hlong : 4 ≤ g.ver.toNat → min (segEff g) (segAvail fw.length g) + 4 ≤ 65535) :
    ∃ q, segEmit fw g = .ok q ∧ q.cur = (segCur2 fw.length g).toNat + segAvail fw.length g ∧
      q.frames ≤ max 1 (segAvail fw.length g) ∧ q.out.length ≤ max 14 (14 * segAvail fw.length g) := by
  obtain ⟨q, hloop, -, hcur, hframes, -, hout, hnone⟩ :=
    segLoop_ok (fw := fw) (one_le_segEff hmax) (fun _ hk => chunkFits_of_checks hver hlong hk) (segAvail fw.length g)
      { out := [], cur := (segCur2 fw.length g).toNat, sent := 0, frames := 0 } (Nat.zero_le _) (Nat.sub_le _ _)
  simp only [Nat.sub_zero, Nat.zero_add, List.length_nil] at hcur hframes hout
  rw [segEmit, hloop, andThen_ok, segAcknowledge]
  by_cases havail : segAvail fw.length g = 0
  · obtain ⟨fr, hfr, -, hlen⟩ := dataFrame_ok (g := g) (m := finalMarker q.cur fw.length) (d := [])
      (chunkFits_of_checks hver hlong (Nat.zero_le _))
    have hack : fr.length ≤ 14 := by
      rw [hlen (by simp), List.length_nil]
      split <;> omega
    rw [if_pos havail, hfr]
    exact ⟨_, rfl, hcur, by simp, by simp only; omega⟩
  · rw [if_neg havail]
    exact ⟨q, rfl, hcur, by omega, by omega⟩

/-- What the segmenter answers when it answers frames: its checks have passed (R211). -/
theorem segmentFn_eq_ok {fw : Bytes} {g : SegOperands} {q : SegProgress} (h : segmentFn fw g = .ok q) :
    3 ≤ g.ver.toNat ∧ g.maxChunk ≠ 0 ∧
      (4 ≤ g.ver.toNat → min (segEff g) (segAvail fw.length g) + 4 ≤ 65535) ∧ segEmit fw g = .ok q := by
  unfold segmentFn at h
  split at h
  · exact nomatch h
  next hver =>
    split at h
    · exact nomatch h
    next hmax =>
      split at h
      · exact nomatch h
      next hlong => exact ⟨by omega, hmax, by omega, h⟩

theorem segmentResult_commitFits {s : State} {c : Commit} (h : segmentResult s = .ok c) : CommitFits s.params c := by
  obtain ⟨fw, hfw, h⟩ := andThen_eq_ok h
  obtain ⟨q, hq, h⟩ := andThen_eq_ok h
  injection h with h
  subst h
  obtain ⟨hver, hmax, hlong, hemit⟩ := segmentFn_eq_ok hq
  obtain ⟨q', hq', hcur, hframes, hout⟩ := segEmit_ok hver hmax hlong
  obtain rfl : q' = q := by
    rw [hq'] at hemit
    injection hemit
  have hsize := firmwareInput_length hfw
  have hrange := segAvail_le fw.length (segOperands s)
  have h31 := fwMaxBytes_lt s.params
  have hobuf := segmented_le_obufBytes s.params
  have hleast := longest_frame_le_obufBytes s.params
  refine ⟨by simp only; omega, fun cursor frames hprogress => ?_⟩
  injection hprogress with hprogress
  injection hprogress with hc hf
  subst hc hf
  simp only [BitVec.toNat_ofNat]
  rw [Nat.mod_eq_of_lt (by omega), Nat.mod_eq_of_lt (by omega)]
  omega

section CommitFits
variable {s : State} {c : Commit}

theorem encPduResult_commitFits (h : encPduResult s = .ok c) : CommitFits s.params c := by
  obtain ⟨p, hp, h⟩ := andThen_eq_ok h
  injection h with h
  subst h
  refine commitFits_of_output ?_ rfl
  have := ibufInput_length hp
  have := ibufBytes_add_four_le_obufBytes s.params
  rw [encPdu_length]
  omega

theorem encFrameResult_commitFits (h : encFrameResult s = .ok c) : CommitFits s.params c := by
  obtain ⟨p, -, h⟩ := andThen_eq_ok h
  obtain ⟨fr, hfr, h⟩ := andThen_eq_ok h
  injection h with h
  subst h
  exact commitFits_of_output ((encFrame_length_le hfr).trans (longest_frame_le_obufBytes _)) rfl

theorem ibufInput_length_le_obufBytes {F : Bytes} (h : ibufInput s = .ok F) : F.length ≤ s.params.obufBytes := by
  have := ibufInput_length h
  have := ibufBytes_add_four_le_obufBytes s.params
  omega

theorem decFrameResult_commitFits (h : decFrameResult s = .ok c) : CommitFits s.params c := by
  obtain ⟨F, hF, h⟩ := andThen_eq_ok h
  obtain ⟨⟨d, p⟩, hp, h⟩ := andThen_eq_ok h
  injection h with h
  subst h
  exact commitFits_of_output ((decFrame_payload_length_le hp).trans (ibufInput_length_le_obufBytes hF)) rfl

theorem encUpgResult_commitFits (h : encUpgResult s = .ok c) : CommitFits s.params c := by
  obtain ⟨p, -, h⟩ := andThen_eq_ok h
  obtain ⟨u, hu, h⟩ := andThen_eq_ok h
  injection h with h
  subst h
  exact commitFits_of_output ((encUpg_length_le hu).trans (longest_frame_le_obufBytes _)) rfl

theorem decUpgResult_commitFits (h : decUpgResult s = .ok c) : CommitFits s.params c := by
  obtain ⟨m, hm, h⟩ := andThen_eq_ok h
  obtain ⟨⟨op, content⟩, hc, h⟩ := andThen_eq_ok h
  injection h with h
  subst h
  exact commitFits_of_output ((decUpg_content_length_le hc).trans (ibufInput_length_le_obufBytes hm)) rfl

theorem recAppverResult_commitFits (h : recAppverResult s = .ok c) : CommitFits s.params c := by
  obtain ⟨F, hF, h⟩ := andThen_eq_ok h
  obtain ⟨⟨d, p⟩, hp, h⟩ := andThen_eq_ok h
  injection h with h
  subst h
  exact commitFits_of_output ((recAppVer_payload_length_le hp).trans (ibufInput_length_le_obufBytes hF)) rfl

theorem recDatareqResult_commitFits (h : recDatareqResult s = .ok c) : CommitFits s.params c := by
  obtain ⟨F, -, h⟩ := andThen_eq_ok h
  obtain ⟨q, -, h⟩ := andThen_eq_ok h
  injection h with h
  subst h
  exact commitFits_of_output (Nat.zero_le _) rfl

/-- Whatever instruction completes with OK, what it commits fits the block. -/
theorem resultOf_commitFits {i : Instr} (h : resultOf i s = .ok c) : CommitFits s.params c := by
  cases i with
  | packHdr | unpackHdr =>
    injection h with h
    subst h
    exact commitFits_of_output (Nat.zero_le _) rfl
  | encPdu => exact encPduResult_commitFits h
  | encFrame => exact encFrameResult_commitFits h
  | decFrame => exact decFrameResult_commitFits h
  | encUpg => exact encUpgResult_commitFits h
  | decUpg => exact decUpgResult_commitFits h
  | recAppver | appverRsp => exact recAppverResult_commitFits h
  | recDatareq | dataBytesReqNtf | upgDataBytesReq => exact recDatareqResult_commitFits h
  | segment | upgDataCmd | upgData => exact segmentResult_commitFits h
  | reservedOp0 | reservedOpB | reservedOpC | reservedOpD | reservedOpE | reservedOpF => exact nomatch h

end CommitFits

section ResultRegisters
variable (r : ResultRegs)

/-- RES_DESC and RES_FIELDS are written together or not at all (R38). -/
theorem fieldsAgree_withDesc (d : Option (BitVec 16)) (h : FieldsAgree r) : FieldsAgree (withDesc d r) := by
  cases d with
  | none => exact h
  | some d => exact ⟨rfl, rfl, rfl⟩

@[simp] theorem fieldsAgree_withUpgOpcode (o : Option Byte) : FieldsAgree (withUpgOpcode o r) ↔ FieldsAgree r := by
  cases o <;> rfl
@[simp] theorem fieldsAgree_withDataRequest (q : Option (Word × Word)) :
    FieldsAgree (withDataRequest q r) ↔ FieldsAgree r := by
  cases q <;> rfl
@[simp] theorem fieldsAgree_withProgress (g : Option (Word × Word)) : FieldsAgree (withProgress g r) ↔
    FieldsAgree r := by
  cases g <;> rfl

@[simp] theorem withDesc_cursor (d : Option (BitVec 16)) : (withDesc d r).cursor = r.cursor := by cases d <;> rfl
@[simp] theorem withDesc_frames (d : Option (BitVec 16)) : (withDesc d r).frames = r.frames := by cases d <;> rfl
@[simp] theorem withUpgOpcode_cursor (o : Option Byte) : (withUpgOpcode o r).cursor = r.cursor := by cases o <;> rfl
@[simp] theorem withUpgOpcode_frames (o : Option Byte) : (withUpgOpcode o r).frames = r.frames := by cases o <;> rfl
@[simp] theorem withDataRequest_cursor (q : Option (Word × Word)) : (withDataRequest q r).cursor = r.cursor := by
  cases q <;> rfl
@[simp] theorem withDataRequest_frames (q : Option (Word × Word)) : (withDataRequest q r).frames = r.frames := by
  cases q <;> rfl

variable (c : Commit)

theorem committedResults_fieldsAgree (h : FieldsAgree r) : FieldsAgree (committedResults c r) := by
  have hdesc : FieldsAgree (withDesc c.desc { r with outLen := outLenWord c.bytes.length }) :=
    fieldsAgree_withDesc _ c.desc h
  simpa [committedResults] using hdesc

theorem committedResults_cursor_of_none (h : c.progress = none) : (committedResults c r).cursor = r.cursor := by
  simp [committedResults, withProgress, h]

theorem committedResults_frames_of_none (h : c.progress = none) : (committedResults c r).frames = r.frames := by
  simp [committedResults, withProgress, h]

variable {c} {cursor frames : Word}

theorem committedResults_cursor_of_some (h : c.progress = some (cursor, frames)) :
    (committedResults c r).cursor = cursor := by
  simp [committedResults, withProgress, h]

theorem committedResults_frames_of_some (h : c.progress = some (cursor, frames)) :
    (committedResults c r).frames = frames := by
  simp [committedResults, withProgress, h]

end ResultRegisters

theorem blockInv_withAgenda {s : State} (rest : List Turn) (h : BlockInv s) : BlockInv (withAgenda rest s) := h

theorem blockInv_startOp {s : State} (op : BitVec 4) (h : BlockInv s) : BlockInv (startOp op s) := by
  obtain ⟨hbuffers, -, hfields, -, hcursor, hframes⟩ := h
  exact ⟨hbuffers, .inl rfl, hfields, fun hr => absurd rfl hr, hcursor, hframes⟩

/-- A state whose registers are at their reset values meets the invariant where its buffers do. -/
theorem blockInv_of_reset_registers {s : State} (hbuffers : BuffersWf s) (hstatus : s.status = .atReset)
    (hresults : s.results = .atReset) : BlockInv s := by
  unfold BlockInv
  rw [hstatus, hresults]
  exact ⟨hbuffers, .inr (.inl rfl), ⟨rfl, rfl, rfl⟩, fun _ => rfl, Nat.zero_le _, Nat.zero_le _⟩

theorem blockInv_applyReset {s : State} (h : BlockInv s) : BlockInv (applyReset s) :=
  blockInv_of_reset_registers h.1 rfl rfl

/-- A byte written inside IBUF or FWBUF keeps the canonical form of the buffer and leaves the rest alone. -/
theorem blockInv_memWrite {s : State} {b : Buf} {a : Nat} {vs : Bytes} (hfits : a + vs.length ≤ bufferSize s.params b)
    (h : BlockInv s) : BlockInv (memWrite b a vs s) := by
  obtain ⟨⟨hibuf, hfwbuf, hobuf⟩, hrest⟩ := h
  cases b with
  | ibuf => exact ⟨⟨writeCells_wf hibuf hfits, hfwbuf, hobuf⟩, hrest⟩
  | fwbuf => exact ⟨⟨hibuf, writeCells_wf hfwbuf hfits, hobuf⟩, hrest⟩
  | obuf => exact ⟨⟨hibuf, hfwbuf, writeCells_wf hobuf hfits⟩, hrest⟩

theorem blockInv_hostAccess {s : State} (a : Access) (h : BlockInv s) : BlockInv (hostAccess a s) := by
  obtain same | ⟨w, answered⟩ | ⟨-, op, started⟩ | ⟨-, r, w, -, written⟩ | ⟨-, b, addr, v, -, hin, written⟩ :=
    hostAccess_cases a s
  · rwa [same]
  · exact answered ▸ h
  · exact started ▸ blockInv_startOp op h
  · exact written ▸ h
  · exact written ▸ blockInv_memWrite hin h

/-- A completion that fails leaves OUT_LEN 0 and a legal STATUS, and commits nothing else (R244, R245). -/
theorem blockInv_of_failure {s t : State} (hbuffers : BuffersWf t) (hlegal : StatusLegal t.status)
    (hresults : t.results = { s.results with outLen := 0 }) (hparams : t.params = s.params) (h : BlockInv s) :
    BlockInv t := by
  obtain ⟨-, -, hfields, -, hcursor, hframes⟩ := h
  unfold BlockInv
  rw [hresults, hparams]
  exact ⟨hbuffers, hlegal, hfields, fun _ => rfl, hcursor, hframes⟩

theorem statusLegal_statusContractError (e : ErrCode) : StatusLegal (statusContractError e) := by
  refine .inr (.inr ⟨rfl, rfl, .inr (.inr ⟨rfl, ?_⟩)⟩)
  cases e <;> decide

theorem blockInv_completeOk {s : State} {c : Commit} (hfits : CommitFits s.params c) (h : BlockInv s) :
    BlockInv (completeOk c s) := by
  obtain ⟨⟨hibuf, hfwbuf, hobuf⟩, -, hfields, -, hcursor, hframes⟩ := h
  obtain ⟨hlen, hprogress⟩ := hfits
  have hout : Memory.wf s.params.obufBytes (writeCells 0 c.bytes s.obuf) := writeCells_wf hobuf (by omega)
  refine ⟨⟨hibuf, hfwbuf, hout⟩, .inr (.inr ⟨rfl, rfl, .inl ⟨rfl, rfl⟩⟩), committedResults_fieldsAgree _ c hfields,
    fun hr => absurd rfl hr, ?_⟩
  rw [completeOk_results, completeOk_params]
  cases hp : c.progress with
  | none =>
    rw [committedResults_cursor_of_none _ _ hp, committedResults_frames_of_none _ _ hp]
    exact ⟨hcursor, hframes⟩
  | some g =>
    rw [committedResults_cursor_of_some _ hp, committedResults_frames_of_some _ hp]
    exact hprogress g.1 g.2 hp

theorem blockInv_completion {s : State} (i : Instr) (h : BlockInv s) : BlockInv (completeWith (resultOf i s) s) := by
  cases hr : resultOf i s with
  | ok c => exact blockInv_completeOk (resultOf_commitFits hr) h
  | notRecognized =>
    exact blockInv_of_failure h.1 (.inr (.inr ⟨rfl, rfl, .inr (.inl ⟨rfl, rfl⟩)⟩)) rfl rfl h
  | contractError e => exact blockInv_of_failure h.1 (statusLegal_statusContractError e) rfl rfl h

theorem blockInv_sequencerTurn {s t : State} (h : BlockInv s) (hturn : sequencerTurn s = .next t) : BlockInv t := by
  obtain ⟨-, rfl⟩ | ⟨-, rfl⟩ := sequencerTurn_cases hturn
  · exact h
  · exact blockInv_completion _ h

/-- Settles O45: each kind of turn keeps the invariant. -/
theorem stepKeepsTheInvariant : Obligations.StepKeepsTheInvariant := by
  intro s t h hstep
  obtain ⟨-, hturn⟩ | ⟨rest, -, hturn⟩ | ⟨a, rest, -, rfl⟩ | ⟨rest, -, rfl⟩ | ⟨rest, -, rfl⟩ := step_cases hstep
  · exact blockInv_sequencerTurn h hturn
  · exact blockInv_sequencerTurn (blockInv_withAgenda rest h) hturn
  · exact blockInv_hostAccess a (blockInv_withAgenda rest h)
  · exact blockInv_withAgenda rest h
  · exact blockInv_applyReset (blockInv_withAgenda rest h)

theorem blockInv_powerOn (p : Params) : BlockInv (State.powerOn p) :=
  blockInv_of_reset_registers ⟨empty_wf _, empty_wf _, empty_wf _⟩ rfl rfl

/-- Settles O44: empty buffers are canonical, and the registers are at their reset values. -/
theorem invariantHoldsAtReset : Obligations.InvariantHoldsAtReset :=
  ⟨blockInv_powerOn, blockInv_powerOn Config.params⟩

end Sys2Proof.Machine
end

section
/-! The registers as the host reads and writes them (R22 to R44, R61): which offsets reach which register, the words of
the registers, reading after writing. -/

namespace Sys2Proof.Machine

section RegisterMap
variable {low low' offset : BitVec 8} {r : Reg}

/-- Offset bits [1:0] are ignored (R61): a register is reached by the word its byte offset lies in. -/
theorem wordIndex_toNat (offset : BitVec 8) : (offset.extractLsb' 2 6).toNat = offset.toNat / 4 := by
  rw [BitVec.extractLsb'_toNat, Nat.shiftRight_eq_div_pow]
  omega

/-- Each register is reached at its four byte offsets. -/
theorem regAt_regOffset_add (r : Reg) (h : low.toNat < 4) : regAt (regOffset r + low) = some r := by
  have hlow : low = 0 ∨ low = 1 ∨ low = 2 ∨ low = 3 := by bv_omega
  rcases hlow with rfl | rfl | rfl | rfl <;> cases r <;> rfl

theorem wordIndex_of_regAt (h : regAt offset = some r) : offset.toNat / 4 = (regOffset r).toNat / 4 := by
  rw [← wordIndex_toNat]
  unfold regAt at h
  split at h <;> cases h <;> assumption

/-- The reserved offsets (R44). -/
theorem regAt_reserved (h : offset.toNat / 4 = 14 ∨ offset.toNat / 4 = 15 ∨ 24 ≤ offset.toNat / 4) :
    regAt offset = none := by
  cases hr : regAt offset with
  | none => rfl
  | some r =>
    rw [wordIndex_of_regAt hr] at h
    exact absurd h (by cases r <;> decide)

theorem hostReadReg_of_regAt (h : regAt offset = some r) (s : State) : hostReadReg offset s = regValue r s := by
  rw [hostReadReg, h]

theorem hostReadReg_regOffset_add (r : Reg) (h : low.toNat < 4) (s : State) :
    hostReadReg (regOffset r + low) s = regValue r s :=
  hostReadReg_of_regAt (regAt_regOffset_add r h) s

/-- A reserved offset reads 0 (R44). -/
theorem hostReadReg_of_no_register (h : regAt offset = none) (s : State) : hostReadReg offset s = 0 := by
  rw [hostReadReg, h]

/-- A write at a reserved offset is ignored (R44). -/
theorem hostWriteReg_of_no_register (h : regAt offset = none) (w : Word) (s : State) : hostWriteReg offset w s = s := by
  rw [hostWriteReg, h]
  exact ite_self s

theorem hostWriteReg_busy {s : State} (h : s.status.busy = true) (offset : BitVec 8) (w : Word) :
    hostWriteReg offset w s = s :=
  if_pos h

/-- The state after a write of a register that is not CMD. -/
def withOperand (r : Reg) (w : Word) (s : State) : State := { s with operands := withRegWritten r w s.operands }

theorem hostWriteReg_idle {s : State} (hidle : s.status.busy = false) (hr : regAt offset = some r) (hcmd : r ≠ .cmd)
    (w : Word) : hostWriteReg offset w s = withOperand r w s := by
  rw [hostWriteReg, hr, if_neg (by simp [hidle])]
  exact if_neg hcmd

/-- A register write that is no write of CMD is ignored, or it replaces one operand register. -/
theorem hostWriteReg_cases (hoffset : 4 ≤ offset.toNat) (w : Word) (s : State) :
    hostWriteReg offset w s = s ∨ ∃ r, regAt offset = some r ∧ hostWriteReg offset w s = withOperand r w s := by
  cases hbusy : s.status.busy with
  | true => exact .inl (hostWriteReg_busy hbusy offset w)
  | false =>
    cases hr : regAt offset with
    | none => exact .inl (hostWriteReg_of_no_register hr w s)
    | some r =>
      have hcmd : r ≠ .cmd := by
        rintro rfl
        have hindex : offset.toNat / 4 = 0 := wordIndex_of_regAt hr
        omega
      exact .inr ⟨r, rfl, hostWriteReg_idle hbusy hr hcmd w⟩

theorem hostReadReg_hostWriteReg {s : State} (hidle : s.status.busy = false) (h : low.toNat < 4) (h' : low'.toNat < 4)
    (hcmd : r ≠ .cmd) (w : Word) :
    hostReadReg (regOffset r + low) (hostWriteReg (regOffset r + low') w s) = regValue r (withOperand r w s) := by
  rw [hostWriteReg_idle hidle (regAt_regOffset_add r h') hcmd, hostReadReg_regOffset_add r h]

end RegisterMap

section RegisterWords

/-- A field of a word is told by its bits. -/
theorem extractLsb'_eq_of_getLsbD {w : Word} {start n : Nat} {x : BitVec n}
    (h : ∀ i < n, w.getLsbD (start + i) = x.getLsbD i) : w.extractLsb' start n = x := by
  refine BitVec.eq_of_getLsbD_eq fun i hi => ?_
  rw [BitVec.getLsbD_extractLsb', h i hi, decide_eq_true hi, Bool.true_and]

/-- The bits of STATUS (R23). -/
theorem statusWord_getLsbD (t : Status) (i : Nat) :
    (statusWord t).getLsbD i =
      if i = 0 then t.busy else if i = 1 then t.done else if i < 4 then t.result.getLsbD (i - 2)
      else if i < 8 then false else t.errCode.getLsbD (i - 8) := by
  show (0#20 ++ t.errCode ++ 0#4 ++ t.result ++ BitVec.ofBool t.done ++ BitVec.ofBool t.busy).getLsbD i = _
  simp only [BitVec.getLsbD_append, BitVec.getLsbD_ofBool, BitVec.getLsbD_zero, Nat.sub_sub]
  grind

theorem statusWord_result (t : Status) : (statusWord t).extractLsb' 2 2 = t.result :=
  extractLsb'_eq_of_getLsbD fun i hi => by
    rw [statusWord_getLsbD]
    grind

theorem statusWord_errCode (t : Status) : (statusWord t).extractLsb' 8 4 = t.errCode :=
  extractLsb'_eq_of_getLsbD fun i hi => by
    rw [statusWord_getLsbD]
    grind

theorem statusWord_reserved (t : Status) : statusWord t &&& 0xFFFFF0F0 = 0 := by
  refine BitVec.eq_of_getLsbD_eq fun i hi => ?_
  rw [BitVec.getLsbD_and, statusWord_getLsbD]
  interval_cases i <;> simp

/-- The bits of RES_FIELDS (R38). -/
theorem resFieldsWord_getLsbD (r : ResultRegs) (i : Nat) :
    (resFieldsWord r).getLsbD i =
      if i < 7 then r.feature.getLsbD i else if i < 8 then false
      else if i < 10 then r.packetType.getLsbD (i - 8) else if i < 16 then false else r.command.getLsbD (i - 16) := by
  show (0#9 ++ r.command ++ 0#6 ++ r.packetType ++ 0#1 ++ r.feature).getLsbD i = _
  simp only [BitVec.getLsbD_append, BitVec.getLsbD_zero, Nat.sub_sub]
  grind

theorem resFieldsWord_feature (r : ResultRegs) : (resFieldsWord r).extractLsb' 0 7 = r.feature :=
  extractLsb'_eq_of_getLsbD fun i hi => by
    rw [resFieldsWord_getLsbD]
    grind

theorem resFieldsWord_packetType (r : ResultRegs) : (resFieldsWord r).extractLsb' 8 2 = r.packetType :=
  extractLsb'_eq_of_getLsbD fun i hi => by
    rw [resFieldsWord_getLsbD]
    grind

theorem resFieldsWord_command (r : ResultRegs) : (resFieldsWord r).extractLsb' 16 7 = r.command :=
  extractLsb'_eq_of_getLsbD fun i hi => by
    rw [resFieldsWord_getLsbD]
    grind

theorem resFieldsWord_reserved (r : ResultRegs) : resFieldsWord r &&& 0xFF80FC80 = 0 := by
  refine BitVec.eq_of_getLsbD_eq fun i hi => ?_
  rw [BitVec.getLsbD_and, resFieldsWord_getLsbD]
  interval_cases i <;> simp

theorem toNat_append_eq_add {m n : Nat} (x : BitVec m) (y : BitVec n) : (x ++ y).toNat = 2 ^ n * x.toNat + y.toNat := by
  rw [BitVec.toNat_append, ← Nat.shiftLeft_add_eq_or_of_lt y.isLt, Nat.shiftLeft_eq, Nat.mul_comm]

/-- The word of CFG (R24). -/
theorem cfgWord_toNat (s : State) :
    (regValue .cfg s).toNat = s.operands.version.toNat + 256 * (if s.operands.useChecksum then 1 else 0) := by
  show (0#23 ++ BitVec.ofBool s.operands.useChecksum ++ s.operands.version).toNat = _
  rw [toNat_append_eq_add, toNat_append_eq_add]
  cases s.operands.useChecksum <;> simp [Nat.add_comm]

/-- The word of HDR_IN (R27). -/
theorem hdrInWord_toNat (s : State) :
    (regValue .hdrIn s).toNat =
      s.operands.featureIn.toNat + 256 * s.operands.typeIn.toNat + 65536 * s.operands.commandIn.toNat := by
  show (0#8 ++ s.operands.commandIn ++ s.operands.typeIn ++ s.operands.featureIn).toNat = _
  rw [toNat_append_eq_add, toNat_append_eq_add, toNat_append_eq_add, BitVec.toNat_zero]
  omega

end RegisterWords

section ReadBack
variable (w : Word) (s : State)

/-- Masking a word to its low bits. -/
theorem toNat_and_lowMask {n : Nat} (hn : n ≤ 32) : (w &&& BitVec.ofNat 32 (2 ^ n - 1)).toNat = w.toNat % 2 ^ n := by
  have hpow : 2 ^ n ≤ 2 ^ 32 := Nat.pow_le_pow_right (by decide) hn
  rw [BitVec.toNat_and, BitVec.toNat_ofNat, Nat.mod_eq_of_lt (by omega), Nat.and_two_pow_sub_one_eq_mod]

theorem setWidth_lowField {n : Nat} (hn : n ≤ 32) :
    (w.extractLsb' 0 n).setWidth 32 = w &&& BitVec.ofNat 32 (2 ^ n - 1) := by
  apply BitVec.eq_of_toNat_eq
  rw [BitVec.toNat_setWidth_of_le hn, toNat_and_lowMask w hn, BitVec.extractLsb'_toNat, Nat.shiftRight_zero]

theorem cfg_readBack : regValue .cfg (withOperand .cfg w s) = w &&& 0x1FF := by
  apply BitVec.eq_of_toNat_eq
  have hmask : (w &&& 0x1FF).toNat = w.toNat % 2 ^ 9 := toNat_and_lowMask w (n := 9) (by decide)
  rw [cfgWord_toNat, hmask]
  simp only [withOperand, withRegWritten, BitVec.extractLsb'_toNat, BitVec.getLsbD, Nat.testBit_eq_decide_div_mod_eq,
    decide_eq_true_iff]
  split <;> omega

theorem hdrIn_readBack : regValue .hdrIn (withOperand .hdrIn w s) = w &&& 0xFFFFFF := by
  apply BitVec.eq_of_toNat_eq
  have hmask : (w &&& 0xFFFFFF).toNat = w.toNat % 2 ^ 24 := toNat_and_lowMask w (n := 24) (by decide)
  rw [hdrInWord_toNat, hmask]
  simp only [withOperand, withRegWritten, BitVec.extractLsb'_toNat, Nat.shiftRight_eq_div_pow]
  omega

/-- Writing one register leaves the word of every other as it was. -/
theorem regValue_withOperand_other {r other : Reg} (h : other ≠ r) :
    regValue other (withOperand r w s) = regValue other s := by
  cases r <;> cases other <;> first | rfl | exact absurd rfl h

/-- A read-only register takes nothing from a write (R44). -/
theorem withOperand_readOnly {r : Reg} (h : (regOffset r).toNat / 4 = 1 ∨ 14 ≤ (regOffset r).toNat / 4) :
    withOperand r w s = s := by
  cases r <;> first | rfl | exact absurd h (by decide)

theorem hostReadReg_hostWriteReg_other {offset other : BitVec 8} (hoffset : 4 ≤ offset.toNat)
    (hother : other.toNat / 4 ≠ offset.toNat / 4) :
    hostReadReg other (hostWriteReg offset w s) = hostReadReg other s := by
  obtain ignored | ⟨r, hr, written⟩ := hostWriteReg_cases hoffset w s
  · rw [ignored]
  · rw [written]
    cases ho : regAt other with
    | none => rw [hostReadReg_of_no_register ho, hostReadReg_of_no_register ho]
    | some r' =>
      have hne : r' ≠ r := by
        rintro rfl
        exact hother ((wordIndex_of_regAt ho).trans (wordIndex_of_regAt hr).symm)
      rw [hostReadReg_of_regAt ho, hostReadReg_of_regAt ho, regValue_withOperand_other w s hne]

end ReadBack

/-- Settles O37: reading back goes register by register; the frame is that of an operand write. -/
theorem operandRegistersReadBack : Obligations.OperandRegistersReadBack := by
  refine ⟨fun s w low low' hidle hlow hlow' => ?_, fun s w offset hoffset => ?_⟩
  · have readBack : ∀ r : Reg, r ≠ .cmd →
        hostReadReg (regOffset r + low) (hostWriteReg (regOffset r + low') w s) = regValue r (withOperand r w s) :=
      fun r hcmd => hostReadReg_hostWriteReg hidle hlow hlow' hcmd w
    have low16 : (w.extractLsb' 0 16).setWidth 32 = w &&& 0xFFFF := setWidth_lowField w (by decide)
    have low8 : (w.extractLsb' 0 8).setWidth 32 = w &&& 0xFF := setWidth_lowField w (by decide)
    exact ⟨(readBack .cfg nofun).trans (cfg_readBack w s), (readBack .vendor nofun).trans low16,
      (readBack .expect nofun).trans low16, (readBack .hdrIn nofun).trans (hdrIn_readBack w s),
      (readBack .descIn nofun).trans low16, readBack .inLen nofun, (readBack .upgOp nofun).trans low8,
      readBack .fwLen nofun, readBack .cursor nofun, readBack .req nofun, readBack .rewind nofun,
      readBack .maxPkt nofun⟩
  · have others := fun other => hostReadReg_hostWriteReg_other w s (other := other) hoffset
    obtain ignored | ⟨r, -, written⟩ := hostWriteReg_cases hoffset w s
    · rw [ignored] at others ⊢
      exact ⟨rfl, rfl, rfl, rfl, rfl, rfl, rfl, rfl, others⟩
    · rw [written] at others ⊢
      exact ⟨rfl, rfl, rfl, rfl, rfl, rfl, rfl, rfl, others⟩

/-- Settles O38: an offset outside the operand registers reaches no register, or one that takes nothing. -/
theorem reservedAndReadOnlyRegisters : Obligations.ReservedAndReadOnlyRegisters := by
  intro s w offset
  refine ⟨fun hoffset => ?_, fun hreserved => hostReadReg_of_no_register (regAt_reserved hreserved) s⟩
  have hstart : 4 ≤ offset.toNat := by omega
  obtain ignored | ⟨r, hr, written⟩ := hostWriteReg_cases hstart w s
  · exact ignored
  · rw [wordIndex_of_regAt hr] at hoffset
    exact written.trans (withOperand_readOnly w s hoffset)

/-- Settles O39: the two words bit by bit. -/
theorem statusAndFieldsWords : Obligations.StatusAndFieldsWords := fun s =>
  ⟨statusWord_getLsbD s.status 0, statusWord_getLsbD s.status 1, statusWord_result s.status,
    statusWord_errCode s.status, statusWord_reserved s.status, resFieldsWord_feature s.results,
    resFieldsWord_packetType s.results, resFieldsWord_command s.results, resFieldsWord_reserved s.results⟩

/-- Settles O50: every register is reached at its four offsets, and its word holds its fields. -/
theorem registersReadAsTheirFields : Obligations.RegistersReadAsTheirFields := by
  intro s low hlow
  have reads : ∀ r : Reg, hostReadReg (regOffset r + low) s = regValue r s :=
    fun r => hostReadReg_regOffset_add r hlow s
  have readsField : ∀ (r : Reg) {n : Nat} (x : BitVec n), n ≤ 32 → regValue r s = x.setWidth 32 →
      (hostReadReg (regOffset r + low) s).toNat = x.toNat :=
    fun r _ x hn hvalue => by rw [reads r, hvalue, BitVec.toNat_setWidth_of_le hn]
  exact ⟨readsField .cmd s.operands.op (by decide) rfl, reads .status,
    (congrArg BitVec.toNat (reads .cfg)).trans (cfgWord_toNat s),
    readsField .vendor s.operands.vendorId (by decide) rfl,
    readsField .expect s.operands.expectedVendor (by decide) rfl,
    (congrArg BitVec.toNat (reads .hdrIn)).trans (hdrInWord_toNat s),
    readsField .descIn s.operands.descIn (by decide) rfl, reads .inLen,
    readsField .upgOp s.operands.upgOpcode (by decide) rfl, reads .fwLen, reads .cursor, reads .req, reads .rewind,
    reads .maxPkt, reads .outLen, readsField .resDesc s.results.desc (by decide) rfl, reads .resFields,
    readsField .resUpgOp s.results.upgOpcode (by decide) rfl, reads .resReq, reads .resMoveBy, reads .resCursor,
    reads .resFrames⟩

end Sys2Proof.Machine
end

section
/-! The decoder and the encoder are inverse (R22, R65, R90 to R92, R95, R96). -/

namespace Sys2Proof

/-- The format of a code. -/
def codeFormat : Code → Format
  | .cmd _ => .cmd
  | .desc _ => .wireDesc
  | .upg _ => .wireUpg

theorem formatOf_eq_codeFormat (i : Instr) : formatOf i = codeFormat (encode i) := by
  unfold formatOf
  cases encode i <;> rfl

/-- A code with the bits that its row ignores put to 0 (R22). -/
def canonicalCode : Code → Code
  | .cmd wdata => .cmd ((wdata.extractLsb' 0 4).setWidth 32)
  | .desc d => .desc d
  | .upg v => .upg v

theorem codeFormat_canonicalCode (c : Code) : codeFormat (canonicalCode c) = codeFormat c := by cases c <;> rfl

theorem decode_encode (i : Instr) : decode (encode i) = .ok i := by
  cases i with
  | upgData contentLength => exact Laws.Codec.upgData contentLength
  | _ => rfl

theorem encode_decodeOp (op : BitVec 4) : encode (decodeOp op) = .cmd (op.setWidth 32) := by
  revert op
  decide

theorem encode_of_decodeDesc {d : BitVec 16} {i : Instr} (h : decodeDesc d = .ok i) : encode i = .desc d := by
  unfold decodeDesc at h
  split_ifs at h with happver hrequest hdata <;> cases h
  · exact congrArg Code.desc happver.symm
  · exact congrArg Code.desc hrequest.symm
  · exact congrArg Code.desc hdata.symm

/-- An upgrade-message header is its opcode and its length. -/
theorem upgHeader_eq_append (v : BitVec 24) : v.extractLsb' 16 8 ++ v.extractLsb' 0 16 = v :=
  BitVec.extractLsb'_append_extractLsb' (w := 8) (len := 16)

theorem encode_of_decodeUpgHeader {v : BitVec 24} {i : Instr} (h : decodeUpgHeader v = .ok i) : encode i = .upg v := by
  unfold decodeUpgHeader at h
  split_ifs at h with hrequest hdata <;> cases h
  · exact congrArg Code.upg hrequest.symm
  · have hv := upgHeader_eq_append v
    rw [hdata] at hv
    exact congrArg Code.upg hv

/-- Only the code of an instruction decodes to it, but for the ignored bits. -/
theorem encode_of_decode {c : Code} {i : Instr} (h : decode c = .ok i) : encode i = canonicalCode c := by
  cases c with
  | cmd wdata =>
    cases h
    exact encode_decodeOp _
  | desc d => exact encode_of_decodeDesc h
  | upg v => exact encode_of_decodeUpgHeader h

section CodeBytes
variable (c : Code) (rest : Bytes)

theorem be16_append (b0 b1 : Byte) : Machine.be16 (b0 ++ b1) = [b0, b1] := by
  rw [Machine.be16, BitVec.extractLsb'_append_eq_of_le (by decide), BitVec.extractLsb'_append_eq_of_add_le (by decide),
    BitVec.extractLsb'_eq_self, BitVec.extractLsb'_eq_self]

theorem be24_append (b0 b1 b2 : Byte) : Machine.be24 (b0 ++ b1 ++ b2) = [b0, b1, b2] := by
  rw [Machine.be24, BitVec.extractLsb'_append_eq_of_le (by decide), BitVec.extractLsb'_append_eq_of_le (by decide),
    BitVec.extractLsb'_append_eq_of_le (by decide), BitVec.extractLsb'_append_eq_of_add_le (by decide),
    BitVec.extractLsb'_append_eq_of_add_le (by decide), BitVec.extractLsb'_eq_self, BitVec.extractLsb'_eq_self,
    BitVec.extractLsb'_eq_self]

/-- The three bytes of a 24-bit value make it again. -/
theorem thirds24 (v : BitVec 24) : v.extractLsb' 16 8 ++ v.extractLsb' 8 8 ++ v.extractLsb' 0 8 = v := by
  rw [BitVec.extractLsb'_append_extractLsb'_eq_extractLsb' (by decide)]
  exact BitVec.extractLsb'_append_extractLsb' (w := 16) (len := 8)

/-- A code read back from its bytes: of a CMD word the low byte is left. -/
def readBackCode : Code → Code
  | .cmd wdata => .cmd ((wdata.setWidth 8).setWidth 32)
  | .desc d => .desc d
  | .upg v => .upg v

theorem readCode_codeBytes : readCode (codeFormat c) (codeBytes c ++ rest) = .ok (readBackCode c, rest) := by
  cases c with
  | cmd wdata => rfl
  | desc d => exact congrArg (fun x => Except.ok (Code.desc x, rest)) (Machine.halves16 d)
  | upg v => exact congrArg (fun x => Except.ok (Code.upg x, rest)) (thirds24 v)

/-- OP lies in the low byte. -/
theorem decode_readBackCode : decode (readBackCode c) = decode c := by
  cases c with
  | cmd wdata =>
    have hop : ((wdata.setWidth 8).setWidth 32).extractLsb' 0 4 = wdata.extractLsb' 0 4 := by
      rw [BitVec.extractLsb'_setWidth_of_le (by decide), BitVec.extractLsb'_setWidth_of_le (by decide)]
    exact congrArg (fun op => Except.ok (decodeOp op)) hop
  | desc d => rfl
  | upg v => rfl

variable {c rest} {f : Format} {bytes : Bytes} {i : Instr}

/-- What the reader answers stands in the bytes before the rest. -/
theorem readCode_eq_ok (h : readCode f bytes = .ok (c, rest)) : codeFormat c = f ∧ bytes = codeBytes c ++ rest := by
  unfold readCode at h
  split at h <;> cases h
  · exact ⟨rfl, by rw [codeBytes, BitVec.setWidth_setWidth_of_le _ (by decide), BitVec.setWidth_eq]; rfl⟩
  · exact ⟨rfl, by rw [codeBytes, be16_append]; rfl⟩
  · exact ⟨rfl, by rw [codeBytes, be24_append]; rfl⟩

/-- The decoder decodes the code that it reads. -/
theorem decodeBytes_of_readCode (h : readCode f bytes = .ok (c, rest)) :
    decodeBytes f bytes = (decode c).map fun i => (i, rest) := by
  rw [decodeBytes, h]
  dsimp only
  cases decode c <;> rfl

theorem decodeBytes_eq_ok (h : decodeBytes f bytes = .ok (i, rest)) :
    ∃ c, readCode f bytes = .ok (c, rest) ∧ decode c = .ok i := by
  unfold decodeBytes at h
  split at h
  next => exact nomatch h
  next c rest' hread =>
    split at h
    next => exact nomatch h
    next hdecode =>
      cases h
      exact ⟨c, hread, hdecode⟩

variable (c rest)

/-- A code laid out as bytes decodes as the code does. -/
theorem decodeBytes_codeBytes :
    decodeBytes (codeFormat c) (codeBytes c ++ rest) = (decode c).map fun i => (i, rest) := by
  rw [decodeBytes_of_readCode (readCode_codeBytes c rest), decode_readBackCode]

end CodeBytes

theorem codeBytes_canonicalCode_length (c : Code) : (codeBytes (canonicalCode c)).length = (codeBytes c).length := by
  cases c <;> rfl

/-- Of a CMD byte bits [3:0] are OP. -/
theorem lowBits_codeBytes_canonicalCode (wdata : Word) :
    (Machine.byteAt (codeBytes (.cmd wdata)) 0).extractLsb' 0 4 =
      (Machine.byteAt (codeBytes (canonicalCode (.cmd wdata))) 0).extractLsb' 0 4 := by
  show (wdata.setWidth 8).extractLsb' 0 4 = (((wdata.extractLsb' 0 4).setWidth 32).setWidth 8).extractLsb' 0 4
  rw [BitVec.extractLsb'_setWidth_of_le (by decide), BitVec.extractLsb'_setWidth_of_le (by decide),
    BitVec.extractLsb'_setWidth_of_le (by decide), BitVec.extractLsb'_eq_self]

/-- Settles O1: what is decoded is a code in the instruction's own format, in front of the rest, and it is the encoding
but for the bits of a CMD word that are ignored. -/
theorem instructionCodesRoundTrip : Obligations.InstructionCodesRoundTrip := by
  refine ⟨fun i rest => ?_, fun f bytes rest i h => ?_⟩
  · rw [formatOf_eq_codeFormat, encodeBytes, decodeBytes_codeBytes, decode_encode]
    rfl
  · obtain ⟨c, hread, hdecode⟩ := decodeBytes_eq_ok h
    obtain ⟨rfl, rfl⟩ := readCode_eq_ok hread
    have hencode : encode i = canonicalCode c := encode_of_decode hdecode
    rw [formatOf_eq_codeFormat, encodeBytes, hencode]
    refine ⟨codeFormat_canonicalCode c, codeBytes c, rfl, (codeBytes_canonicalCode_length c).symm, fun hcmd => ?_,
      fun hwire => ?_⟩
    · cases c with
      | cmd wdata => exact lowBits_codeBytes_canonicalCode wdata
      | desc | upg => exact nomatch hcmd
    · cases c with
      | cmd => exact absurd rfl hwire
      | desc | upg => rfl

theorem formatOfTableWord_eq (nbits w : Nat) : formatOfTableWord nbits = codeFormat (codeOfTableWord nbits w) := by
  unfold formatOfTableWord codeOfTableWord
  split_ifs <;> rfl

/-- A table word decodes as its value does. -/
theorem decodeTableWord_eq (nbits w : Nat) :
    decodeTableWord nbits w = (decode (codeOfTableWord nbits w)).toOption := by
  have hbytes := decodeBytes_codeBytes (codeOfTableWord nbits w) []
  rw [List.append_nil] at hbytes
  rw [decodeTableWord, formatOfTableWord_eq nbits w, hbytes]
  cases decode (codeOfTableWord nbits w) <;> rfl

theorem decode_of_decodeTableWord {nbits w : Nat} {i : Instr} (h : decodeTableWord nbits w = some i) :
    decode (codeOfTableWord nbits w) = .ok i := by
  rw [decodeTableWord_eq] at h
  cases hdecode : decode (codeOfTableWord nbits w) with
  | ok j =>
    rw [hdecode] at h
    cases h
    rfl
  | error e =>
    rw [hdecode] at h
    exact nomatch h

/-- Settles O2: each word is looked up in the rows of its format. -/
theorem tableWordsDecode : Obligations.TableWordsDecode := by
  unfold Obligations.TableWordsDecode
  simp only [decodeTableWord_eq]
  decide

end Sys2Proof
end

section
/-! The operation in flight: which operation completes an instruction, what a step does with it (R46, R72, R273,
R275). -/

namespace Sys2Proof.Machine

/-- The operation code whose rule the row of an instruction names: its own, or for a wire selector that of the operation
that consumes or emits the value. -/
def operationCode : Instr → BitVec 4
  | .packHdr => 0x1
  | .unpackHdr => 0x2
  | .encPdu => 0x3
  | .encFrame => 0x4
  | .decFrame => 0x5
  | .encUpg => 0x6
  | .decUpg => 0x7
  | .recAppver => 0x8
  | .recDatareq => 0x9
  | .segment => 0xA
  | .reservedOp0 => 0x0
  | .reservedOpB => 0xB
  | .reservedOpC => 0xC
  | .reservedOpD => 0xD
  | .reservedOpE => 0xE
  | .reservedOpF => 0xF
  | .appverRsp => 0x8
  | .dataBytesReqNtf => 0x9
  | .upgDataBytesReq => 0x9
  | .upgDataCmd => 0xA
  | .upgData _ => 0xA

/-- An instruction completes as the operation of its code does. -/
theorem exec_decodeOp_operationCode (i : Instr) (s : State) : exec (decodeOp (operationCode i)) s = exec i s := by
  cases i <;> rfl

theorem operationCode_decodeOp (op : BitVec 4) : operationCode (decodeOp op) = op := by
  revert op
  decide

/-- An operation carries an instruction only if it is the instruction's operation. -/
theorem op_of_carries {i : Instr} {s : State} (h : carries i s = true) : s.operands.op = operationCode i := by
  cases i with
  | appverRsp | dataBytesReqNtf | upgDataBytesReq | upgDataCmd | upgData =>
    simp only [carries, Bool.and_eq_true, beq_iff_eq, and_assoc] at h
    exact h.1
  | _ => exact eq_of_beq h

/-- The operation of CMD.OP is carried. -/
theorem carries_decodeOp (s : State) : carries (decodeOp s.operands.op) s = true := by
  have hop : s.operands.op = operationCode (decodeOp s.operands.op) := (operationCode_decodeOp _).symm
  have hcmd : encode (decodeOp s.operands.op) = .cmd (s.operands.op.setWidth 32) := encode_decodeOp _
  generalize decodeOp s.operands.op = i at hop hcmd
  cases i with
  | appverRsp | dataBytesReqNtf | upgDataBytesReq | upgDataCmd | upgData => exact nomatch hcmd
  | _ => exact beq_iff_eq.2 hop

theorem step_of_no_turns {s : State} (h : s.agenda = []) : step s = sequencerTurn s := by
  rw [step, h]

theorem step_of_sequencer {s : State} {rest : List Turn} (h : s.agenda = .sequencer :: rest) :
    step s = sequencerTurn { s with agenda := rest } := by
  rw [step, h]

theorem step_of_idle {s : State} {rest : List Turn} (h : s.agenda = .idle :: rest) :
    step s = .next { s with agenda := rest } := by
  rw [step, h]

/-- The sequencer's turn is exec of every instruction whose operation is in flight. -/
theorem sequencerTurn_eq_exec {i : Instr} {s : State} (hbusy : s.status.busy = true)
    (hop : s.operands.op = operationCode i) : sequencerTurn s = exec i s := by
  rw [sequencerTurn_busy hbusy, fetch, hop, exec_decodeOp_operationCode]

/-- Settles O3: an instruction that is fetched or carried is one of the operation in flight. -/
theorem stepRunsTheInstructionInFlight : Obligations.StepRunsTheInstructionInFlight := by
  refine ⟨fun s i hbusy hi => ?_, fun s hidle => ⟨fun hturns => ?_, fun rest hturns => ?_⟩,
    fun s rest => step_of_idle⟩
  · have hop : s.operands.op = operationCode i := by
      rcases hi with rfl | hcarried
      · exact (operationCode_decodeOp _).symm
      · exact op_of_carries hcarried
    exact ⟨fun hturns => (step_of_no_turns hturns).trans (sequencerTurn_eq_exec hbusy hop),
      fun rest hturns => (step_of_sequencer hturns).trans (sequencerTurn_eq_exec hbusy hop)⟩
  · exact (step_of_no_turns hturns).trans (sequencerTurn_idle hidle)
  · exact (step_of_sequencer hturns).trans (sequencerTurn_idle hidle)

end Sys2Proof.Machine
end

section
/-! Placing a table word: what withFetchWord puts where, and that the operation in flight carries the word (R46, R72,
R95, R274). -/

namespace Sys2Proof.Machine

/-- What every placing has in common: the operation is in flight, the sequencer's turn is next, and the result
registers, the configuration, the answers, FWBUF and OBUF are kept. -/
structure Placed (op : BitVec 4) (s t : State) : Prop where
  op_eq : t.operands.op = op
  status_eq : t.status = statusStarted
  results_eq : t.results = s.results
  params_eq : t.params = s.params
  agenda_eq : t.agenda = sequencerNext s.agenda
  answers_eq : t.answers = s.answers
  fwbuf_eq : t.fwbuf = s.fwbuf
  obuf_eq : t.obuf = s.obuf

theorem placeOp_placed (op : BitVec 4) (s : State) : Placed op s (placeOp op s) :=
  ⟨rfl, rfl, rfl, rfl, rfl, rfl, rfl, rfl⟩

theorem placeCandidate_placed (op : BitVec 4) (frame : Bytes) (s : State) : Placed op s (placeCandidate op frame s) :=
  ⟨rfl, rfl, rfl, rfl, rfl, rfl, rfl, rfl⟩

theorem placeSegment_placed (chunk : Nat) (s : State) : Placed 0xA s (placeSegment chunk s) :=
  ⟨rfl, rfl, rfl, rfl, rfl, rfl, rfl, rfl⟩

/-- The instruction of a placed operation runs in the very next step. -/
theorem Placed.step_eq {i : Instr} {s t : State} (h : Placed (operationCode i) s t) :
    step t = exec i { t with agenda := s.agenda } := by
  have hbusy : t.status.busy = true := by rw [h.status_eq]; rfl
  by_cases hturns : s.agenda = []
  · have hnone : t.agenda = [] := by rw [h.agenda_eq, sequencerNext, if_pos hturns]
    rw [step_of_no_turns hnone, sequencerTurn_eq_exec hbusy h.op_eq, hturns, ← hnone]
  · have hnext : t.agenda = .sequencer :: s.agenda := by rw [h.agenda_eq, sequencerNext, if_neg hturns]
    rw [step_of_sequencer hnext]
    exact sequencerTurn_eq_exec hbusy h.op_eq

section Candidates
variable {op : BitVec 4} {frame : Bytes} {s : State}

/-- The placed candidate is the recognizer's input. -/
theorem placeCandidate_input (h : frame.length ≤ 65545) : InputIs frame (placeCandidate op frame s) := by
  have hibuf := leastSize_le s.params .ibuf
  refine ⟨?_, h.trans hibuf, fun i hi => ?_⟩
  · show (BitVec.ofNat 32 frame.length).toNat = frame.length
    rw [BitVec.toNat_ofNat, Nat.mod_eq_of_lt (by omega)]
  · have hbyte := bufferByte_memWrite .ibuf 0 frame s i
    rw [dif_pos (by omega)] at hbyte
    exact hbyte

/-- The candidate frame is a frame from the expected vendor with the given description and payload. -/
theorem decFrame_candidateFrame (d : BitVec 16) {p : Bytes} (hp : p.length ≤ 255) (s : State) :
    decFrame (candidateFrame d p s) s.operands.expectedVendor = .ok (d, p) := by
  have hlen : (candidateFrame d p s).length = 8 + p.length := by
    simp only [candidateFrame, List.length_append, be16_length, List.length_cons, List.length_nil]
  have hstart : byteAt (candidateFrame d p s) 0 = startMarker := rfl
  have hversion : byteAt (candidateFrame d p s) 1 = 0x03 := rfl
  have hheader : headerLength (candidateFrame d p s) = 4 := rfl
  have hchecksum : checksumCount (candidateFrame d p s) = 0 := if_neg (by simp [flagChk, byteAt, candidateFrame])
  have hdeclared : declaredLength (candidateFrame d p s) = p.length := by
    show (BitVec.ofNat 8 p.length).toNat = p.length
    rw [BitVec.toNat_ofNat, Nat.mod_eq_of_lt (by omega)]
  have hvendor : rd16 (candidateFrame d p s) 4 = s.operands.expectedVendor := halves16 _
  have hdesc : rd16 (candidateFrame d p s) 6 = d := halves16 d
  have hpayload : slice (candidateFrame d p s) 8 (8 + p.length) = p := by
    rw [slice, Nat.add_sub_cancel_left]
    exact List.take_length
  unfold decFrame
  rw [hstart, hversion, hheader, hchecksum, hdeclared, hlen, if_neg (by omega), if_neg (not_not.2 rfl),
    if_neg (by decide), if_neg (by omega), if_neg (by omega), if_neg (by simp), if_neg (not_not.2 hvendor), hdesc,
    hpayload]

variable {d : BitVec 16} {p : Bytes}

theorem placed_candidate_parses (hp : p.length ≤ 255) :
    (andThen (ibufInput (placeCandidate op (candidateFrame d p s) s)) fun F =>
      decFrame F (placeCandidate op (candidateFrame d p s) s).operands.expectedVendor) = .ok (d, p) := by
  have hlen : (candidateFrame d p s).length ≤ 65545 := by
    simp only [candidateFrame, List.length_append, be16_length, List.length_cons, List.length_nil]
    omega
  rw [ibufInput_ok (placeCandidate_input hlen), andThen_ok]
  exact decFrame_candidateFrame d hp s

theorem placed_candidateDescIs (hp : p.length ≤ 255) :
    candidateDescIs d (placeCandidate op (candidateFrame d p s) s) = true := by
  unfold candidateDescIs
  rw [placed_candidate_parses hp]
  exact beq_self_eq_true d

theorem placed_candidateUpgIs {v : BitVec 24} (hp : p.length ≤ 255) (hv : p.take 3 = be24 v) :
    candidateUpgIs v (placeCandidate op (candidateFrame d p s) s) = true := by
  unfold candidateUpgIs
  rw [placed_candidate_parses hp]
  exact decide_eq_true hv

end Candidates

section Segments

/-- Where the checks of R211 pass, the segmenter goes on to its steps. -/
theorem segmentFn_eq_segEmit {fw : Bytes} {g : SegOperands} (hver : 3 ≤ g.ver.toNat) (hmax : g.maxChunk ≠ 0)
    (hlong : 4 ≤ g.ver.toNat → min (segEff g) (segAvail fw.length g) + 4 ≤ 65535) :
    segmentFn fw g = segEmit fw g := by
  rw [segmentFn, if_neg (by omega), if_neg hmax, if_neg (by omega)]

/-- A word below 2^31 reads as its value, signed and unsigned (R4). -/
theorem sext_of_lt {v : Word} (h : v.toNat < 2 ^ 31) : sext v = v.toNat :=
  sext_eq_zext (Nat.testBit_lt_two_pow h)

theorem peerWord_of_lt (p : Params) {v : Word} (h : v.toNat < 2 ^ 31) : peerWord p v = v.toNat := by
  rw [peerWord_eq, sext_of_lt h]
  exact ite_self _

variable {chunk : Nat} {s : State}

/-- The operands of the placed SEGMENT: it sends one chunk from the start. -/
theorem placeSegment_segOperands (h : chunk ≤ 65531) :
    segOperands (placeSegment chunk s) =
      { cur0 := 0, req := chunk, rew := 0, maxChunk := max 1 chunk, ver := 4, chk := s.operands.useChecksum } := by
  have hreq : (BitVec.ofNat 32 chunk).toNat = chunk := by rw [BitVec.toNat_ofNat, Nat.mod_eq_of_lt (by omega)]
  have hmax : (BitVec.ofNat 32 (max 1 chunk)).toNat = max 1 chunk := by
    rw [BitVec.toNat_ofNat, Nat.mod_eq_of_lt (by omega)]
  show SegOperands.mk (sext 0) (peerWord s.params (BitVec.ofNat 32 chunk)) (peerWord s.params 0)
    (BitVec.ofNat 32 (max 1 chunk)).toNat 4 s.operands.useChecksum = _
  rw [sext_of_lt (by decide), peerWord_of_lt _ (by omega), peerWord_of_lt _ (by decide), hreq, hmax]
  rfl

theorem placeSegment_segAvail (h : chunk ≤ 65531) : segAvail chunk (segOperands (placeSegment chunk s)) = chunk := by
  rw [placeSegment_segOperands h]
  simp [segAvail, segCur2, segCur1, clamp]

theorem placeSegment_segEff (h : chunk ≤ 65531) : segEff (segOperands (placeSegment chunk s)) = max 1 chunk := by
  rw [placeSegment_segOperands h]
  rfl

theorem placeSegment_fwLen (h : chunk ≤ 65531) : (placeSegment chunk s).operands.fwLen.toNat = chunk := by
  show (BitVec.ofNat 32 chunk).toNat = chunk
  rw [BitVec.toNat_ofNat, Nat.mod_eq_of_lt (by omega)]

/-- A placed SEGMENT whose chunk fits FWBUF and a frame emits frames. -/
theorem placeSegment_segmentEmits (hchunk : chunk ≤ 65531) (hfw : chunk ≤ s.params.fwMaxBytes) :
    segmentEmits (placeSegment chunk s) = true := by
  have hlen := placeSegment_fwLen (s := s) hchunk
  have hinput := firmwareInput_ok (firmwareIs_memRead (s := placeSegment chunk s) (by rw [hlen]; exact hfw))
  have hfit : (memRead .fwbuf 0 (placeSegment chunk s).operands.fwLen.toNat (placeSegment chunk s)).length = chunk := by
    rw [memRead_length, hlen]
  generalize memRead .fwbuf 0 (placeSegment chunk s).operands.fwLen.toNat (placeSegment chunk s) = fw at hinput hfit
  have hver : (segOperands (placeSegment chunk s)).ver = 4 := rfl
  have hmax : (segOperands (placeSegment chunk s)).maxChunk ≠ 0 := by
    rw [placeSegment_segOperands hchunk]
    simp only
    omega
  have hlong : min (segEff (segOperands (placeSegment chunk s)))
      (segAvail fw.length (segOperands (placeSegment chunk s))) + 4 ≤ 65535 := by
    rw [hfit, placeSegment_segAvail hchunk]
    omega
  have hthree : 3 ≤ (segOperands (placeSegment chunk s)).ver.toNat := by rw [hver]; decide
  obtain ⟨q, hemit, -⟩ := segEmit_ok hthree hmax (fun _ => hlong)
  unfold segmentEmits segmentResult
  rw [hinput, andThen_ok, segmentFn_eq_segEmit hthree hmax (fun _ => hlong), hemit, andThen_ok]

/-- A firmware that one chunk holds is sent as that chunk. -/
theorem segChunkLengths_one_chunk (chunk : Nat) : segChunkLengths (max 1 chunk) chunk = [chunk] := by
  rcases Nat.eq_zero_or_pos chunk with rfl | hpos
  · rfl
  · simp [segChunkLengths, Nat.max_eq_right hpos, hpos.ne', Nat.div_self hpos]

end Segments

section PlaceCode
variable (s : State)

theorem placeCode_appverRsp :
    placeCode (.desc 0x0105) s = placeCandidate 0x8 (candidateFrame 0x0105 [] s) s := rfl

theorem placeCode_dataBytesReqNtf :
    placeCode (.desc 0x0C80) s =
      placeCandidate 0x9 (candidateFrame 0x0C80 (be24 0x030008 ++ List.replicate 8 0) s) s := rfl

theorem placeCode_upgDataCmd : placeCode (.desc 0x0C02) s = placeSegment 0 s := rfl

theorem placeCode_upgDataBytesReq :
    placeCode (.upg 0x030008) s =
      placeCandidate 0x9 (candidateFrame 0x0C80 (be24 0x030008 ++ List.replicate 8 0) s) s := rfl

theorem placeCode_upgData (n : BitVec 16) : placeCode (.upg (0x04#8 ++ n)) s = placeSegment (n.toNat - 1) s := by
  have hopcode : (0x04#8 ++ n).extractLsb' 16 8 = 0x04 := by
    rw [BitVec.extractLsb'_append_eq_of_le (by decide), BitVec.extractLsb'_eq_self]
    rfl
  have hlength : (0x04#8 ++ n).extractLsb' 0 16 = n := by
    rw [BitVec.extractLsb'_append_eq_of_add_le (by decide), BitVec.extractLsb'_eq_self]
  rw [placeCode, if_pos hopcode, hlength]

/-- The code that an instruction of a wire row is placed by. -/
theorem code_of_decode_wire {c : Code} {i : Instr} (h : decode c = .ok i) (hwire : formatOf i ≠ .cmd) :
    c = encode i := by
  have hencode := encode_of_decode h
  rw [formatOf_eq_codeFormat, hencode, codeFormat_canonicalCode] at hwire
  cases c with
  | cmd => exact absurd rfl hwire
  | desc | upg => exact hencode.symm

/-- The placing of a code puts the operation of its instruction in flight. -/
theorem placeCode_placed {c : Code} {i : Instr} (h : decode c = .ok i) :
    Placed (operationCode i) s (placeCode c s) := by
  by_cases hcmd : formatOf i = .cmd
  · cases c with
    | cmd wdata =>
      cases h
      rw [operationCode_decodeOp]
      exact placeOp_placed _ s
    | desc | upg =>
      rw [formatOf_eq_codeFormat, encode_of_decode h] at hcmd
      exact nomatch hcmd
  · rw [code_of_decode_wire h hcmd]
    cases i with
    | appverRsp | dataBytesReqNtf | upgDataBytesReq => exact placeCandidate_placed _ _ s
    | upgDataCmd => exact placeSegment_placed 0 s
    | upgData n => exact placeCode_upgData s n ▸ placeSegment_placed _ s
    | _ => exact absurd rfl hcmd

/-- The operation that is put in flight carries the instruction; a SEGMENT does so if the message fits FWBUF and
a frame. -/
theorem carries_placeCode {c : Code} {i : Instr} (h : decode c = .ok i)
    (hdata : ∀ n, i = .upgData n → Instr.wellFormed i = true ∧ n.toNat ≤ s.params.fwMaxBytes + 1) :
    carries i (placeCode c s) = true := by
  have hop := (placeCode_placed s h).op_eq
  by_cases hcmd : formatOf i = .cmd
  · have hi : i = decodeOp (placeCode c s).operands.op := by
      cases i with
      | appverRsp | dataBytesReqNtf | upgDataBytesReq | upgDataCmd | upgData => exact nomatch hcmd
      | _ => rw [hop]; rfl
    rw [hi]
    exact carries_decodeOp _
  · have hcode := code_of_decode_wire h hcmd
    cases i with
    | appverRsp =>
      have hplace := (congrArg (placeCode · s) hcode).trans (placeCode_appverRsp s)
      rw [carries, hop, hplace, placed_candidateDescIs (by decide)]
      rfl
    | dataBytesReqNtf =>
      have hplace := (congrArg (placeCode · s) hcode).trans (placeCode_dataBytesReqNtf s)
      rw [carries, hop, hplace, placed_candidateDescIs (by decide)]
      rfl
    | upgDataBytesReq =>
      have hplace := (congrArg (placeCode · s) hcode).trans (placeCode_upgDataBytesReq s)
      rw [carries, hop, hplace, placed_candidateDescIs (by decide), placed_candidateUpgIs (by decide) rfl]
      rfl
    | upgDataCmd =>
      have hplace := (congrArg (placeCode · s) hcode).trans (placeCode_upgDataCmd s)
      rw [carries, hop, hplace, placeSegment_segmentEmits (Nat.zero_le _) (Nat.zero_le _)]
      rfl
    | upgData n =>
      obtain ⟨hwell, hfw⟩ := hdata n rfl
      obtain ⟨hmarker, hframe⟩ : 1 ≤ n.toNat ∧ n.toNat ≤ 65532 := by
        simpa [Instr.wellFormed, upgDataLengthOk] using hwell
      have hchunk : n.toNat - 1 ≤ 65531 := by omega
      have hplace := (congrArg (placeCode · s) hcode).trans (placeCode_upgData s n)
      rw [carries, hop, hplace, placeSegment_segmentEmits hchunk (by omega), placeSegment_fwLen hchunk,
        placeSegment_segAvail hchunk, placeSegment_segEff hchunk, segChunkLengths_one_chunk]
      simp [operationCode, hmarker]
    | _ => exact absurd rfl hcmd


/-- A CMD word is up to 8 bits or above 24; OP lies in its low four. -/
theorem codeOfTableWord_cmd {nbits : Nat} (w : Nat) (h : nbits ≤ 8 ∨ 24 < nbits) :
    ∃ wdata, codeOfTableWord nbits w = .cmd wdata ∧ wdata.extractLsb' 0 4 = BitVec.ofNat 4 w := by
  by_cases hbyte : nbits ≤ 8
  · refine ⟨_, if_pos hbyte, BitVec.eq_of_toNat_eq ?_⟩
    simp only [BitVec.extractLsb'_toNat, BitVec.toNat_ofNat, Nat.shiftRight_zero]
    omega
  · refine ⟨_, ((if_neg hbyte).trans (if_neg (by omega))).trans (if_neg (by omega)), BitVec.eq_of_toNat_eq ?_⟩
    simp only [BitVec.extractLsb'_toNat, BitVec.toNat_ofNat, Nat.shiftRight_zero]
    omega

theorem sameBytes_of_cells {b : Buf} {s t : State} (h : cellsOf b t = cellsOf b s) : SameBytes b s t := fun a => by
  rw [bufferByte, bufferByte, h]

end PlaceCode

/-- Settles O4: the placed operation is that of the instruction, whichever row the word is of. -/
theorem placedWordRunsNext : Obligations.PlacedWordRunsNext := by
  intro s nbits w i hword
  have hdecode := decode_of_decodeTableWord hword
  have hplaced : Placed (operationCode i) s (s.withFetchWord nbits w) := placeCode_placed s hdecode
  refine ⟨hplaced.step_eq, carries_placeCode s hdecode, hplaced.status_eq, hplaced.results_eq, hplaced.params_eq,
    hplaced.answers_eq, sameBytes_of_cells hplaced.fwbuf_eq, sameBytes_of_cells hplaced.obuf_eq, fun hcmd => ?_⟩
  obtain ⟨wdata, hcode, hop⟩ := codeOfTableWord_cmd w hcmd
  rw [State.withFetchWord, hcode, ← hop]
  exact ⟨rfl, fun _ => rfl⟩

end Sys2Proof.Machine
end

section
/-! The host at the buffers, and its turn in a step (R61, R62, R63, R67, R69, R276). -/

namespace Sys2Proof.Machine

theorem step_of_host {s : State} {a : Access} {rest : List Turn} (h : s.agenda = .host a :: rest) :
    step s = .next (hostAccess a (withAgenda rest s)) := by
  rw [step, h, withAgenda]

/-- Settles O52: a host access whose turn comes is the step. -/
theorem stepPerformsHostWrites : Obligations.StepPerformsHostWrites :=
  fun _ _ => ⟨fun _ _ => step_of_host, fun _ _ _ => step_of_host⟩

section Reads
variable (s : State)

/-- A register does not show what is outside the block. -/
theorem hostReadReg_withAgenda (offset : BitVec 8) (rest : List Turn) :
    hostReadReg offset (withAgenda rest s) = hostReadReg offset s := by
  cases hr : regAt offset with
  | none => rw [hostReadReg_of_no_register hr, hostReadReg_of_no_register hr]
  | some r =>
    rw [hostReadReg_of_regAt hr, hostReadReg_of_regAt hr]
    cases r <;> rfl

theorem bufferByte_withAgenda (b : Buf) (addr : Nat) (rest : List Turn) :
    bufferByte b addr (withAgenda rest s) = bufferByte b addr s := by
  cases b <;> rfl

theorem hostReadByte_withAgenda (b : Buf) (addr : Nat) (rest : List Turn) :
    hostReadByte b addr (withAgenda rest s) = hostReadByte b addr s := by
  rw [hostReadByte, bufferByte_withAgenda]
  rfl

end Reads

/-- Settles O36: the answer is that of the block before its turn was taken from the agenda. -/
theorem readsHaveNoSideEffect : Obligations.ReadsHaveNoSideEffect := by
  refine fun s rest => ⟨fun offset hturn => ?_, fun b addr hturn => ?_⟩
  · rw [step_of_host hturn, hostAccess, hostReadReg_withAgenda]
    rfl
  · rw [step_of_host hturn, hostAccess, hostReadByte_withAgenda]
    rfl

section BufferPort
variable {s : State} {b : Buf} {addr : Nat}

theorem hostReadByte_inside (h : addr < bufferSize s.params b) : hostReadByte b addr s = bufferByte b addr s :=
  if_pos ((inBuffer_iff ..).2 h)

theorem hostReadByte_outside (h : bufferSize s.params b ≤ addr) : hostReadByte b addr s = 0 :=
  if_neg fun hin => absurd ((inBuffer_iff ..).1 hin) (by omega)

theorem hostWriteByte_inside (hidle : s.status.busy = false) (hbuf : b ≠ .obuf) (h : addr < bufferSize s.params b)
    (v : Byte) : hostWriteByte b addr v s = memWrite b addr [v] s := by
  rw [hostWriteByte, if_neg (by simp [hidle]), if_neg hbuf, if_pos ((inBuffer_iff ..).2 h)]

/-- OBUF is read only, and nothing is behind the end of a buffer (R62, R63). -/
theorem hostWriteByte_ignored (h : b = .obuf ∨ bufferSize s.params b ≤ addr) (v : Byte) :
    hostWriteByte b addr v s = s := by
  have hmiss : b ≠ .obuf → ¬inBuffer s.params b addr = true := fun hbuf => by
    rw [inBuffer_iff]
    have := h.resolve_left hbuf
    omega
  unfold hostWriteByte
  split
  next => rfl
  next =>
    split
    next => rfl
    next hbuf => exact if_neg (hmiss hbuf)

@[simp] theorem memWrite_params (bytes : Bytes) : (memWrite b addr bytes s).params = s.params := withCells_params ..

theorem bufferByte_memWrite_byte (v : Byte) : bufferByte b addr (memWrite b addr [v] s) = v := by
  simp [bufferByte_memWrite]

/-- A byte written leaves every other byte of every buffer alone. -/
theorem bufferByte_memWrite_byte_other {b' : Buf} {a : Nat} (h : b' ≠ b ∨ a ≠ addr) (v : Byte) :
    bufferByte b' a (memWrite b addr [v] s) = bufferByte b' a s := by
  by_cases hbuf : b' = b
  · subst hbuf
    have haddr : a ≠ addr := h.resolve_left (· rfl)
    rw [bufferByte_memWrite, dif_neg (by rw [List.length_singleton]; omega)]
  · exact bufferByte_memWrite_other hbuf addr [v] s a

end BufferPort

/-- Settles O40: an access inside a buffer is one of its bytes, any other finds nothing. -/
theorem bufferAccesses : Obligations.BufferAccesses := by
  refine fun s b addr v => ⟨hostReadByte_inside, hostReadByte_outside, fun hidle hbuf hin => ?_,
    fun hmiss => hostWriteByte_ignored hmiss v⟩
  rw [hostWriteByte_inside hidle hbuf hin, hostReadByte_inside (by rwa [memWrite_params])]
  exact ⟨bufferByte_memWrite_byte v, fun b' a hother => bufferByte_memWrite_byte_other hother v⟩

end Sys2Proof.Machine
end

section
/-! What an operation reads: its result is a function of the operand registers and of the bytes below IN_LEN and FW_LEN
(R29, R31, R48, R97), and two runs with the same result leave the same wherever they write (R64). -/

namespace Sys2Proof.Machine

section SameInputs
variable {s s' : State}

theorem memRead_congr {b : Buf} {n : Nat} (h : ∀ a, a < n → bufferByte b a s' = bufferByte b a s) :
    memRead b 0 n s' = memRead b 0 n s :=
  List.map_congr_left fun i hi => h (0 + i) (by rw [Nat.zero_add]; exact List.mem_range.1 hi)

/-- Of IBUF_BYTES the input shows only whether IN_LEN is in range. -/
theorem ibufInput_congr (hoperands : s'.operands = s.operands)
    (hrange : s.operands.inLen.toNat ≤ s'.params.ibufBytes ↔ s.operands.inLen.toNat ≤ s.params.ibufBytes)
    (hbytes : ∀ a, a < s.operands.inLen.toNat → bufferByte .ibuf a s' = bufferByte .ibuf a s) :
    ibufInput s' = ibufInput s := by
  have hholds : holds s'.params .ibuf s.operands.inLen.toNat = holds s.params .ibuf s.operands.inLen.toNat :=
    Bool.eq_iff_iff.2 ((holds_iff s'.params .ibuf _).trans (hrange.trans (holds_iff s.params .ibuf _).symm))
  rw [ibufInput, ibufInput, hoperands, hholds, memRead_congr hbytes]

theorem firmwareInput_congr (hoperands : s'.operands = s.operands) (hparams : s'.params = s.params)
    (hbytes : ∀ a, a < s.operands.fwLen.toNat → bufferByte .fwbuf a s' = bufferByte .fwbuf a s) :
    firmwareInput s' = firmwareInput s := by
  rw [firmwareInput, firmwareInput, hoperands, hparams, memRead_congr hbytes]

/-- The operand forms of R97 are all that an operation reads. -/
theorem resultOf_congr (i : Instr) (hoperands : s'.operands = s.operands) (hsegment : segOperands s' = segOperands s)
    (hinput : ibufInput s' = ibufInput s) (hfirmware : firmwareInput s' = firmwareInput s) :
    resultOf i s' = resultOf i s := by
  have hheader : hdrInDesc s' = hdrInDesc s := by rw [hdrInDesc, hoperands, hdrInDesc]
  cases i with
  | packHdr => simp only [resultOf, packHdrResult, hheader]
  | unpackHdr => simp only [resultOf, unpackHdrResult, hoperands]
  | encPdu => simp only [resultOf, encPduResult, hinput, hoperands, hheader]
  | encFrame => simp only [resultOf, encFrameResult, hinput, hoperands, hheader]
  | decFrame => simp only [resultOf, decFrameResult, hinput, hoperands]
  | encUpg => simp only [resultOf, encUpgResult, hinput, hoperands]
  | decUpg => simp only [resultOf, decUpgResult, hinput]
  | recAppver | appverRsp => simp only [resultOf, recAppverResult, hinput, hoperands]
  | recDatareq | dataBytesReqNtf | upgDataBytesReq => simp only [resultOf, recDatareqResult, hinput, hoperands]
  | segment | upgDataCmd | upgData => simp only [resultOf, segmentResult, hfirmware, hsegment]
  | reservedOp0 | reservedOpB | reservedOpC | reservedOpD | reservedOpE | reservedOpF => rfl

end SameInputs

section KeptOrEqual

/-- A place that takes a value if there is one is kept in both runs or ends the same in both. -/
theorem keptOrEqual_getD {α : Type} (value : Option α) (old old' : α) :
    KeptOrEqual old (value.getD old) old' (value.getD old') := by
  cases value with
  | none => exact .inl ⟨rfl, rfl⟩
  | some v => exact .inr rfl

variable (r r' : ResultRegs)

theorem withDesc_eq (d : Option (BitVec 16)) :
    withDesc d r =
      { r with
        desc := d.getD r.desc
        feature := (d.map fun d => (unpackDesc d).feature).getD r.feature
        packetType := (d.map fun d => (unpackDesc d).packetType).getD r.packetType
        command := (d.map fun d => (unpackDesc d).command).getD r.command } := by
  cases d <;> rfl

theorem withUpgOpcode_eq (o : Option Byte) : withUpgOpcode o r = { r with upgOpcode := o.getD r.upgOpcode } := by
  cases o <;> rfl

theorem withDataRequest_eq (q : Option (Word × Word)) :
    withDataRequest q r =
      { r with requested := (q.map Prod.fst).getD r.requested, moveBy := (q.map Prod.snd).getD r.moveBy } := by
  cases q <;> rfl

theorem withProgress_eq (g : Option (Word × Word)) :
    withProgress g r =
      { r with cursor := (g.map Prod.fst).getD r.cursor, frames := (g.map Prod.snd).getD r.frames } := by
  cases g <;> rfl

/-- Every result register beside OUT_LEN is kept in both runs or ends the same in both. -/
def ResultsKeptOrEqual (old new old' new' : ResultRegs) : Prop :=
  KeptOrEqual old.desc new.desc old'.desc new'.desc ∧
    KeptOrEqual old.feature new.feature old'.feature new'.feature ∧
    KeptOrEqual old.packetType new.packetType old'.packetType new'.packetType ∧
    KeptOrEqual old.command new.command old'.command new'.command ∧
    KeptOrEqual old.upgOpcode new.upgOpcode old'.upgOpcode new'.upgOpcode ∧
    KeptOrEqual old.requested new.requested old'.requested new'.requested ∧
    KeptOrEqual old.moveBy new.moveBy old'.moveBy new'.moveBy ∧
    KeptOrEqual old.cursor new.cursor old'.cursor new'.cursor ∧
    KeptOrEqual old.frames new.frames old'.frames new'.frames

theorem resultsKeptOrEqual_committedResults (c : Commit) :
    ResultsKeptOrEqual r (committedResults c r) r' (committedResults c r') := by
  simp only [committedResults, withDesc_eq, withUpgOpcode_eq, withDataRequest_eq, withProgress_eq]
  exact ⟨keptOrEqual_getD .., keptOrEqual_getD .., keptOrEqual_getD .., keptOrEqual_getD .., keptOrEqual_getD ..,
    keptOrEqual_getD .., keptOrEqual_getD .., keptOrEqual_getD .., keptOrEqual_getD ..⟩

/-- A failure writes no result register but OUT_LEN (R244, R245). -/
theorem resultsKeptOrEqual_outLen (n : Word) :
    ResultsKeptOrEqual r { r with outLen := n } r' { r' with outLen := n } :=
  ⟨.inl ⟨rfl, rfl⟩, .inl ⟨rfl, rfl⟩, .inl ⟨rfl, rfl⟩, .inl ⟨rfl, rfl⟩, .inl ⟨rfl, rfl⟩, .inl ⟨rfl, rfl⟩,
    .inl ⟨rfl, rfl⟩, .inl ⟨rfl, rfl⟩, .inl ⟨rfl, rfl⟩⟩

end KeptOrEqual

/-- OUT_LEN never exceeds the output length: where 32 bits do not hold the length, they hold less. -/
theorem outLenWord_toNat_le (n : Nat) : (outLenWord n).toNat ≤ n := by
  by_cases h : n < 2 ^ 32
  · exact (outLenWord_toNat h).le
  · have := (outLenWord n).isLt
    omega

section TwoRuns
variable (s s' : State)

/-- What two completions leave in common. -/
def SameCompletion (s t s' t' : State) : Prop :=
  t'.status = t.status ∧ t'.results.outLen = t.results.outLen ∧
    (∀ a, a < t.results.outLen.toNat → bufferByte .obuf a t' = bufferByte .obuf a t) ∧
    (∀ a, KeptOrEqual (bufferByte .obuf a s) (bufferByte .obuf a t) (bufferByte .obuf a s') (bufferByte .obuf a t')) ∧
    ResultsKeptOrEqual s.results t.results s'.results t'.results

theorem completeOk_obufByte_getD (c : Commit) (a : Nat) :
    bufferByte .obuf a (completeOk c s) = c.bytes[a]?.getD (bufferByte .obuf a s) := by
  rw [completeOk_obufByte]
  split
  next h => rw [List.getElem?_eq_getElem h, Option.getD_some]
  next h => rw [List.getElem?_eq_none (by omega), Option.getD_none]

theorem sameCompletion_completeOk (c : Commit) : SameCompletion s (completeOk c s) s' (completeOk c s') := by
  refine ⟨rfl, ?_, fun a ha => ?_, fun a => ?_, resultsKeptOrEqual_committedResults ..⟩
  · rw [completeOk_results, completeOk_results, committedResults_outLen, committedResults_outLen]
  · rw [completeOk_results, committedResults_outLen] at ha
    have hlen : a < c.bytes.length := ha.trans_le (outLenWord_toNat_le _)
    rw [completeOk_obufByte, completeOk_obufByte, dif_pos hlen, dif_pos hlen]
  · rw [completeOk_obufByte_getD, completeOk_obufByte_getD]
    exact keptOrEqual_getD ..

variable {s s'} in
theorem sameCompletion_of_failure {result : BitVec 2} {errCode : BitVec 4} {t t' : State}
    (h : CompletesEmpty result errCode s t) (h' : CompletesEmpty result errCode s' t') : SameCompletion s t s' t' := by
  obtain ⟨-, hobuf, hstatus, hresults⟩ := h
  obtain ⟨-, hobuf', hstatus', hresults'⟩ := h'
  unfold SameCompletion
  rw [hstatus, hstatus', hresults, hresults']
  exact ⟨rfl, rfl, fun a ha => absurd ha (Nat.not_lt_zero a), fun a => .inl ⟨hobuf a, hobuf' a⟩,
    resultsKeptOrEqual_outLen ..⟩

theorem sameCompletion_completeWith (r : Result Commit) :
    SameCompletion s (completeWith r s) s' (completeWith r s') := by
  cases r with
  | ok c => exact sameCompletion_completeOk s s' c
  | notRecognized =>
    exact sameCompletion_of_failure (completeNotRecognized_completes s) (completeNotRecognized_completes s')
  | contractError e =>
    exact sameCompletion_of_failure (raiseContractError_completes e s) (raiseContractError_completes e s')

end TwoRuns

/-- Settles O33: on the same inputs both runs complete with the same result. -/
theorem operationsReadOnlyTheirInputs : Obligations.OperationsReadOnlyTheirInputs := by
  intro i s s' hoperands hparams hibuf hfwbuf
  have hsame : resultOf i s' = resultOf i s :=
    resultOf_congr i hoperands (by rw [segOperands, hoperands, hparams, segOperands])
      (ibufInput_congr hoperands (by rw [hparams]) hibuf) (firmwareInput_congr hoperands hparams hfwbuf)
  refine ⟨_, _, exec_eq_completeWith i s, exec_eq_completeWith i s', ?_⟩
  rw [hsame]
  exact sameCompletion_completeWith s s' (resultOf i s)

end Sys2Proof.Machine
end

section
/-! How long an output can be (R64, R218). An output fits OBUF in every configuration in which its operation completes,
and an operation sees neither OBUF_BYTES nor how far IBUF reaches beyond IN_LEN: so it fits the smallest such OBUF. -/

namespace Sys2Proof.Machine

/-- The configuration with the least OBUF, and with no more IBUF than an input of the given length takes. -/
def leastParamsFor (inLen : Nat) (p : Params) : Params :=
  { p with ibufExtra := min p.ibufExtra (inLen - 65545), obufExtra := 0 }

theorem leastParamsFor_ibufBytes (n : Nat) (p : Params) :
    (leastParamsFor n p).ibufBytes = min p.ibufBytes (max 65545 n) := by
  simp only [Params.ibufBytes, leastParamsFor]
  omega

theorem leastParamsFor_obufBytes (n : Nat) (p : Params) :
    (leastParamsFor n p).obufBytes =
      max ((leastParamsFor n p).ibufBytes + 4) (max (14 * p.fwMaxBytes) 65545) :=
  Nat.zero_add _

/-- The block in the least configuration for its IN_LEN. -/
def inLeastConfiguration (s : State) : State :=
  { s with params := leastParamsFor s.operands.inLen.toNat s.params }

theorem resultOf_inLeastConfiguration (i : Instr) (s : State) : resultOf i (inLeastConfiguration s) = resultOf i s := by
  have hrange : s.operands.inLen.toNat ≤ (inLeastConfiguration s).params.ibufBytes ↔
      s.operands.inLen.toNat ≤ s.params.ibufBytes := by
    rw [inLeastConfiguration, leastParamsFor_ibufBytes]
    omega
  exact resultOf_congr i rfl rfl (ibufInput_congr rfl hrange fun _ _ => rfl) rfl

/-- The longest output of an operation: an addressed command of IN_LEN bytes, a frame, or the frames of a firmware. -/
theorem resultOf_output_length_le {i : Instr} {s : State} {c : Commit} (h : resultOf i s = .ok c) :
    c.bytes.length ≤ max (s.operands.inLen.toNat + 4) (max (14 * s.params.fwMaxBytes) 65549) := by
  rw [← resultOf_inLeastConfiguration] at h
  have hfits : c.bytes.length ≤ (inLeastConfiguration s).params.obufBytes := (resultOf_commitFits h).1
  rw [inLeastConfiguration, leastParamsFor_obufBytes, leastParamsFor_ibufBytes] at hfits
  omega

/-- Where 32 bits hold the output length, a completion keeps OBUF from OUT_LEN on. -/
theorem completeWith_keeps_obuf_from_outLen {r : Result Commit} (s : State)
    (h : ∀ c, r = .ok c → c.bytes.length < 2 ^ 32) {a : Nat} (ha : (completeWith r s).results.outLen.toNat ≤ a) :
    bufferByte .obuf a (completeWith r s) = bufferByte .obuf a s := by
  cases r with
  | ok c =>
    obtain ⟨-, ⟨-, hkept⟩, -, -, hlen⟩ := completeOk_completes c s
    exact hkept a ((hlen (h c rfl)).symm.trans_le ha)
  | notRecognized => rfl
  | contractError e => rfl

/-- Settles O32: under its premises on the sizes every output is shorter than 2^32 bytes. -/
theorem operationsWriteOnlyTheirOutput : Obligations.OperationsWriteOnlyTheirOutput := by
  intro i s t hexec hin hfw
  rw [exec_eq_completeWith] at hexec
  injection hexec with hexec
  subst hexec
  have hshort : ∀ c, resultOf i s = .ok c → c.bytes.length < 2 ^ 32 := fun c hc => by
    have := resultOf_output_length_le hc
    omega
  exact ⟨completeWith_keepsInputs _ s, fun a => completeWith_keeps_obuf_from_outLen s hshort⟩

end Sys2Proof.Machine
end

section
/-! The reserved operation codes (R96, R241). -/

namespace Sys2Proof.Machine

/-- Settles O29: a reserved code, whichever it is, ends in the contract error ILLEGAL_OP. -/
theorem reservedCodesAreIllegal : Obligations.ReservedCodesAreIllegal := by
  intro s i hreserved
  have hresult : resultOf i s = .contractError .illegalOp := by
    rcases hreserved with rfl | rfl | rfl | rfl | rfl | rfl <;> rfl
  refine ⟨_, exec_eq_completeWith i s, ?_⟩
  rw [hresult]
  exact raiseContractError_completes .illegalOp s

end Sys2Proof.Machine
end

section
/-! Loading a buffer by a host program (R62, R69, R98, R99): the byte writes in their turns leave the buffers as one write
of the whole sequence would, and then comes the write of the length register. -/

namespace Sys2Proof.Machine

theorem run_of_host {s : State} {a : Access} {rest : List Turn} (h : s.agenda = .host a :: rest) (k : Nat) :
    Sys2Proof.core.run (k + 1) s = Sys2Proof.core.run k (hostAccess a (withAgenda rest s)) := by
  have hstep : Sys2Proof.core.step s = .next (hostAccess a (withAgenda rest s)) := step_of_host h
  simp only [Host.Core.run, hstep]

section Fields
variable (b : Buf) (addr : Nat) (bytes : Bytes) (rest : List Turn) (s : State)
@[simp] theorem withAgenda_status : (withAgenda rest s).status = s.status := rfl
@[simp] theorem withAgenda_params : (withAgenda rest s).params = s.params := rfl
@[simp] theorem withAgenda_agenda : (withAgenda rest s).agenda = rest := rfl
@[simp] theorem memWrite_operands : (memWrite b addr bytes s).operands = s.operands := withCells_operands ..
@[simp] theorem memWrite_status : (memWrite b addr bytes s).status = s.status := withCells_status ..
@[simp] theorem memWrite_results : (memWrite b addr bytes s).results = s.results := withCells_results ..
@[simp] theorem memWrite_agenda : (memWrite b addr bytes s).agenda = s.agenda := withCells_agenda ..
end Fields

/-- A byte write in its turn, inside the buffer of an idle block (R62, R63). -/
theorem run_of_writeByte {s : State} {b : Buf} {addr : Nat} {v : Byte} {rest : List Turn}
    (h : s.agenda = .host (.writeByte b addr v) :: rest) (hidle : s.status.busy = false) (hbuf : b ≠ .obuf)
    (hin : addr < bufferSize s.params b) (k : Nat) :
    Sys2Proof.core.run (k + 1) s = Sys2Proof.core.run k (memWrite b addr [v] (withAgenda rest s)) := by
  rw [run_of_host h, hostAccess, hostWriteByte_inside (s := withAgenda rest s) hidle hbuf hin]

/-- A write of an operand register in its turn, on an idle block (R61). -/
theorem run_of_writeReg {s : State} {r : Reg} {w : Word} {rest : List Turn}
    (h : s.agenda = .host (.writeReg (regOffset r) w) :: rest) (hidle : s.status.busy = false) (hcmd : r ≠ .cmd)
    (k : Nat) : Sys2Proof.core.run (k + 1) s = Sys2Proof.core.run k (withOperand r w (withAgenda rest s)) := by
  have hreg : regAt (regOffset r) = some r := by cases r <;> rfl
  rw [run_of_host h, hostAccess, hostWriteReg_idle (s := withAgenda rest s) hidle hreg hcmd]

section BytesWritten
variable {b : Buf} {addr : Nat}

/-- The block t is the block s but for a byte sequence that now lies in a buffer. The cells of t need not be
those of one write of the sequence: what counts is how every address reads. -/
structure BytesWritten (b : Buf) (addr : Nat) (bytes : Bytes) (s t : State) : Prop where
  operands_eq : t.operands = s.operands
  status_eq : t.status = s.status
  results_eq : t.results = s.results
  params_eq : t.params = s.params
  byte_eq : ∀ b' a, bufferByte b' a t = bufferByte b' a (memWrite b addr bytes s)

theorem bufferByte_memWrite_nil (s : State) (b' : Buf) (a : Nat) :
    bufferByte b' a (memWrite b addr [] s) = bufferByte b' a s := by
  by_cases hbuf : b' = b
  · subst hbuf
    rw [bufferByte_memWrite, dif_neg (by rw [List.length_nil]; omega)]
  · exact bufferByte_memWrite_other hbuf addr [] s a

/-- Writing a sequence is writing its first byte and then the others. -/
theorem bufferByte_memWrite_cons (v : Byte) (vs : Bytes) (s : State) (b' : Buf) (a : Nat) :
    bufferByte b' a (memWrite b addr (v :: vs) s) =
      bufferByte b' a (memWrite b (addr + 1) vs (memWrite b addr [v] s)) := by
  by_cases hbuf : b' = b
  · subst hbuf
    simp only [bufferByte_memWrite, List.length_cons, List.length_nil]
    rcases Nat.lt_trichotomy a addr with hlt | rfl | hgt
    · rw [dif_neg (by omega), dif_neg (by omega), dif_neg (by omega)]
    · simp
    · obtain ⟨i, rfl⟩ : ∃ i, a = addr + 1 + i := ⟨a - (addr + 1), by omega⟩
      by_cases hi : i < vs.length
      · rw [dif_pos (by omega), dif_pos (by omega)]
        simp [show addr + 1 + i - addr = i + 1 by omega]
      · rw [dif_neg (by omega), dif_neg (by omega), dif_neg (by omega)]
  · rw [bufferByte_memWrite_other hbuf, bufferByte_memWrite_other hbuf, bufferByte_memWrite_other hbuf]

theorem memWrite_withAgenda (bytes : Bytes) (rest : List Turn) (s : State) :
    memWrite b addr bytes (withAgenda rest s) = withAgenda rest (memWrite b addr bytes s) := by
  cases b <;> rfl

theorem bytesWritten_nil (s : State) : BytesWritten b addr [] s s :=
  ⟨rfl, rfl, rfl, rfl, fun b' a => (bufferByte_memWrite_nil s b' a).symm⟩

theorem BytesWritten.cons {v : Byte} {vs : Bytes} {rest : List Turn} {s t : State}
    (h : BytesWritten b (addr + 1) vs (memWrite b addr [v] (withAgenda rest s)) t) :
    BytesWritten b addr (v :: vs) s t where
  operands_eq := h.operands_eq.trans (memWrite_operands _ _ _ _)
  status_eq := h.status_eq.trans (memWrite_status _ _ _ _)
  results_eq := h.results_eq.trans (memWrite_results _ _ _ _)
  params_eq := h.params_eq.trans (memWrite_params _)
  byte_eq b' a := by
    rw [h.byte_eq, memWrite_withAgenda, memWrite_withAgenda, bufferByte_withAgenda, bufferByte_memWrite_cons]

end BytesWritten

/-- The byte writes of a sequence that fits its buffer, run on an idle block, in one step each. -/
theorem run_byteWrites {b : Buf} (hbuf : b ≠ .obuf) {bytes : Bytes} {addr : Nat} {rest : List Turn} {s : State}
    (hidle : s.status.busy = false) (hfits : addr + bytes.length ≤ bufferSize s.params b)
    (hagenda : s.agenda = hostTurns (byteWrites b addr bytes) ++ rest) :
    ∃ t, t.agenda = rest ∧ BytesWritten b addr bytes s t ∧
      ∀ k, Sys2Proof.core.run (bytes.length + k) s = Sys2Proof.core.run k t := by
  induction bytes generalizing addr s with
  | nil => exact ⟨s, hagenda, bytesWritten_nil s, fun k => by simp⟩
  | cons v vs ih =>
    rw [List.length_cons] at hfits
    obtain ⟨turns, hturns⟩ : ∃ turns, turns = hostTurns (byteWrites b (addr + 1) vs) ++ rest := ⟨_, rfl⟩
    have hfirst : s.agenda = .host (.writeByte b addr v) :: turns := hturns ▸ hagenda
    obtain ⟨t, hrest, hwritten, hrun⟩ := ih (addr := addr + 1) (s := memWrite b addr [v] (withAgenda turns s))
      (by simpa using hidle) (by rw [memWrite_params, withAgenda_params]; omega) (by simpa using hturns)
    refine ⟨t, hrest, hwritten.cons, fun k => ?_⟩
    rw [List.length_cons, Nat.add_right_comm, run_of_writeByte hfirst hidle hbuf (by omega)]
    exact hrun k

/-- Settles O41: the byte writes leave the sequence in IBUF, and the last access puts its length in IN_LEN. -/
theorem ldinLoadsTheInput : Obligations.LdinLoadsTheInput := by
  intro s bytes hidle hfits hlength hagenda
  obtain ⟨u, hlast, hwritten, hrun⟩ := run_byteWrites (b := .ibuf) (addr := 0) (by decide) hidle
    (by rw [Nat.zero_add]; exact hfits) (hagenda.trans List.map_append)
  have hidle' : u.status.busy = false := (congrArg Status.busy hwritten.status_eq).trans hidle
  have hother : ∀ b, b ≠ .ibuf → SameBytes b s u := fun b hb a => by
    rw [hwritten.byte_eq, bufferByte_memWrite_other hb]
  refine ⟨withOperand .inLen (BitVec.ofNat 32 bytes.length) (withAgenda [] u), ?_, ⟨?_, ?_, fun i hi => ?_⟩, rfl,
    hwritten.status_eq, hwritten.results_eq, hother .fwbuf (by decide), hother .obuf (by decide)⟩
  · calc Sys2Proof.core.run (bytes.length + 1) s
      _ = Sys2Proof.core.run 1 u := hrun 1
      _ = .next (withOperand .inLen (BitVec.ofNat 32 bytes.length) (withAgenda [] u)) :=
        run_of_writeReg hlast hidle' (by decide) 0
  · show (BitVec.ofNat 32 bytes.length).toNat = bytes.length
    rw [BitVec.toNat_ofNat, Nat.mod_eq_of_lt hlength]
  · exact hfits.trans_eq (congrArg Params.ibufBytes hwritten.params_eq.symm)
  · refine (hwritten.byte_eq .ibuf i).trans ?_
    rw [bufferByte_memWrite, dif_pos (by omega)]
    rfl

end Sys2Proof.Machine
end

section
/-! The header codec (R80, R120 to R124): a command description is its three fields side by side, the most significant
first, so that packing and unpacking are the concatenation and its parts. -/

namespace Sys2Proof.Machine

/-- Packing keeps of each number what its field holds, and puts the fields side by side (R80, R120). -/
theorem packDesc_eq_append (f t c : Nat) :
    packDesc f t c = BitVec.ofNat 7 f ++ BitVec.ofNat 2 t ++ BitVec.ofNat 7 c := by
  have hmask7 (n : Nat) : n &&& 0x7F = (BitVec.ofNat 7 n).toNat := Nat.and_two_pow_sub_one_eq_mod n 7
  have hmask2 (n : Nat) : n &&& 0x3 = (BitVec.ofNat 2 n).toNat := Nat.and_two_pow_sub_one_eq_mod n 2
  have hfields : ((f &&& 0x7F) <<< 9) ||| ((t &&& 0x3) <<< 7) ||| (c &&& 0x7F) =
      (BitVec.ofNat 7 f ++ BitVec.ofNat 2 t ++ BitVec.ofNat 7 c).toNat := by
    rw [BitVec.toNat_append, BitVec.toNat_append, Nat.shiftLeft_or_distrib, ← Nat.shiftLeft_add, hmask7, hmask2, hmask7]
  rw [packDesc, hfields, BitVec.ofNat_toNat]
  exact BitVec.setWidth_eq _

/-- The three fields of a description make it again. -/
theorem fields_append (d : BitVec 16) : d.extractLsb' 9 7 ++ d.extractLsb' 7 2 ++ d.extractLsb' 0 7 = d := by
  rw [BitVec.extractLsb'_append_extractLsb'_eq_extractLsb' (by decide)]
  exact BitVec.extractLsb'_append_extractLsb' (w := 9) (len := 7)

/-- Unpacking takes side-by-side fields apart (R122). -/
theorem unpackDesc_append (f : BitVec 7) (t : BitVec 2) (c : BitVec 7) : unpackDesc (f ++ t ++ c) = ⟨f, t, c⟩ := by
  rw [unpackDesc, BitVec.extractLsb'_append_eq_of_le (by decide), BitVec.extractLsb'_append_eq_of_le (by decide),
    BitVec.extractLsb'_append_eq_of_le (by decide), BitVec.extractLsb'_append_eq_of_add_le (by decide),
    BitVec.extractLsb'_append_eq_of_add_le (by decide), BitVec.extractLsb'_eq_self, BitVec.extractLsb'_eq_self,
    BitVec.extractLsb'_eq_self]

theorem packDesc_unpackDesc (d : BitVec 16) :
    packDesc (unpackDesc d).feature.toNat (unpackDesc d).packetType.toNat (unpackDesc d).command.toNat = d := by
  simp only [packDesc_eq_append, BitVec.ofNat_toNat, BitVec.setWidth_eq]
  exact fields_append d

theorem unpackDesc_packDesc (f t c : Nat) :
    unpackDesc (packDesc f t c) = ⟨BitVec.ofNat 7 f, BitVec.ofNat 2 t, BitVec.ofNat 7 c⟩ := by
  rw [packDesc_eq_append, unpackDesc_append]

/-- HDR_IN packs to its masked fields (R27, R121). -/
theorem hdrInDesc_eq_maskedHeader (s : State) : hdrInDesc s = maskedHeader s.operands := by
  have hmask {w : Nat} (hw : w ≤ 8) (b : Byte) : BitVec.ofNat w b.toNat = b.extractLsb' 0 w :=
    (BitVec.ofNat_toNat w b).trans (BitVec.setWidth_eq_extractLsb' hw)
  rw [hdrInDesc, packDesc_eq_append, maskedHeader, hmask (by decide), hmask (by decide), hmask (by decide)]

/-- Settles O7: both are the concatenation of the three fields, read in the two directions. -/
theorem headerPackAndUnpackAreInverse : Obligations.HeaderPackAndUnpackAreInverse := by
  refine ⟨packDesc_unpackDesc, fun f t c => ?_⟩
  rw [unpackDesc_packDesc]
  exact ⟨BitVec.toNat_ofNat f 7, BitVec.toNat_ofNat t 2, BitVec.toNat_ofNat c 7⟩

/-- An OK completion whose rule lists a byte output and a description writes RES_DESC and RES_FIELDS beside OUT_LEN, and no
other result register (R37, R38, R243). -/
theorem completeOk_desc_completes (bytes : Bytes) (d : BitVec 16) (s : State) :
    CompletesOk bytes (resultsWithDesc d s.results) s (completeOk { bytes := bytes, desc := some d } s) :=
  completeOk_completes { bytes := bytes, desc := some d } s

/-- Settles O5: the result is the description of HDR_IN, whose fields are the masked ones. -/
theorem packHdrPacksTheMaskedFields : Obligations.PackHdrPacksTheMaskedFields := fun s => by
  rw [← hdrInDesc_eq_maskedHeader]
  exact ⟨_, exec_eq_completeWith .packHdr s, completeOk_desc_completes [] (hdrInDesc s) s⟩

/-- Settles O6: the result is DESC_IN itself. -/
theorem unpackHdrTakesTheDescriptionApart : Obligations.UnpackHdrTakesTheDescriptionApart := fun s =>
  ⟨_, exec_eq_completeWith .unpackHdr s, completeOk_desc_completes [] s.operands.descIn s⟩

end Sys2Proof.Machine
end

section
/-! Reading byte sequences piece by piece (R5 to R7): pieces that follow one another, words and bytes as pieces, and the
checksum of a changed sequence. -/

namespace Sys2Proof.Machine

section Pieces
variable (s t : Bytes)

theorem byteAt_set_ne {i j : Nat} (h : i ≠ j) (b : Byte) : byteAt (s.set i b) j = byteAt s j := by
  simp only [byteAt, List.getD_eq_getElem?_getD, List.getElem?_set_ne h]

theorem byteAt_set_self {i : Nat} (h : i < s.length) (b : Byte) : byteAt (s.set i b) i = b := by
  rw [byteAt_eq_getElem (by rwa [List.length_set]), List.getElem_set_self]

theorem rd16_append_right (i : Nat) : rd16 (s ++ t) (s.length + i) = rd16 t i := by
  simp only [rd16, Nat.add_assoc, byteAt_append_right]

theorem rd16_toNat (i : Nat) : (rd16 s i).toNat = 256 * (byteAt s i).toNat + (byteAt s (i + 1)).toNat := by
  rw [rd16, toNat_append_eq_add]
  omega

theorem slice_full : slice s 0 s.length = s := List.take_length

theorem slice_append_slice {a b c : Nat} (hab : a ≤ b) (hbc : b ≤ c) : slice s a b ++ slice s b c = slice s a c := by
  have hdrop : s.drop b = (s.drop a).drop (b - a) := by rw [List.drop_drop, Nat.add_sub_of_le hab]
  rw [slice, slice, slice, hdrop, ← List.take_add]
  congr 1
  omega

theorem slice_append_left : slice (s ++ t) 0 s.length = s := List.take_left

theorem slice_append_right (n : Nat) : slice (s ++ t) s.length (s.length + n) = t.take n := by
  rw [slice, List.drop_left, Nat.add_sub_cancel_left]

variable {s}

theorem slice_one {i : Nat} (h : i < s.length) : slice s i (i + 1) = [byteAt s i] := by
  rw [slice, Nat.add_sub_cancel_left, List.drop_eq_getElem_cons h, byteAt_eq_getElem h]
  rfl

theorem slice_two {i : Nat} (h : i + 1 < s.length) : slice s i (i + 2) = be16 (rd16 s i) := by
  rw [rd16, be16_append, ← slice_append_slice s (Nat.le_add_right i 1) (Nat.le_succ (i + 1)), slice_one (by omega),
    slice_one h]
  rfl

end Pieces

section Checksum
variable (s t : Bytes)

theorem xorsum_append : xorsum (s ++ t) = xorsum s ^^^ xorsum t := by
  induction t using List.reverseRecOn with
  | nil => simp [xorsum]
  | append_singleton t b ih =>
    rw [← List.append_assoc, xorsum_append_singleton, xorsum_append_singleton, ih, BitVec.xor_assoc]

theorem xorsum_cons (b : Byte) : xorsum (b :: s) = b ^^^ xorsum s := by
  rw [← List.singleton_append, xorsum_append]
  simp [xorsum]

/-- A sequence with its own checksum after it sums to 0 (R86). -/
theorem xorsum_withChecksum : xorsum (withChecksum true s) = 0 := by
  show xorsum (s ++ [xorsum s]) = 0
  rw [xorsum_append_singleton]
  exact BitVec.xor_self

variable {s}

/-- A byte that is written over adds to the checksum of the others. -/
theorem xorsum_set {i : Nat} (h : i < s.length) (b : Byte) : xorsum (s.set i b) = xorsum (s.eraseIdx i) ^^^ b := by
  rw [List.set_eq_take_append_cons_drop, if_pos h, List.eraseIdx_eq_take_drop_succ, xorsum_append, xorsum_append,
    xorsum_cons, BitVec.xor_comm b, BitVec.xor_assoc]

theorem xorsum_set_ne {i : Nat} (h : i < s.length) {b : Byte} (hb : b ≠ byteAt s i) :
    xorsum (s.set i b) ≠ xorsum s := by
  have hself : xorsum s = xorsum (s.eraseIdx i) ^^^ byteAt s i := by
    rw [← xorsum_set h, byteAt_eq_getElem h, List.set_getElem_self]
  rw [xorsum_set h, hself]
  exact fun hsame => hb ((BitVec.xor_right_inj _).1 hsame)

end Checksum

end Sys2Proof.Machine
end

section
/-! The frame grammar (R84 to R86, R149 to R152): a frame is determined by its version and flags bytes, vendor,
description and payload; the decoder accepts these frames and no other sequences; the encoder writes some of them. -/

namespace Sys2Proof.Machine

/-- The number of payload lengths that a length field can declare, by whether it is the 2-byte one (R85). -/
def lengthLimit (ext : Bool) : Nat := if ext then 65536 else 256

/-- A frame without its checksum byte, by its version and flags bytes as received (R84, R150). -/
def receivedBody (ver flags : Byte) (v d : BitVec 16) (p : Bytes) : Bytes :=
  [startMarker, ver, flags] ++ lengthField (flagExt ver flags) p.length ++ be16 v ++ be16 d ++ p

/-- The frame with the given version and flags bytes (R84, R86). -/
def receivedFrame (ver flags : Byte) (v d : BitVec 16) (p : Bytes) : Bytes :=
  withChecksum (flagChk flags) (receivedBody ver flags v d p)

/-- The grammar in terms of the two length fields: the version and flags bytes decide which one a frame has. -/
theorem frameParses_iff {F : Bytes} {exp d : BitVec 16} {p : Bytes} :
    FrameParses F exp d p ↔
      ∃ ver flags : Byte, 3 ≤ ver.toNat ∧ p.length < lengthLimit (flagExt ver flags) ∧
        F = receivedFrame ver flags exp d p := by
  have hext (ver flags : Byte) : flagExt ver flags = true ↔ 4 ≤ ver.toNat ∧ flags.getLsbD 1 = true := by
    rw [flagExt, Bool.and_eq_true, decide_eq_true_iff]
  constructor
  · rintro ⟨ver, flags, lengthBytes, hver, hlength, rfl⟩
    refine ⟨ver, flags, hver, ?_⟩
    simp only [← hext] at hlength
    rw [receivedFrame, receivedBody]
    cases h : flagExt ver flags <;> rw [h] at hlength <;> obtain ⟨hlimit, rfl⟩ := hlength <;> exact ⟨hlimit, rfl⟩
  · rintro ⟨ver, flags, hver, hlength, rfl⟩
    refine ⟨ver, flags, lengthField (flagExt ver flags) p.length, hver, ?_, rfl⟩
    simp only [← hext]
    cases h : flagExt ver flags <;> rw [h] at hlength <;> exact ⟨hlength, rfl⟩

section Checksum
variable (chk : Bool) (body : Bytes)

/-- The checksum byte of a frame, or nothing (R86). -/
def checksumBytes : Bytes := if chk then [xorsum body] else []

theorem withChecksum_eq_append : withChecksum chk body = body ++ checksumBytes chk body := by
  cases chk
  · exact (List.append_nil body).symm
  · rfl

theorem checksumBytes_length : (checksumBytes chk body).length = if chk then 1 else 0 := by
  cases chk <;> rfl

end Checksum

theorem lengthField_length (ext : Bool) (n : Nat) : (lengthField ext n).length = if ext then 2 else 1 := by
  cases ext <;> rfl

/-- The decoder answers where none of its checks fails: the converse of `decFrame_ok`. -/
theorem decFrame_of_checks {F : Bytes} {exp : BitVec 16} (hstart : byteAt F 0 = startMarker)
    (hver : 3 ≤ (byteAt F 1).toNat) (hlen : headerLength F + 4 + declaredLength F + checksumCount F = F.length)
    (hsum : checksumCount F = 1 → xorsum (slice F 0 (F.length - 1)) = byteAt F (F.length - 1))
    (hvendor : rd16 F (headerLength F) = exp) :
    decFrame F exp =
      .ok (rd16 F (headerLength F + 2), slice F (headerLength F + 4) (headerLength F + 4 + declaredLength F)) := by
  have hheader : 4 ≤ headerLength F := by
    unfold headerLength
    split <;> omega
  unfold decFrame
  rw [if_neg (by omega), if_neg (not_not.2 hstart), if_neg (by omega), if_neg (by omega), if_neg (not_not.2 hlen),
    if_neg fun ⟨hchk, hne⟩ => hne (hsum hchk), if_neg (not_not.2 hvendor)]

section Received
variable (ver flags : Byte) (v d : BitVec 16) (p : Bytes)

/-- The parts of a frame one after the other. -/
theorem receivedFrame_eq_append :
    receivedFrame ver flags v d p =
      [startMarker, ver, flags] ++ lengthField (flagExt ver flags) p.length ++ be16 v ++ be16 d ++
        (p ++ checksumBytes (flagChk flags) (receivedBody ver flags v d p)) := by
  rw [receivedFrame, withChecksum_eq_append, ← List.append_assoc]
  rfl

theorem receivedFrame_start : byteAt (receivedFrame ver flags v d p) 0 = startMarker := by
  rw [receivedFrame_eq_append]
  rfl

theorem receivedFrame_version : byteAt (receivedFrame ver flags v d p) 1 = ver := by
  rw [receivedFrame_eq_append]
  rfl

theorem receivedFrame_flags : byteAt (receivedFrame ver flags v d p) 2 = flags := by
  rw [receivedFrame_eq_append]
  rfl

theorem receivedFrame_headerLength :
    headerLength (receivedFrame ver flags v d p) =
      ([startMarker, ver, flags] ++ lengthField (flagExt ver flags) p.length).length := by
  rw [headerLength, receivedFrame_version, receivedFrame_flags, List.length_append, lengthField_length]
  cases flagExt ver flags <;> rfl

theorem receivedFrame_length :
    (receivedFrame ver flags v d p).length =
      headerLength (receivedFrame ver flags v d p) + 4 + p.length + checksumCount (receivedFrame ver flags v d p) := by
  rw [receivedFrame_headerLength, checksumCount, receivedFrame_flags, receivedFrame_eq_append,
    ← checksumBytes_length (flagChk flags) (receivedBody ver flags v d p)]
  simp only [List.length_append, be16_length]
  omega

theorem receivedFrame_vendor :
    rd16 (receivedFrame ver flags v d p) (headerLength (receivedFrame ver flags v d p)) = v := by
  rw [receivedFrame_headerLength, receivedFrame_eq_append, List.append_assoc, List.append_assoc]
  exact (rd16_append_right _ _ 0).trans (rd16_be16 v _)

theorem receivedFrame_desc :
    rd16 (receivedFrame ver flags v d p) (headerLength (receivedFrame ver flags v d p) + 2) = d := by
  rw [receivedFrame_headerLength, receivedFrame_eq_append, List.append_assoc, ← be16_length v, ← List.length_append]
  exact (rd16_append_right _ _ 0).trans (rd16_be16 d _)

theorem receivedFrame_payload :
    slice (receivedFrame ver flags v d p) (headerLength (receivedFrame ver flags v d p) + 4)
      (headerLength (receivedFrame ver flags v d p) + 4 + p.length) = p := by
  have hstart : headerLength (receivedFrame ver flags v d p) + 4 =
      ([startMarker, ver, flags] ++ lengthField (flagExt ver flags) p.length ++ be16 v ++ be16 d).length := by
    rw [List.length_append, List.length_append, receivedFrame_headerLength]
    rfl
  rw [hstart, receivedFrame_eq_append, slice_append_right]
  exact List.take_left

variable {ver flags p}

/-- A length below the limit of its length field is read back (R85, R150). -/
theorem receivedFrame_declaredLength (h : p.length < lengthLimit (flagExt ver flags)) :
    declaredLength (receivedFrame ver flags v d p) = p.length := by
  rw [declaredLength, receivedFrame_version, receivedFrame_flags, receivedFrame_eq_append]
  cases hext : flagExt ver flags <;> rw [hext] at h
  · exact (BitVec.toNat_ofNat p.length 8).trans (Nat.mod_eq_of_lt h)
  · have hread := congrArg BitVec.toNat (rd16_be16 (BitVec.ofNat 16 p.length)
      (be16 v ++ be16 d ++ (p ++ checksumBytes (flagChk flags) (receivedBody ver flags v d p))))
    exact hread.trans ((BitVec.toNat_ofNat p.length 16).trans (Nat.mod_eq_of_lt h))

/-- The checksum that the decoder computes is the one in the frame (R86, R151). -/
theorem receivedFrame_checksum (h : checksumCount (receivedFrame ver flags v d p) = 1) :
    xorsum (slice (receivedFrame ver flags v d p) 0 ((receivedFrame ver flags v d p).length - 1)) =
      byteAt (receivedFrame ver flags v d p) ((receivedFrame ver flags v d p).length - 1) := by
  have hchk : flagChk flags = true := by
    rw [checksumCount, receivedFrame_flags] at h
    simpa using h
  have hframe : receivedFrame ver flags v d p =
      receivedBody ver flags v d p ++ [xorsum (receivedBody ver flags v d p)] := by
    rw [receivedFrame, hchk]
    rfl
  rw [hframe, List.length_append, List.length_singleton, Nat.add_sub_cancel, slice_append_left]
  exact (byteAt_append_right (receivedBody ver flags v d p) [xorsum (receivedBody ver flags v d p)] 0).symm

theorem decFrame_receivedFrame (hver : 3 ≤ ver.toNat) (hlength : p.length < lengthLimit (flagExt ver flags)) :
    decFrame (receivedFrame ver flags v d p) v = .ok (d, p) := by
  have hdeclared := receivedFrame_declaredLength v d hlength
  rw [decFrame_of_checks (receivedFrame_start ..) (by rwa [receivedFrame_version])
    (by rw [hdeclared, ← receivedFrame_length]) (receivedFrame_checksum v d) (receivedFrame_vendor ..),
    receivedFrame_desc, hdeclared, receivedFrame_payload]

end Received

section Accepted
variable {F : Bytes}

/-- The bytes before the vendor are the start byte, version, flags and the length field (R84). -/
theorem slice_headerLength (hstart : byteAt F 0 = startMarker) (h : headerLength F ≤ F.length) :
    slice F 0 (headerLength F) =
      [startMarker, byteAt F 1, byteAt F 2] ++ lengthField (flagExt (byteAt F 1) (byteAt F 2)) (declaredLength F) := by
  have hfirst (h3 : 3 ≤ F.length) : slice F 0 3 = [startMarker, byteAt F 1, byteAt F 2] := by
    rw [← slice_append_slice F (Nat.zero_le 1) (show 1 ≤ 3 by decide), slice_one (by omega), slice_two (by omega),
      hstart, rd16, be16_append]
    rfl
  rw [headerLength] at h ⊢
  rw [declaredLength]
  cases hext : flagExt (byteAt F 1) (byteAt F 2) <;> rw [hext] at h
  · rw [if_neg Bool.false_ne_true] at h ⊢
    rw [← slice_append_slice F (Nat.zero_le 3) (Nat.le_succ 3), hfirst (by omega), slice_one (by omega), lengthField]
    simp
  · rw [if_pos rfl] at h ⊢
    rw [← slice_append_slice F (Nat.zero_le 3) (show 3 ≤ 5 by decide), hfirst (by omega), slice_two (by omega),
      lengthField]
    simp

theorem declaredLength_lt (F : Bytes) : declaredLength F < lengthLimit (flagExt (byteAt F 1) (byteAt F 2)) := by
  rw [declaredLength, lengthLimit]
  split
  · exact (rd16 F 3).isLt
  · exact (byteAt F 3).isLt

/-- A sequence with the checksum that its flags byte asks for is its body and that checksum. -/
theorem eq_withChecksum {n : Nat} (hlen : n + checksumCount F = F.length)
    (hsum : checksumCount F = 1 → xorsum (slice F 0 (F.length - 1)) = byteAt F (F.length - 1)) :
    F = withChecksum (flagChk (byteAt F 2)) (slice F 0 n) := by
  rw [checksumCount] at hlen hsum
  cases hchk : flagChk (byteAt F 2) <;> simp only [hchk] at hlen hsum
  · have hn : n = F.length := hlen
    rw [hn, slice_full]
    rfl
  · have hn : F.length = n + 1 := hlen.symm
    have hlast : slice F n (n + 1) = [xorsum (slice F 0 n)] := by
      have hsum := hsum rfl
      rw [hn, Nat.add_sub_cancel] at hsum
      rw [slice_one (by omega), hsum]
    calc F = slice F 0 (n + 1) := by rw [← hn, slice_full]
      _ = slice F 0 n ++ [xorsum (slice F 0 n)] := by
        rw [← hlast, slice_append_slice F (Nat.zero_le n) (Nat.le_succ n)]

theorem eq_receivedFrame {exp d : BitVec 16} {p : Bytes} (h : decFrame F exp = .ok (d, p)) :
    F = receivedFrame (byteAt F 1) (byteAt F 2) exp d p ∧ p.length = declaredLength F := by
  obtain ⟨-, hstart, -, hlen, hsum, rfl, rfl, hp⟩ := decFrame_ok h
  have hplen : p.length = declaredLength F := by
    rw [hp, slice_length]
    omega
  have hbody : slice F 0 (headerLength F + 4 + declaredLength F) =
      receivedBody (byteAt F 1) (byteAt F 2) (rd16 F (headerLength F)) (rd16 F (headerLength F + 2)) p := by
    rw [receivedBody, hplen, ← slice_headerLength hstart (by omega), ← slice_two (by omega), ← slice_two (by omega), hp,
      slice_append_slice F, slice_append_slice F, slice_append_slice F] <;> omega
  refine ⟨?_, hplen⟩
  rw [receivedFrame, ← hbody]
  exact eq_withChecksum hlen hsum

end Accepted

/-- The decoder accepts the frames of the grammar and nothing else, and answers what they hold (R149 to R152). -/
theorem decFrame_eq_ok_iff {F : Bytes} {exp d : BitVec 16} {p : Bytes} :
    decFrame F exp = .ok (d, p) ↔ FrameParses F exp d p := by
  rw [frameParses_iff]
  constructor
  · intro h
    obtain ⟨hframe, hlength⟩ := eq_receivedFrame h
    obtain ⟨-, -, hver, -⟩ := decFrame_ok h
    exact ⟨byteAt F 1, byteAt F 2, hver, hlength ▸ declaredLength_lt F, hframe⟩
  · rintro ⟨ver, flags, hver, hlength, rfl⟩
    exact decFrame_receivedFrame exp d hver hlength

theorem decFrame_eq_notRecognized {F : Bytes} {exp : BitVec 16} (h : ∀ d p, decFrame F exp ≠ .ok (d, p)) :
    decFrame F exp = .notRecognized := by
  cases hdec : decFrame F exp with
  | ok dp => exact absurd hdec (h dp.1 dp.2)
  | notRecognized => rfl
  | contractError e => exact absurd hdec (decFrame_no_contractError F exp e)

end Sys2Proof.Machine
end

section
/-! The three frame operations (R140 to R154): how each result class of an operation's rule completes, what the encoder
answers, and that the decoder takes it apart again. -/

namespace Sys2Proof.Machine

section Completions
variable {i : Instr} {s : State}

/-- An operation whose rule raises a contract error commits it and nothing else (R244). -/
theorem exec_of_contractError {e : ErrCode} (h : resultOf i s = .contractError e) :
    ∃ t, exec i s = .next t ∧ CompletesEmpty 2 (errCodeBits e) s t := by
  refine ⟨_, exec_eq_completeWith i s, ?_⟩
  rw [h]
  exact raiseContractError_completes e s

/-- R245. -/
theorem exec_of_notRecognized (h : resultOf i s = .notRecognized) :
    ∃ t, exec i s = .next t ∧ CompletesEmpty 1 0 s t := by
  refine ⟨_, exec_eq_completeWith i s, ?_⟩
  rw [h]
  exact completeNotRecognized_completes s

/-- An operation whose rule answers a byte output and a description (R37, R38, R243). -/
theorem exec_of_ok_desc {bytes : Bytes} {d : BitVec 16} (h : resultOf i s = .ok { bytes := bytes, desc := some d }) :
    ∃ t, exec i s = .next t ∧ CompletesOk bytes (resultsWithDesc d s.results) s t := by
  refine ⟨_, exec_eq_completeWith i s, ?_⟩
  rw [h]
  exact completeOk_desc_completes bytes d s

variable {rule : Bytes → Result Commit} (hrule : resultOf i s = andThen (ibufInput s) rule)
include hrule

/-- An operation that reads IBUF completes with IN_LEN_RANGE where the input does not fit (R29, R242). -/
theorem exec_of_input_range (h : s.params.ibufBytes < s.operands.inLen.toNat) :
    ∃ t, exec i s = .next t ∧ CompletesEmpty 2 2 s t := by
  rw [ibufInput_range h] at hrule
  exact exec_of_contractError hrule

theorem resultOf_of_input {p : Bytes} (h : InputIs p s) : resultOf i s = rule p := by
  rw [hrule, ibufInput_ok h, andThen_ok]

end Completions

theorem encPdu_eq_append (v : BitVec 16) (f t c : Nat) (p : Bytes) :
    encPdu v f t c p = be16 v ++ be16 (packDesc f t c) ++ p := rfl

/-- Settles O8: the rule of ENC_PDU tests the input length alone. -/
theorem encPduWritesTheAddressedCommand : Obligations.EncPduWritesTheAddressedCommand := by
  intro s
  refine ⟨fun p hp => exec_of_ok_desc ?_, fun hrange => exec_of_input_range rfl hrange⟩
  rw [← hdrInDesc_eq_maskedHeader]
  exact resultOf_of_input (i := .encPdu) rfl hp

section Encoder
variable {v : BitVec 16} {f t c : Nat} {p : Bytes} {ver : Byte} {chk : Bool}

theorem usesExtension_iff {n : Nat} : usesExtension ver n = true ↔ 4 ≤ ver.toNat ∧ 255 < n := by
  rw [usesExtension, Bool.and_eq_true, Bool.not_eq_true', decide_eq_true_iff, decide_eq_false_iff_not, Nat.not_le]

theorem encFrame_badVersion (h : ver.toNat < 3) : encFrame v f t c p ver chk = .contractError .badVersion :=
  if_pos h

theorem encFrame_payloadTooLong (hver : 3 ≤ ver.toNat)
    (hlong : 4 ≤ ver.toNat ∧ 65535 < p.length ∨ ver.toNat = 3 ∧ 254 < p.length) :
    encFrame v f t c p ver chk = .contractError .payloadTooLong := by
  rw [encFrame, if_neg (by omega)]
  rcases hlong with ⟨hver4, hp⟩ | ⟨hver3, hp⟩
  · rw [if_pos (by omega)]
  · rw [if_neg (by omega), if_pos (by omega)]

/-- The payload limits of R143 for a version that encFrame takes. -/
def WithinLimits (ver : Byte) (n : Nat) : Prop :=
  3 ≤ ver.toNat ∧ (ver.toNat = 3 → n ≤ 254) ∧ (4 ≤ ver.toNat → n ≤ 65535)

/-- The converse of `encFrame_ok`. -/
theorem encFrame_of_withinLimits (h : WithinLimits ver p.length) :
    encFrame v f t c p ver chk = .ok (frameBytes v f t c p ver chk) := by
  obtain ⟨hver, h3, h4⟩ := h
  rw [encFrame, if_neg (by omega), if_neg (by omega), if_neg (by omega)]

theorem flagChk_flagsByte (ext chk : Bool) : flagChk (flagsByte ext chk) = chk := by
  cases ext <;> cases chk <;> decide

theorem flagsByte_getLsbD_one (ext chk : Bool) : (flagsByte ext chk).getLsbD 1 = ext := by
  cases ext <;> cases chk <;> decide

/-- A received flags byte of an encoder says which length field the encoder used (R144, R150). -/
theorem flagExt_flagsByte (n : Nat) : flagExt ver (flagsByte (usesExtension ver n) chk) = usesExtension ver n := by
  rw [flagExt, flagsByte_getLsbD_one, usesExtension, ← Bool.and_assoc, Bool.and_self]

/-- The encoder's frames are frames of the grammar, with the flags byte that the encoder writes. -/
theorem frameBytes_eq_receivedFrame (v : BitVec 16) (f t c : Nat) (p : Bytes) (ver : Byte) (chk : Bool) :
    frameBytes v f t c p ver chk =
      receivedFrame ver (flagsByte (usesExtension ver p.length) chk) v (packDesc f t c) p := by
  have hbody : frameBody v f t c p ver chk =
      receivedBody ver (flagsByte (usesExtension ver p.length) chk) v (packDesc f t c) p := by
    rw [receivedBody, flagExt_flagsByte, frameBody, encPdu_eq_append, ← List.append_assoc, ← List.append_assoc]
  rw [receivedFrame, flagChk_flagsByte, ← hbody]
  rfl

/-- The encoder's frames as the statements write them (R84, R144, R145). -/
theorem frameBytes_eq_frameOf (v : BitVec 16) (f t c : Nat) (p : Bytes) (ver : Byte) (chk : Bool) :
    frameBytes v f t c p ver chk = frameOf v (packDesc f t c) p ver chk := by
  rw [frameBytes_eq_receivedFrame, receivedFrame, flagChk_flagsByte, receivedBody, flagExt_flagsByte, frameOf]
  simp only [← usesExtension_iff]
  cases usesExtension ver p.length <;> cases chk <;> rfl

theorem lengthLimit_of_withinLimits (h : WithinLimits ver p.length) :
    p.length < lengthLimit (usesExtension ver p.length) := by
  obtain ⟨hver, h3, h4⟩ := h
  rw [lengthLimit]
  split
  next => omega
  next hext =>
    rw [usesExtension_iff] at hext
    omega

/-- R154, for numbers of any size: the description keeps of each what its field holds. -/
theorem decFrame_frameBytes (h : WithinLimits ver p.length) :
    decFrame (frameBytes v f t c p ver chk) v = .ok (packDesc f t c, p) := by
  rw [frameBytes_eq_receivedFrame]
  refine decFrame_receivedFrame v (packDesc f t c) h.1 ?_
  rw [flagExt_flagsByte]
  exact lengthLimit_of_withinLimits h

end Encoder

/-- Settles O12: the encoder's frame is a frame of the grammar, and the decoder answers what such a frame holds. -/
theorem frameRoundTrip : Obligations.FrameRoundTrip := by
  intro v f t c p ver chk _ _ _ hver h3 h4
  have hlimits : WithinLimits ver p.length := ⟨hver, h3, h4⟩
  exact ⟨_, encFrame_of_withinLimits hlimits, decFrame_frameBytes hlimits⟩

/-- Settles O10: the lengths of the frame's parts, and the limits of R143 on the longest of them. -/
theorem encodedFrameLength : Obligations.EncodedFrameLength := by
  intro v f t c p ver chk fr h
  have hlongest := encFrame_length_le h
  obtain ⟨-, -, -, rfl⟩ := encFrame_ok h
  have hlen := frameBytes_length v f t c p ver chk
  simp only [usesExtension_iff] at hlen
  refine ⟨hlen, ?_, hlongest⟩
  split at hlen <;> omega

section FrameOperations
variable {s : State}

/-- The result of ENC_FRAME is what encFrame answers for the operands. -/
theorem encFrameResult_of_input {p : Bytes} (h : InputIs p s) :
    resultOf .encFrame s =
      andThen
        (encFrame s.operands.vendorId s.operands.featureIn.toNat s.operands.typeIn.toNat s.operands.commandIn.toNat p
          s.operands.version s.operands.useChecksum)
        fun fr => .ok { bytes := fr, desc := some (hdrInDesc s) } :=
  resultOf_of_input (i := .encFrame) rfl h

/-- The result of DEC_FRAME is what decFrame answers for the candidate. -/
theorem decFrameResult_of_input {F : Bytes} (h : InputIs F s) :
    resultOf .decFrame s =
      andThen (decFrame F s.operands.expectedVendor) fun (d, p) => .ok { bytes := p, desc := some d } :=
  resultOf_of_input (i := .decFrame) rfl h

end FrameOperations

/-- Settles O9: the result of ENC_FRAME follows encFrame through the checks of R143. -/
theorem encFrameWritesTheFrameOrRejects : Obligations.EncFrameWritesTheFrameOrRejects := by
  intro s
  refine ⟨fun hrange => exec_of_input_range rfl hrange, fun p hp => ?_⟩
  have hresult := encFrameResult_of_input hp
  refine ⟨fun hver => ?_, fun hver hlong => ?_, fun hver hlong => ?_, fun hver h3 h4 => ?_⟩
  · rw [encFrame_badVersion hver] at hresult
    exact exec_of_contractError hresult
  · rw [encFrame_payloadTooLong (by omega) (.inl ⟨hver, hlong⟩)] at hresult
    exact exec_of_contractError hresult
  · rw [encFrame_payloadTooLong (by omega) (.inr ⟨hver, hlong⟩)] at hresult
    exact exec_of_contractError hresult
  · rw [encFrame_of_withinLimits ⟨hver, h3, h4⟩, frameBytes_eq_frameOf] at hresult
    rw [← hdrInDesc_eq_maskedHeader]
    exact exec_of_ok_desc hresult

/-- Settles O11: decFrame accepts exactly the frames of the grammar, and where it accepts none DEC_FRAME commits
NOT_RECOGNIZED. -/
theorem decFrameRecognizesExactlyFrames : Obligations.DecFrameRecognizesExactlyFrames := by
  intro s
  refine ⟨fun F hF => ?_, fun hrange => exec_of_input_range rfl hrange⟩
  have hresult := decFrameResult_of_input hF
  refine ⟨fun d p hframe => ?_, fun hnone => ?_⟩
  · rw [decFrame_eq_ok_iff.2 hframe] at hresult
    exact exec_of_ok_desc hresult
  · rw [decFrame_eq_notRecognized fun d p => mt decFrame_eq_ok_iff.1 (hnone d p)] at hresult
    exact exec_of_notRecognized hresult

end Sys2Proof.Machine
end

section
/-! One changed byte of a checksummed frame (R155). While the flags byte still asks for a checksum, the checksum notices
the change. Once it does not, the frame is one byte longer than its length field says, unless that field is read in the
other width. Then the lengths agree in one case, an empty payload read as extended, and what stands where the vendor is
read is the vendor only where the vendor and the high byte of the description are 0. -/

namespace Sys2Proof.Machine

/-- A frame with a checksum that the decoder accepts sums to 0 (R7, R151). -/
theorem xorsum_of_decFrame_ok {F : Bytes} {exp d : BitVec 16} {p : Bytes} (h : decFrame F exp = .ok (d, p))
    (hchk : flagChk (byteAt F 2) = true) : xorsum F = 0 := by
  obtain ⟨hframe, -⟩ := eq_receivedFrame h
  rw [hframe, receivedFrame, hchk, xorsum_withChecksum]

/-- What R155 needs of a frame that encFrame built with a checksum. -/
structure ChecksummedFrame (v d : BitVec 16) (p : Bytes) (ver : Byte) (fr : Bytes) : Prop where
  decodes : decFrame fr v = .ok (d, p)
  version_eq : byteAt fr 1 = ver
  asks_checksum : flagChk (byteAt fr 2) = true
  long_of_extended : flagExt (byteAt fr 1) (byteAt fr 2) = true → 255 < p.length

theorem checksummedFrame_of_encFrame {v : BitVec 16} {f t c : Nat} {p : Bytes} {ver : Byte} {fr : Bytes}
    (h : encFrame v f t c p ver true = .ok fr) : ChecksummedFrame v (packDesc f t c) p ver fr := by
  obtain ⟨hver, h3, h4, hframe⟩ := encFrame_ok h
  have hdecodes : decFrame fr v = .ok (packDesc f t c, p) := hframe ▸ decFrame_frameBytes ⟨hver, h3, h4⟩
  rw [frameBytes_eq_receivedFrame] at hframe
  have hversion : byteAt fr 1 = ver := by rw [hframe, receivedFrame_version]
  have hflags : byteAt fr 2 = flagsByte (usesExtension ver p.length) true := by rw [hframe, receivedFrame_flags]
  refine ⟨hdecodes, hversion, by rw [hflags, flagChk_flagsByte], fun hext => ?_⟩
  rw [hversion, hflags, flagExt_flagsByte, usesExtension_iff] at hext
  exact hext.2

section FlagsWritten
variable {fr : Bytes} (h : 2 < fr.length) (b : Byte)

theorem rd16_set_flags (fr : Bytes) (b : Byte) {j : Nat} (hj : 3 ≤ j) : rd16 (fr.set 2 b) j = rd16 fr j := by
  rw [rd16, rd16, byteAt_set_ne fr (by omega), byteAt_set_ne fr (by omega)]

include h

theorem headerLength_set_flags : headerLength (fr.set 2 b) = if flagExt (byteAt fr 1) b then 5 else 4 := by
  rw [headerLength, byteAt_set_ne fr (by decide), byteAt_set_self fr h]

theorem declaredLength_set_flags :
    declaredLength (fr.set 2 b) = if flagExt (byteAt fr 1) b then (rd16 fr 3).toNat else (byteAt fr 3).toNat := by
  rw [declaredLength, byteAt_set_ne fr (by decide), byteAt_set_self fr h, byteAt_set_ne fr (by decide),
    rd16_set_flags fr b (Nat.le_refl 3)]

theorem checksumCount_set_flags : checksumCount (fr.set 2 b) = if flagChk b then 1 else 0 := by
  rw [checksumCount, byteAt_set_self fr h]

end FlagsWritten

/-- The exception of R155: what the frame and its new flags byte are. -/
structure FlagsException (v d : BitVec 16) (p : Bytes) (ver b : Byte) : Prop where
  version_ge : 4 ≤ ver.toNat
  payload_nil : p = []
  vendor_zero : v = 0
  desc_low : d.toNat < 256
  chk_clear : flagChk b = false
  ext_set : b.getLsbD 1 = true

namespace ChecksummedFrame
variable {v d : BitVec 16} {p : Bytes} {ver : Byte} {fr : Bytes} (hfr : ChecksummedFrame v d p ver fr)
include hfr

theorem length_eq : fr.length = headerLength fr + 4 + p.length + 1 := by
  obtain ⟨hframe, -⟩ := eq_receivedFrame hfr.decodes
  have hcount : checksumCount fr = 1 := by
    rw [checksumCount, hfr.asks_checksum]
    rfl
  have hlen := receivedFrame_length (byteAt fr 1) (byteAt fr 2) v d p
  rwa [← hframe, hcount] at hlen

/-- The bytes of a frame that is not extended (R84, R85). -/
theorem bytes_of_not_extended (hext : flagExt (byteAt fr 1) (byteAt fr 2) = false) :
    fr.length = 9 + p.length ∧ (byteAt fr 3).toNat = p.length ∧
      256 * (byteAt fr 4).toNat + (byteAt fr 5).toNat = v.toNat ∧
      256 * (byteAt fr 6).toNat + (byteAt fr 7).toNat = d.toNat := by
  obtain ⟨-, -, -, -, -, hvendor, hdesc, -⟩ := decFrame_ok hfr.decodes
  obtain ⟨-, hplen⟩ := eq_receivedFrame hfr.decodes
  have hlen := hfr.length_eq
  have hheader : headerLength fr = 4 := by
    rw [headerLength, hext]
    rfl
  rw [declaredLength, hext] at hplen
  rw [hheader] at hlen hvendor hdesc
  exact ⟨by omega, hplen.symm, hvendor ▸ (rd16_toNat fr 4).symm, hdesc ▸ (rd16_toNat fr 6).symm⟩

/-- A changed byte is noticed by the checksum unless the change takes the request for it away. -/
theorem flags_changed {i : Nat} {b : Byte} (hi : i < fr.length) (hb : b ≠ byteAt fr i) {d' : BitVec 16} {p' : Bytes}
    (h : decFrame (fr.set i b) v = .ok (d', p')) : i = 2 ∧ flagChk b = false := by
  have hunasked : flagChk (byteAt (fr.set i b) 2) = false := by
    rw [← Bool.not_eq_true]
    intro hchk
    have hsum := xorsum_of_decFrame_ok hfr.decodes hfr.asks_checksum
    exact xorsum_set_ne hi hb ((xorsum_of_decFrame_ok h hchk).trans hsum.symm)
  by_cases h2 : i = 2
  · subst h2
    rw [byteAt_set_self fr hi] at hunasked
    exact ⟨rfl, hunasked⟩
  · rw [byteAt_set_ne fr h2, hfr.asks_checksum] at hunasked
    exact absurd hunasked (by decide)

/-- A frame whose checksum is no longer asked for is one byte too long, unless it is read as extended and was not. -/
theorem length_field_misread {b : Byte} (hchk : flagChk b = false) {d' : BitVec 16} {p' : Bytes}
    (h : decFrame (fr.set 2 b) v = .ok (d', p')) :
    flagExt (byteAt fr 1) (byteAt fr 2) = false ∧ flagExt (byteAt fr 1) b = true := by
  have hlen := hfr.length_eq
  have h2 : 2 < fr.length := by omega
  obtain ⟨-, hplen⟩ := eq_receivedFrame hfr.decodes
  obtain ⟨-, -, -, hlen', -⟩ := decFrame_ok h
  have hword := rd16_toNat fr 3
  rw [List.length_set, headerLength_set_flags h2, declaredLength_set_flags h2, checksumCount_set_flags h2,
    hchk] at hlen'
  rw [declaredLength] at hplen
  rw [headerLength] at hlen
  cases hext : flagExt (byteAt fr 1) (byteAt fr 2) <;> cases hext' : flagExt (byteAt fr 1) b <;>
    simp only [hext, hext', if_true, if_false, Bool.false_eq_true] at hplen hlen hlen'
  · omega
  · exact ⟨rfl, rfl⟩
  · omega
  · omega

theorem exception_of_accepted {b : Byte} (hchk : flagChk b = false) {d' : BitVec 16} {p' : Bytes}
    (h : decFrame (fr.set 2 b) v = .ok (d', p')) : FlagsException v d p ver b := by
  obtain ⟨hext, hext'⟩ := hfr.length_field_misread hchk h
  obtain ⟨hlen, hplen, hvendor, hdesc⟩ := hfr.bytes_of_not_extended hext
  have h2 : 2 < fr.length := by omega
  obtain ⟨-, -, -, hlen', -, hvendor', -, -⟩ := decFrame_ok h
  have hlength : (rd16 fr 3).toNat = 256 * (byteAt fr 3).toNat + (byteAt fr 4).toNat := rd16_toNat fr 3
  have hshifted : (rd16 fr 5).toNat = 256 * (byteAt fr 5).toNat + (byteAt fr 6).toNat := rd16_toNat fr 5
  rw [headerLength_set_flags h2, hext', if_pos rfl, rd16_set_flags fr b (by decide)] at hvendor'
  rw [List.length_set, headerLength_set_flags h2, declaredLength_set_flags h2, checksumCount_set_flags h2, hchk, hext',
    if_pos rfl, if_pos rfl, if_neg Bool.false_ne_true] at hlen'
  rw [hvendor'] at hshifted
  rw [flagExt, Bool.and_eq_true, decide_eq_true_iff, hfr.version_eq] at hext'
  have hempty : p.length = 0 := by omega
  have hzero : v.toNat = 0 := by omega
  exact ⟨hext'.1, List.eq_nil_of_length_eq_zero hempty, BitVec.eq_of_toNat_eq hzero, by omega, hchk, hext'.2⟩

/-- In the exceptional case the low byte of the description and the checksum are read as the description. -/
theorem accepted_of_exception {b : Byte} (h : FlagsException v d p ver b) :
    decFrame (fr.set 2 b) v = .ok (d.extractLsb' 0 8 ++ byteAt fr 8, []) := by
  obtain ⟨hver, hempty, hzero, hdesc_low, hchk, hext_set⟩ := h
  have hplen0 : p.length = 0 := congrArg List.length hempty
  have hzero : v.toNat = 0 := congrArg BitVec.toNat hzero
  obtain ⟨-, hstart, hver3, -⟩ := decFrame_ok hfr.decodes
  have hext : flagExt (byteAt fr 1) (byteAt fr 2) = false :=
    Bool.eq_false_iff.2 fun hext => by have := hfr.long_of_extended hext; omega
  have hext' : flagExt (byteAt fr 1) b = true := by
    rw [flagExt, hext_set, hfr.version_eq, decide_eq_true hver]
    rfl
  obtain ⟨hlen, hplen, hvendor, hdesc⟩ := hfr.bytes_of_not_extended hext
  have h2 : 2 < fr.length := by omega
  have hlength : (rd16 fr 3).toNat = 256 * (byteAt fr 3).toNat + (byteAt fr 4).toNat := rd16_toNat fr 3
  have hshifted : (rd16 fr 5).toNat = 256 * (byteAt fr 5).toNat + (byteAt fr 6).toNat := rd16_toNat fr 5
  have hheader : headerLength (fr.set 2 b) = 5 := by rw [headerLength_set_flags h2, hext', if_pos rfl]
  have hdeclared : declaredLength (fr.set 2 b) = 0 := by
    rw [declaredLength_set_flags h2, hext', if_pos rfl]
    omega
  have hcount : checksumCount (fr.set 2 b) = 0 := by
    rw [checksumCount_set_flags h2, hchk, if_neg Bool.false_ne_true]
  have hvendor' : rd16 (fr.set 2 b) 5 = v := by
    apply BitVec.eq_of_toNat_eq
    rw [rd16_set_flags fr b (by decide)]
    omega
  have hlow : d.extractLsb' 0 8 = byteAt fr 7 := by
    apply BitVec.eq_of_toNat_eq
    rw [BitVec.extractLsb'_toNat, Nat.shiftRight_zero]
    omega
  have hdec : decFrame (fr.set 2 b) v = .ok (rd16 (fr.set 2 b) 7, slice (fr.set 2 b) 9 9) := by
    have hread := decFrame_of_checks (F := fr.set 2 b) (exp := v) (by rwa [byteAt_set_ne fr (by decide)])
      (by rwa [byteAt_set_ne fr (by decide)]) (by rw [hheader, hdeclared, hcount, List.length_set]; omega)
      (fun hchk' => by omega) (by rw [hheader, hvendor'])
    rwa [hheader, hdeclared] at hread
  rw [hdec, rd16_set_flags fr b (by decide), hlow, slice, Nat.sub_self, List.take_zero]
  rfl

end ChecksummedFrame

/-- The high byte of a packed description is 0 where the feature is 0 and the packet type Command or Notification. -/
theorem packDesc_lt_256_iff {f t c : Nat} (hf : f < 128) (ht : t < 4) (hc : c < 128) :
    (packDesc f t c).toNat < 256 ↔ f = 0 ∧ t < 2 := by
  have hfields : (packDesc f t c).toNat = 512 * f + 128 * t + c := by
    rw [packDesc_eq_append, toNat_append_eq_add, toNat_append_eq_add, BitVec.toNat_ofNat, BitVec.toNat_ofNat,
      BitVec.toNat_ofNat]
    omega
  omega

/-- Settles O13: an accepted change is the one of the exception, and that one is accepted. -/
theorem oneChangedByteIsNotRecognized : Obligations.OneChangedByteIsNotRecognized := by
  intro v f t c p ver fr i b hf ht hc henc hi hb
  have hfr := checksummedFrame_of_encFrame henc
  have hlow := packDesc_lt_256_iff hf ht hc
  split
  next h =>
    obtain ⟨hver, hp, hv, hf0, ht2, rfl, hchk, hext⟩ := h
    rw [hfr.accepted_of_exception ⟨hver, hp, hv, hlow.2 ⟨hf0, ht2⟩, hchk, hext⟩]
  next hnot =>
    refine decFrame_eq_notRecognized fun d' p' h => hnot ?_
    obtain ⟨rfl, hunasked⟩ := hfr.flags_changed hi hb h
    obtain ⟨hver, hp, hv, hdesc, hchk, hext⟩ := hfr.exception_of_accepted hunasked h
    obtain ⟨hf0, ht2⟩ := hlow.1 hdesc
    exact ⟨hver, hp, hv, hf0, ht2, rfl, hchk, hext⟩

end Sys2Proof.Machine
end

section
/-! The upgrade-message codec (R170 to R174): the decoder accepts a message with any bytes after it and no other
sequences. As bytes after a message change nothing, a prefix that held a message would give the whole the same content,
and a proper prefix is too short for it. -/

namespace Sys2Proof.Machine

section Completions
variable {i : Instr} {s : State}

/-- An operation whose rule answers a byte output and no result register (R243). -/
theorem exec_of_ok_bytes {bytes : Bytes} (h : resultOf i s = .ok { bytes := bytes }) :
    ∃ t, exec i s = .next t ∧ CompletesOk bytes s.results s t := by
  refine ⟨_, exec_eq_completeWith i s, ?_⟩
  rw [h]
  exact completeOk_completes { bytes := bytes } s

/-- An operation whose rule answers a byte output and an upgrade opcode (R39, R243). -/
theorem exec_of_ok_upgOpcode {bytes : Bytes} {op : Byte}
    (h : resultOf i s = .ok { bytes := bytes, upgOpcode := some op }) :
    ∃ t, exec i s = .next t ∧ CompletesOk bytes { s.results with upgOpcode := op } s t := by
  refine ⟨_, exec_eq_completeWith i s, ?_⟩
  rw [h]
  exact completeOk_completes { bytes := bytes, upgOpcode := some op } s

end Completions

theorem encUpg_of_fits {op : Byte} {c : Bytes} (h : c.length ≤ 65535) :
    encUpg op c = .ok ([op] ++ be16 (BitVec.ofNat 16 c.length) ++ c) := if_pos h

theorem encUpg_contentTooLong {op : Byte} {c : Bytes} (h : 65535 < c.length) :
    encUpg op c = .contractError .contentTooLong := if_neg (Nat.not_le.2 h)

/-- decUpg never raises a contract error (R246). -/
theorem decUpg_no_contractError (m : Bytes) (e : ErrCode) : decUpg m ≠ .contractError e := by
  unfold decUpg
  split
  · exact nofun
  split <;> exact nofun

section Grammar
variable {m content : Bytes} {op : Byte}

/-- The two bytes after the opcode declare the length of the content (R89). -/
theorem declared_content_length (h : content.length < 65536) (trailing : Bytes) :
    (rd16 ([op] ++ be16 (BitVec.ofNat 16 content.length) ++ content ++ trailing) 1).toNat = content.length := by
  have hread := rd16_append_right [op] (be16 (BitVec.ofNat 16 content.length) ++ (content ++ trailing)) 0
  rw [rd16_be16] at hread
  rw [List.append_assoc, List.append_assoc]
  exact (congrArg BitVec.toNat hread).trans (Nat.mod_eq_of_lt h)

theorem decUpg_of_messageParses (h : MessageParses m op content) : decUpg m = .ok (op, content) := by
  obtain ⟨hlength, trailing, rfl⟩ := h
  have hdeclared := declared_content_length (op := op) hlength trailing
  have hcontent : slice ([op] ++ be16 (BitVec.ofNat 16 content.length) ++ content ++ trailing) 3
      (3 + content.length) = content := by
    rw [List.append_assoc]
    exact (slice_append_right _ (content ++ trailing) content.length).trans List.take_left
  unfold decUpg
  rw [hdeclared, hcontent, if_neg (by simp), if_neg (by simp)]
  rfl

theorem messageParses_of_decUpg (h : decUpg m = .ok (op, content)) : MessageParses m op content := by
  obtain ⟨hfits, rfl, hcontent⟩ := decUpg_ok h
  have hlength : content.length = (rd16 m 1).toNat := by
    rw [hcontent, slice_length]
    omega
  refine ⟨hlength ▸ (rd16 m 1).isLt, m.drop (3 + (rd16 m 1).toNat), ?_⟩
  rw [hlength, BitVec.ofNat_toNat, BitVec.setWidth_eq, ← slice_one (by omega), ← slice_two (by omega), hcontent,
    slice_append_slice m (by omega) (by omega), slice_append_slice m (by omega) (by omega)]
  exact (List.take_append_drop _ m).symm

/-- The decoder accepts the sequences that begin with a message and no others, and answers what the message holds
(R172). -/
theorem decUpg_eq_ok_iff : decUpg m = .ok (op, content) ↔ MessageParses m op content :=
  ⟨messageParses_of_decUpg, decUpg_of_messageParses⟩

theorem decUpg_eq_notRecognized (h : ∀ op content, ¬MessageParses m op content) : decUpg m = .notRecognized := by
  cases hdec : decUpg m with
  | ok v => exact absurd (messageParses_of_decUpg hdec) (h v.1 v.2)
  | notRecognized => rfl
  | contractError e => exact absurd hdec (decUpg_no_contractError m e)

/-- Bytes after a message change nothing (R172). -/
theorem MessageParses.append (h : MessageParses m op content) (x : Bytes) : MessageParses (m ++ x) op content := by
  obtain ⟨hlength, trailing, rfl⟩ := h
  exact ⟨hlength, trailing ++ x, List.append_assoc ..⟩

theorem MessageParses.length_le (h : MessageParses m op content) : 3 + content.length ≤ m.length := by
  obtain ⟨-, trailing, rfl⟩ := h
  simp
  omega

theorem MessageParses.unique {op' : Byte} {content' : Bytes} (h : MessageParses m op content)
    (h' : MessageParses m op' content') : op = op' ∧ content = content' := by
  have hsame := (decUpg_of_messageParses h).symm.trans (decUpg_of_messageParses h')
  injection hsame with hpair
  exact Prod.mk.inj hpair

/-- A message with nothing after it has no proper prefix that begins with a message (R174). -/
theorem decUpg_proper_prefix (h : MessageParses m op content) (hexact : m.length = 3 + content.length) {n : Nat}
    (hn : n < m.length) : decUpg (m.take n) = .notRecognized := by
  refine decUpg_eq_notRecognized fun op' content' hprefix => ?_
  have hwhole : MessageParses m op' content' := List.take_append_drop n m ▸ hprefix.append (m.drop n)
  obtain ⟨-, rfl⟩ := h.unique hwhole
  have hshort := hprefix.length_le
  rw [List.length_take] at hshort
  omega

end Grammar

/-- Settles O16: what encUpg answers is a message with nothing after it. -/
theorem upgradeMessageLaws : Obligations.UpgradeMessageLaws := by
  intro op c hlength
  have hmessage : MessageParses ([op] ++ be16 (BitVec.ofNat 16 c.length) ++ c) op c :=
    ⟨Nat.lt_succ_of_le hlength, [], (List.append_nil _).symm⟩
  exact ⟨_, encUpg_of_fits hlength, fun x => decUpg_of_messageParses (hmessage.append x),
    decUpg_of_messageParses hmessage, fun n hn => decUpg_proper_prefix hmessage (by simp; omega) hn⟩

section UpgradeOperations
variable {s : State}

/-- The result of ENC_UPG is what encUpg answers for the operands. -/
theorem encUpgResult_of_input {c : Bytes} (h : InputIs c s) :
    resultOf .encUpg s = andThen (encUpg s.operands.upgOpcode c) fun u => .ok { bytes := u } :=
  resultOf_of_input (i := .encUpg) rfl h

/-- The result of DEC_UPG is what decUpg answers for the input. -/
theorem decUpgResult_of_input {m : Bytes} (h : InputIs m s) :
    resultOf .decUpg s =
      andThen (decUpg m) fun (op, content) => .ok { bytes := content, upgOpcode := some op } :=
  resultOf_of_input (i := .decUpg) rfl h

end UpgradeOperations

/-- Settles O14: after the input length, the rule of ENC_UPG tests the content length alone. -/
theorem encUpgWritesTheMessage : Obligations.EncUpgWritesTheMessage := by
  intro s
  refine ⟨fun c hc hfits => ?_, fun c hc hlong => ?_, fun hrange => exec_of_input_range rfl hrange⟩
  · have hresult := encUpgResult_of_input hc
    rw [encUpg_of_fits hfits] at hresult
    exact exec_of_ok_bytes hresult
  · have hresult := encUpgResult_of_input hc
    rw [encUpg_contentTooLong hlong] at hresult
    exact exec_of_contractError hresult

/-- Settles O15: decUpg accepts exactly the messages, and where it accepts none DEC_UPG commits NOT_RECOGNIZED. -/
theorem decUpgTakesTheMessageApart : Obligations.DecUpgTakesTheMessageApart := by
  intro s
  refine ⟨fun m hm => ?_, fun hrange => exec_of_input_range rfl hrange⟩
  have hresult := decUpgResult_of_input hm
  refine ⟨fun op content hmessage => ?_, fun hnone => ?_⟩
  · rw [decUpg_eq_ok_iff.2 hmessage] at hresult
    exact exec_of_ok_upgOpcode hresult
  · rw [decUpg_eq_notRecognized hnone] at hresult
    exact exec_of_notRecognized hresult

end Sys2Proof.Machine
end

section
/-! The response recognizers (R190 to R193): a description is the one a recognizer wants exactly where its three fields
are; the payload of a "data bytes requested" notification is a message with two words. -/

namespace Sys2Proof.Machine

section RefusingRules
variable {α β : Type} {r : Result α} {f : α → Result β}

theorem andThen_eq_ok_iff {b : β} : andThen r f = .ok b ↔ ∃ a, r = .ok a ∧ f a = .ok b := by
  refine ⟨andThen_eq_ok, ?_⟩
  rintro ⟨a, rfl, hf⟩
  exact hf

/-- A sequence of two rules that raise no contract error raises none. -/
theorem andThen_no_contractError (hr : ∀ e, r ≠ .contractError e) (hf : ∀ a e, f a ≠ .contractError e) (e : ErrCode) :
    andThen r f ≠ .contractError e := by
  cases r with
  | ok a => exact hf a e
  | notRecognized => exact nofun
  | contractError e' => exact absurd rfl (hr e')

/-- A rule that answers nothing and raises no contract error says NotRecognized (R9). -/
theorem eq_notRecognized (hr : ∀ e, r ≠ .contractError e) (hnone : ∀ a, r ≠ .ok a) : r = .notRecognized := by
  cases r with
  | ok a => exact absurd rfl (hnone a)
  | notRecognized => rfl
  | contractError e => exact absurd rfl (hr e)

end RefusingRules

section Words

theorem be32_append (a b : BitVec 16) : be32 (a ++ b) = be16 a ++ be16 b := by
  rw [be32, BitVec.extractLsb'_append_eq_of_le (by decide), BitVec.extractLsb'_append_eq_of_le (by decide),
    BitVec.extractLsb'_append_eq_of_add_le (by decide), BitVec.extractLsb'_append_eq_of_add_le (by decide)]
  rfl

/-- A word is its two halves, the most significant one first. -/
theorem be32_eq_halves (v : Word) : be32 v = be16 (v.extractLsb' 16 16) ++ be16 (v.extractLsb' 0 16) := by
  rw [← be32_append, BitVec.extractLsb'_append_extractLsb' (w := 16) (len := 16)]

variable {s t : Bytes}

theorem rd32_append_right (i : Nat) : rd32 (s ++ t) (s.length + i) = rd32 t i := by
  rw [rd32, rd32, Nat.add_assoc, rd16_append_right, rd16_append_right]

/-- rd32 reads back be32 (R6). -/
theorem rd32_be32 (v : Word) (rest : Bytes) : rd32 (be32 v ++ rest) 0 = v := by
  rw [be32_eq_halves, List.append_assoc, rd32, rd16_be16,
    show (0 + 2) = (be16 (v.extractLsb' 16 16)).length + 0 from rfl, rd16_append_right, rd16_be16]
  exact BitVec.extractLsb'_append_extractLsb' (w := 16) (len := 16)

theorem slice_four {i : Nat} (h : i + 3 < s.length) : slice s i (i + 4) = be32 (rd32 s i) := by
  rw [rd32, be32_append, ← slice_two (by omega), ← slice_two (by omega),
    slice_append_slice s (by omega) (by omega)]

/-- Eight bytes are two words. -/
theorem eq_two_words (h : s.length = 8) : s = be32 (rd32 s 0) ++ be32 (rd32 s 4) := by
  calc s = slice s 0 8 := by rw [← h, slice_full]
    _ = slice s 0 4 ++ slice s 4 8 := (slice_append_slice s (by decide) (by decide)).symm
    _ = _ := by rw [← slice_four (by omega), ← slice_four (by omega)]

/-- Two words read back (R192). -/
theorem rd32_two_words (a b : Word) : rd32 (be32 a ++ be32 b) 0 = a ∧ rd32 (be32 a ++ be32 b) 4 = b := by
  refine ⟨rd32_be32 a (be32 b), ?_⟩
  calc rd32 (be32 a ++ be32 b) 4 = rd32 (be32 b) 0 := rd32_append_right (s := be32 a) 0
    _ = rd32 (be32 b ++ []) 0 := by rw [List.append_nil]
    _ = b := rd32_be32 b []

end Words

section Recognition
variable {F p : Bytes} {exp d : BitVec 16}

/-- The three field tests of a recognizer are one test of the description (R190, R192). -/
theorem descIs_iff {feature : BitVec 7} {t : PacketType} {command : BitVec 7} :
    descIs d feature t command = true ↔ d = feature ++ packetTypeCode t ++ command := by
  rw [descIs, Bool.and_eq_true, Bool.and_eq_true, beq_iff_eq, beq_iff_eq, beq_iff_eq]
  constructor
  · rintro ⟨⟨rfl, rfl⟩, ht⟩
    rw [← ht]
    exact (fields_append d).symm
  · rintro rfl
    rw [unpackDesc_append]
    exact ⟨⟨rfl, rfl⟩, rfl⟩

theorem appVersion_descIs_iff : descIs d frameworkFeature .response appVersionCommand = true ↔ d = 0x0105 := descIs_iff

theorem dataRequest_descIs_iff :
    descIs d upgradeFeature .notification upgradeNotificationCommand = true ↔ d = 0x0C80 := descIs_iff

theorem recAppVer_no_contractError (F : Bytes) (exp : BitVec 16) : ∀ e, recAppVer F exp ≠ .contractError e :=
  andThen_no_contractError (decFrame_no_contractError F exp) fun _ _ => by dsimp only; split <;> exact nofun

/-- recAppVer recognizes the frames with description 0x0105 and no other candidate (R190). -/
theorem recAppVer_eq_ok_iff : recAppVer F exp = .ok (d, p) ↔ d = 0x0105 ∧ FrameParses F exp 0x0105 p := by
  rw [recAppVer, andThen_eq_ok_iff]
  constructor
  · rintro ⟨⟨d', p'⟩, hframe, h⟩
    dsimp only at h
    split at h
    next hdesc =>
      obtain rfl := appVersion_descIs_iff.1 hdesc
      injection h with h
      obtain ⟨rfl, rfl⟩ := Prod.mk.inj h
      exact ⟨rfl, decFrame_eq_ok_iff.1 hframe⟩
    next => exact nomatch h
  · rintro ⟨rfl, hframe⟩
    exact ⟨_, decFrame_eq_ok_iff.2 hframe, if_pos (appVersion_descIs_iff.2 rfl)⟩

theorem dataRequestOf_no_contractError (d : BitVec 16) (p : Bytes) : ∀ e, dataRequestOf d p ≠ .contractError e :=
  andThen_no_contractError (decUpg_no_contractError p) fun _ _ => by
    dsimp only
    split
    · exact nofun
    split <;> exact nofun

/-- The payload of a notification is a message with opcode 3 and two words (R192). -/
theorem dataRequestOf_eq_ok_iff {q : DataRequest} :
    dataRequestOf d p = .ok q ↔
      ∃ requested moveBy, MessageParses p 0x03 (be32 requested ++ be32 moveBy) ∧ q = ⟨d, 0x03, requested, moveBy⟩ := by
  rw [dataRequestOf, andThen_eq_ok_iff]
  constructor
  · rintro ⟨⟨op, content⟩, hmessage, h⟩
    dsimp only at h
    split at h
    · exact nomatch h
    next hop =>
      split at h
      · exact nomatch h
      next hlength =>
        injection h with h
        obtain rfl : op = 0x03 := not_not.1 hop
        have hwords := eq_two_words (not_not.1 hlength)
        exact ⟨_, _, hwords ▸ decUpg_eq_ok_iff.1 hmessage, h.symm⟩
  · rintro ⟨requested, moveBy, hmessage, rfl⟩
    obtain ⟨hrequested, hmoveBy⟩ := rd32_two_words requested moveBy
    refine ⟨_, decUpg_eq_ok_iff.2 hmessage, ?_⟩
    dsimp only
    rw [if_neg (not_not.2 rfl), if_neg (by simp), hrequested, hmoveBy]

theorem recDataReq_no_contractError (F : Bytes) (exp : BitVec 16) : ∀ e, recDataReq F exp ≠ .contractError e :=
  andThen_no_contractError (decFrame_no_contractError F exp) fun _ _ => by
    dsimp only
    split
    · exact dataRequestOf_no_contractError _ _ _
    · exact nofun

/-- recDataReq recognizes the candidates that hold a notification with two words and no other (R192). -/
theorem recDataReq_eq_ok_iff {q : DataRequest} :
    recDataReq F exp = .ok q ↔
      ∃ requested moveBy, RequestParses F exp requested moveBy ∧ q = ⟨0x0C80, 0x03, requested, moveBy⟩ := by
  rw [recDataReq, andThen_eq_ok_iff]
  constructor
  · rintro ⟨⟨d, p⟩, hframe, h⟩
    dsimp only at h
    split at h
    next hdesc =>
      obtain rfl := dataRequest_descIs_iff.1 hdesc
      obtain ⟨requested, moveBy, hmessage, hq⟩ := dataRequestOf_eq_ok_iff.1 h
      exact ⟨requested, moveBy, ⟨p, decFrame_eq_ok_iff.1 hframe, hmessage⟩, hq⟩
    next => exact nomatch h
  · rintro ⟨requested, moveBy, ⟨p, hframe, hmessage⟩, rfl⟩
    refine ⟨_, decFrame_eq_ok_iff.2 hframe, ?_⟩
    dsimp only
    rw [if_pos (dataRequest_descIs_iff.2 rfl)]
    exact dataRequestOf_eq_ok_iff.2 ⟨requested, moveBy, hmessage, rfl⟩

end Recognition

section Completions
variable {i : Instr} {s : State}

/-- An operation whose rule answers a data request and no byte output (R37 to R41, R243). -/
theorem exec_of_ok_dataRequest {d : BitVec 16} {op : Byte} {requested moveBy : Word}
    (h : resultOf i s = .ok { desc := some d, upgOpcode := some op, dataRequest := some (requested, moveBy) }) :
    ∃ t, exec i s = .next t ∧
      CompletesOk []
        { resultsWithDesc d s.results with upgOpcode := op, requested := requested, moveBy := moveBy } s t := by
  refine ⟨_, exec_eq_completeWith i s, ?_⟩
  rw [h]
  exact completeOk_completes { desc := some d, upgOpcode := some op, dataRequest := some (requested, moveBy) } s

/-- Every instruction with the rule of REC_APPVER completes as R191 says. -/
theorem completesAsAppVersion_of_rule (hrule : resultOf i s = recAppverResult s) : CompletesAsAppVersion i s := by
  refine ⟨fun F hF => ?_, fun hrange => exec_of_input_range hrule hrange⟩
  have hresult := resultOf_of_input hrule hF
  refine ⟨fun p hframe => ?_, fun hnone => ?_⟩
  · rw [recAppVer_eq_ok_iff.2 ⟨rfl, hframe⟩] at hresult
    exact exec_of_ok_desc hresult
  · rw [eq_notRecognized (recAppVer_no_contractError F _) fun v hv => hnone v.2 (recAppVer_eq_ok_iff.1 hv).2] at hresult
    exact exec_of_notRecognized hresult

/-- Every instruction with the rule of REC_DATAREQ completes as R193 says. -/
theorem completesAsDataRequest_of_rule (hrule : resultOf i s = recDatareqResult s) : CompletesAsDataRequest i s := by
  refine ⟨fun F hF => ?_, fun hrange => exec_of_input_range hrule hrange⟩
  have hresult := resultOf_of_input hrule hF
  refine ⟨fun requested moveBy hrequest => ?_, fun hnone => ?_⟩
  · rw [recDataReq_eq_ok_iff.2 ⟨requested, moveBy, hrequest, rfl⟩] at hresult
    exact exec_of_ok_dataRequest hresult
  · have hrejected : ∀ q, recDataReq F s.operands.expectedVendor ≠ .ok q := fun q hq => by
      obtain ⟨requested, moveBy, hrequest, -⟩ := recDataReq_eq_ok_iff.1 hq
      exact hnone requested moveBy hrequest
    rw [eq_notRecognized (recDataReq_no_contractError F _) hrejected] at hresult
    exact exec_of_notRecognized hresult

end Completions

/-- Settles O17: recAppVer accepts exactly the frames with description 0x0105. -/
theorem recAppverRecognizesTheResponse : Obligations.RecAppverRecognizesTheResponse := fun _ =>
  completesAsAppVersion_of_rule rfl

/-- Settles O18: recDataReq accepts exactly the frames with description 0x0C80 around a message with two words. -/
theorem recDatareqRecognizesTheNotification : Obligations.RecDatareqRecognizesTheNotification := fun _ =>
  completesAsDataRequest_of_rule rfl

end Sys2Proof.Machine
end

section
/-! Probing (R194): a recognizer reads the operand registers and IBUF, which no completion changes, so its result is the
same before and after; where the probe before it did not match, only STATUS and OUT_LEN differ when it completes. -/

namespace Sys2Proof.Machine

/-- DEC_FRAME, REC_APPVER or REC_DATAREQ: what a host tries on one candidate (R194). -/
def IsProbe (i : Instr) : Prop := i = .decFrame ∨ i = .recAppver ∨ i = .recDatareq

/-- The result registers that a probe's rule lists (R153, R191, R193). -/
def Lists (i : Instr) (c : Commit) : Prop :=
  c.desc.isSome = true ∧ (i = .recDatareq → c.upgOpcode.isSome = true ∧ c.dataRequest.isSome = true)

section Listed
variable {i : Instr} {s : State} {c : Commit}

/-- A probe that matches commits every register that its rule lists. -/
theorem lists_of_resultOf_eq_ok (hi : IsProbe i) (h : resultOf i s = .ok c) : Lists i c := by
  rcases hi with rfl | rfl | rfl
  all_goals
    obtain ⟨F, -, h⟩ := andThen_eq_ok h
    obtain ⟨v, -, h⟩ := andThen_eq_ok h
    injection h with h
    subst h
  · exact ⟨rfl, nofun⟩
  · exact ⟨rfl, nofun⟩
  · exact ⟨rfl, fun _ => ⟨rfl, rfl⟩⟩

/-- What a commit leaves in a register that it lists does not depend on what stood there. -/
theorem committedResults_listed (h : Lists i c) (r r' : ResultRegs) :
    ((committedResults c r').desc = (committedResults c r).desc ∧
      (committedResults c r').feature = (committedResults c r).feature ∧
      (committedResults c r').packetType = (committedResults c r).packetType ∧
      (committedResults c r').command = (committedResults c r).command) ∧
      (i = .recDatareq → (committedResults c r').upgOpcode = (committedResults c r).upgOpcode ∧
        (committedResults c r').requested = (committedResults c r).requested ∧
        (committedResults c r').moveBy = (committedResults c r).moveBy) := by
  obtain ⟨hdesc, hrequest⟩ := h
  obtain ⟨d, hd⟩ := Option.isSome_iff_exists.1 hdesc
  simp only [committedResults, withDesc_eq, withUpgOpcode_eq, withDataRequest_eq, withProgress_eq]
  refine ⟨by simp [hd], fun hi => ?_⟩
  obtain ⟨hop, hwords⟩ := hrequest hi
  obtain ⟨op, hop⟩ := Option.isSome_iff_exists.1 hop
  obtain ⟨words, hwords⟩ := Option.isSome_iff_exists.1 hwords
  simp [hop, hwords]

end Listed

section Status
variable {r : Result Commit} {s : State}

theorem eq_ok_of_status (h : (completeWith r s).status.result = 0) : ∃ c, r = .ok c := by
  cases r with
  | ok c => exact ⟨c, rfl⟩
  | notRecognized => exact absurd h (by decide : (1 : BitVec 2) ≠ 0)
  | contractError e => exact absurd h (by decide : (2 : BitVec 2) ≠ 0)

theorem eq_notRecognized_of_status (h : (completeWith r s).status.result = 1) : r = .notRecognized := by
  cases r with
  | ok c => exact absurd h (by decide : (0 : BitVec 2) ≠ 1)
  | notRecognized => rfl
  | contractError e => exact absurd h (by decide : (2 : BitVec 2) ≠ 1)

end Status

/-- What an operation reads is the same after any completion (R45, R63). -/
theorem resultOf_of_keepsInputs {s t : State} (i : Instr) (h : KeepsInputs s t) : resultOf i t = resultOf i s := by
  obtain ⟨hoperands, hibuf, hfwbuf, hparams, -, -⟩ := h
  exact resultOf_congr i hoperands (by rw [segOperands, hoperands, hparams, segOperands])
    (ibufInput_congr hoperands (by rw [hparams]) fun a _ => hibuf a)
    (firmwareInput_congr hoperands hparams fun a _ => hfwbuf a)

/-- After a NOT_RECOGNIZED completion any other ends as it would have ended without it: only STATUS and OUT_LEN were
written (R245), and every completion writes both. -/
theorem completeWith_after_notRecognized (r : Result Commit) (s : State) :
    (completeWith r (completeNotRecognized s)).results = (completeWith r s).results ∧
      SameBytes .obuf (completeWith r s) (completeWith r (completeNotRecognized s)) := by
  cases r with
  | ok c =>
    refine ⟨rfl, fun a => ?_⟩
    show bufferByte .obuf a (completeOk c (completeNotRecognized s)) = bufferByte .obuf a (completeOk c s)
    rw [completeOk_obufByte, completeOk_obufByte]
    rfl
  | notRecognized => exact ⟨rfl, fun _ => rfl⟩
  | contractError e => exact ⟨rfl, fun _ => rfl⟩

/-- Settles O19: both runs of the second probe complete with one and the same result. -/
theorem probingDoesNotDisturb : Obligations.ProbingDoesNotDisturb := by
  intro s t i j _ hj hexec
  rw [exec_eq_completeWith] at hexec
  injection hexec with ht
  have hkeeps : KeepsInputs s t := ht ▸ completeWith_keepsInputs (resultOf i s) s
  have hprobe : t.status.result = 1 → t = completeNotRecognized s := by
    rw [← ht]
    intro hresult
    rw [eq_notRecognized_of_status hresult]
    rfl
  have hsame : resultOf j t = resultOf j s := resultOf_of_keepsInputs j hkeeps
  obtain ⟨-, hibuf, -⟩ := hkeeps
  refine ⟨hibuf, fun hresult => hprobe hresult ▸ completeNotRecognized_completes s, _, _, exec_eq_completeWith j s,
    exec_eq_completeWith j t, ?_⟩
  rw [hsame]
  obtain ⟨hstatus, houtLen, hbytes, -, -⟩ := sameCompletion_completeWith s t (resultOf j s)
  have hlisted (h : (completeWith (resultOf j s) s).status.result = 0) : ∃ c, resultOf j s = .ok c ∧ Lists j c := by
    obtain ⟨c, hc⟩ := eq_ok_of_status h
    exact ⟨c, hc, lists_of_resultOf_eq_ok hj hc⟩
  refine ⟨hstatus, houtLen, hbytes, fun hok => ?_, fun hok hdatareq => ?_, fun hresult => ?_⟩
  · obtain ⟨c, hc, hlists⟩ := hlisted hok
    rw [hc]
    exact (committedResults_listed hlists s.results t.results).1
  · obtain ⟨c, hc, hlists⟩ := hlisted hok
    rw [hc]
    exact (committedResults_listed hlists s.results t.results).2 hdatareq
  · rw [hprobe hresult]
    exact completeWith_after_notRecognized (resultOf j s) s

end Sys2Proof.Machine
end

section
/-! What SEGMENT completes with (R210 to R219). The bytes to send are cut into chunks of the limit in force and a last
one that is not longer; an empty run is one empty chunk, so the acknowledgement of R217 is no case apart. The chunk loop
emits the frames of these chunks, and its turns are those of the cutting. -/

namespace Sys2Proof.Machine

section Chunks
variable {limit : Nat} {run : Bytes}

/-- A run of bytes that the limit holds is one chunk. -/
theorem ChunksOf.one (h : run.length ≤ limit) : ChunksOf limit run [run] :=
  ⟨List.flatten_singleton, fun hnil => by rw [hnil], fun hrun => ⟨rfl, run, rfl, List.length_pos_iff.2 hrun, h⟩⟩

/-- A longer run is a full chunk and the chunks of what is left. -/
theorem ChunksOf.cons {chunks : List Bytes} (hlong : limit < run.length) (h : ChunksOf limit (run.drop limit) chunks) :
    ChunksOf limit run (run.take limit :: chunks) := by
  obtain ⟨hflatten, -, hcut⟩ := h
  obtain ⟨hfull, last, hlast, hlength⟩ := hcut (List.ne_nil_of_length_pos (by rw [List.length_drop]; omega))
  have hchunks : chunks ≠ [] := fun hnil => by simp [hnil] at hlast
  refine ⟨?_, fun hnil => by simp [hnil] at hlong, fun _ => ⟨?_, last, ?_, hlength⟩⟩
  · rw [List.flatten_cons, hflatten, List.take_append_drop]
  · rw [List.dropLast_cons_of_ne_nil hchunks, List.all_cons, hfull, List.length_take, Nat.min_eq_left hlong.le]
    simp
  · rw [List.getLast?_cons, hlast, Option.getD_some]

/-- The chunks of a run, cut off from its front in at most the given number of cuts. -/
def cutUp (limit : Nat) : Nat → Bytes → List Bytes
  | 0, run => [run]
  | cuts + 1, run => if run.length ≤ limit then [run] else run.take limit :: cutUp limit cuts (run.drop limit)

theorem cutUp_of_le (cuts : Nat) (h : run.length ≤ limit) : cutUp limit cuts run = [run] := by
  cases cuts with
  | zero => rfl
  | succ cuts => exact if_pos h

theorem cutUp_succ_of_lt (cuts : Nat) (h : limit < run.length) :
    cutUp limit (cuts + 1) run = run.take limit :: cutUp limit cuts (run.drop limit) := if_neg (Nat.not_le.2 h)

/-- As many cuts as there are bytes are enough. -/
theorem cutUp_chunksOf (hlimit : 1 ≤ limit) {cuts : Nat} (h : run.length ≤ cuts) :
    ChunksOf limit run (cutUp limit cuts run) := by
  induction cuts generalizing run with
  | zero => exact .one (h.trans (Nat.zero_le _))
  | succ cuts ih =>
    by_cases hlong : limit < run.length
    · rw [cutUp_succ_of_lt cuts hlong]
      exact .cons hlong (ih (by rw [List.length_drop]; omega))
    · rw [cutUp_of_le _ (Nat.not_lt.1 hlong)]
      exact .one (Nat.not_lt.1 hlong)

end Chunks

section Slices
variable (s : Bytes) (a n m : Nat)

theorem slice_add : slice s a (a + n) = (s.drop a).take n := by rw [slice, Nat.add_sub_cancel_left]

theorem take_slice (h : m ≤ n) : (slice s a (a + n)).take m = slice s a (a + m) := by
  rw [slice_add, slice_add, List.take_take, Nat.min_eq_left h]

theorem drop_slice : (slice s a (a + n)).drop m = slice s (a + m) (a + m + (n - m)) := by
  rw [slice_add, slice_add, List.drop_take, List.drop_drop]

theorem slice_add_length (h : a + n ≤ s.length) : (slice s a (a + n)).length = n := by
  rw [slice_length]
  omega

end Slices

section Frames
variable {fw : Bytes} {g : SegOperands}

/-- The frame that carries a marker and a chunk, as the statements write it (R91). -/
def chunkFrame (ver : Byte) (chk : Bool) (m : Byte) (d : Bytes) : Bytes :=
  frameOf 0x001D 0x0C02 ([0x04] ++ be16 (BitVec.ofNat 16 (1 + d.length)) ++ [m] ++ d) ver chk

theorem dataFrames_cons (ver : Byte) (chk : Bool) (L cur : Nat) (d : Bytes) (ds : List Bytes) :
    dataFrames ver chk L cur (d :: ds) =
      chunkFrame ver chk (finalMarker (cur + d.length) L) d :: dataFrames ver chk L (cur + d.length) ds := rfl

/-- dataFrame(m, d) of a chunk that a frame can carry (R216). -/
theorem dataFrame_eq_chunkFrame {d : Bytes} (m : Byte) (h : ChunkFits g d.length) :
    dataFrame g m d = .ok (chunkFrame g.ver g.chk m d) := by
  obtain ⟨hver, h3, h4⟩ := h
  have hlength : ([m] ++ d).length = 1 + d.length := by rw [List.length_append, List.length_singleton]
  have hlimits : WithinLimits g.ver
      ([upgradeDataOpcode] ++ be16 (BitVec.ofNat 16 (1 + d.length)) ++ ([m] ++ d)).length := by
    rw [List.length_append, List.length_append, be16_length, List.length_singleton, hlength]
    exact ⟨hver, fun h => by have := h3 h; omega, fun h => by have := h4 h; omega⟩
  rw [dataFrame, encUpg_of_fits (by rw [hlength]; omega), andThen_ok, hlength, encFrame_of_withinLimits hlimits,
    frameBytes_eq_frameOf, ← List.append_assoc]
  rfl

variable {avail : Nat}

/-- A loop that has sent everything is done (R216). -/
theorem segLoop_done (turns : Nat) {p : SegProgress} (h : p.sent = avail) : segLoop fw g avail turns p = .ok p := by
  cases turns with
  | zero => rfl
  | succ turns => exact if_neg (by omega)

/-- One turn of the loop emits the frame of the next chunk (R216). -/
theorem segLoop_succ (hfit : ∀ k, k ≤ min (segEff g) avail → ChunkFits g k) (turns k : Nat) {p : SegProgress}
    (hsent : p.sent < avail) (hk : k = min (segEff g) (avail - p.sent)) (hend : p.cur + k ≤ fw.length) :
    segLoop fw g avail (turns + 1) p =
      segLoop fw g avail turns
        { out := p.out ++ chunkFrame g.ver g.chk (finalMarker (p.cur + k) fw.length) (slice fw p.cur (p.cur + k))
          cur := p.cur + k
          sent := p.sent + k
          frames := p.frames + 1 } := by
  have hframe := dataFrame_eq_chunkFrame (g := g) (d := slice fw p.cur (p.cur + k))
    (finalMarker (p.cur + k) fw.length) (hfit _ (by rw [slice_add_length _ _ _ hend]; omega))
  rw [segLoop, if_pos hsent, segChunk, ← hk, hframe]
  rfl

/-- The loop emits the frames of the chunks of what is left to send (R216). -/
theorem segLoop_eq (heff : 1 ≤ segEff g) (hfit : ∀ k, k ≤ min (segEff g) avail → ChunkFits g k) {turns rest : Nat}
    {p : SegProgress} (hrest : rest = avail - p.sent) (hpos : 0 < rest) (hturns : rest ≤ turns)
    (hend : p.cur + rest ≤ fw.length) :
    segLoop fw g avail turns p =
      .ok
        { out := p.out ++ (dataFrames g.ver g.chk fw.length p.cur
            (cutUp (segEff g) turns (slice fw p.cur (p.cur + rest)))).flatten
          cur := p.cur + rest
          sent := avail
          frames := p.frames + (cutUp (segEff g) turns (slice fw p.cur (p.cur + rest))).length } := by
  induction turns generalizing p rest with
  | zero => omega
  | succ turns ih =>
    have hall : p.sent + rest = avail := by omega
    have hlength := slice_add_length fw p.cur rest hend
    by_cases hlong : segEff g < rest
    · rw [segLoop_succ hfit turns (segEff g) (by omega) (by omega) (by omega),
        ih (rest := rest - segEff g) (by simp only; omega) (by omega) (by omega) (by simp only; omega),
        cutUp_succ_of_lt turns (by omega), take_slice fw p.cur rest _ hlong.le, drop_slice, dataFrames_cons,
        slice_add_length fw p.cur (segEff g) (by omega)]
      simp only [List.flatten_cons, List.append_assoc, List.length_cons, Result.ok.injEq, SegProgress.mk.injEq,
        true_and]
      omega
    · rw [segLoop_succ hfit turns rest (by omega) (by omega) hend, segLoop_done turns (by simp only; omega),
        cutUp_of_le _ (by omega), dataFrames_cons, hlength]
      simp only [dataFrames, List.flatten_singleton, List.length_singleton, hall]

/-- The chunks that the segmenter sends. -/
def sentChunks (fw : Bytes) (g : SegOperands) : List Bytes :=
  cutUp (segEff g) (segAvail fw.length g)
    (slice fw (segCur2 fw.length g).toNat ((segCur2 fw.length g).toNat + segAvail fw.length g))

theorem sentChunks_chunksOf (fw : Bytes) (hmax : g.maxChunk ≠ 0) :
    ChunksOf (segEff g)
      (slice fw (segCur2 fw.length g).toNat ((segCur2 fw.length g).toNat + segAvail fw.length g)) (sentChunks fw g) :=
  cutUp_chunksOf (one_le_segEff hmax) (slice_add_length _ _ _ (segAvail_le fw.length g)).le

/-- Steps 5 and 6 emit the frames of the chunks, one empty chunk included, and put the cursor behind them (R216,
R217). -/
theorem segEmit_eq (hver : 3 ≤ g.ver.toNat) (hmax : g.maxChunk ≠ 0)
    (hlong : 4 ≤ g.ver.toNat → min (segEff g) (segAvail fw.length g) + 4 ≤ 65535) :
    segEmit fw g =
      .ok
        { out := (dataFrames g.ver g.chk fw.length (segCur2 fw.length g).toNat (sentChunks fw g)).flatten
          cur := (segCur2 fw.length g).toNat + segAvail fw.length g
          sent := segAvail fw.length g
          frames := (sentChunks fw g).length } := by
  have hfit : ∀ k, k ≤ min (segEff g) (segAvail fw.length g) → ChunkFits g k :=
    fun _ hk => chunkFits_of_checks hver hlong hk
  have hend := segAvail_le fw.length g
  rw [segEmit]
  rcases Nat.eq_zero_or_pos (segAvail fw.length g) with havail | havail
  · have hchunks : sentChunks fw g = [[]] := by
      rw [sentChunks, havail, slice_add, List.take_zero]
      rfl
    rw [segLoop_done _ havail.symm, andThen_ok, segAcknowledge, if_pos havail,
      dataFrame_eq_chunkFrame _ (hfit 0 (Nat.zero_le _)), andThen_ok, hchunks, dataFrames_cons, havail]
    simp [dataFrames]
  · rw [segLoop_eq (rest := segAvail fw.length g) (p := ⟨[], (segCur2 fw.length g).toNat, 0, 0⟩) (one_le_segEff hmax)
      hfit rfl havail le_rfl hend, andThen_ok, segAcknowledge, if_neg havail.ne']
    simp [sentChunks]

/-- R211, the first check of an operand. -/
theorem segmentFn_badVersion (hver : g.ver.toNat < 3) : segmentFn fw g = .contractError .badVersion := if_pos hver

theorem segmentFn_badMaxPerPacket (hver : 3 ≤ g.ver.toNat) (hmax : g.maxChunk = 0) :
    segmentFn fw g = .contractError .badMaxPerPacket := by
  rw [segmentFn, if_neg (by omega), if_pos hmax]

theorem segmentFn_payloadTooLong (hver : 4 ≤ g.ver.toNat) (hmax : g.maxChunk ≠ 0)
    (hlong : 65535 < min (segEff g) (segAvail fw.length g) + 4) :
    segmentFn fw g = .contractError .payloadTooLong := by
  rw [segmentFn, if_neg (by omega), if_neg hmax, if_pos (by omega)]

end Frames

section Operands

/-- The signed reading of a word compares it with 2^31 (R4, R32). -/
theorem sext_eq_cursorNumber (v : Word) : sext v = cursorNumber v := by
  have htop : v.getLsbD 31 = decide (2 ^ 31 ≤ v.toNat) := v.msb_eq_getLsbD_last.symm.trans v.msb_eq_decide
  rw [sext, cursorNumber, htop]
  simp only [decide_eq_true_eq]

theorem peerWord_eq_peerNumber (p : Params) (v : Word) : peerWord p v = peerNumber p.peerWordSigned v := by
  rw [peerWord_eq, sext_eq_cursorNumber]
  cases p.peerWordSigned <;> simp [peerNumber, cursorNumber, zext]

variable (s : State)

/-- The operands of the segmenter as the statements read them (R210). -/
theorem segOperands_eq :
    segOperands s =
      { cur0 := cursorNumber s.operands.cursorIn
        req := peerNumber s.params.peerWordSigned s.operands.requestedIn
        rew := peerNumber s.params.peerWordSigned s.operands.rewindIn
        maxChunk := s.operands.maxPerPacket.toNat
        ver := s.operands.version
        chk := s.operands.useChecksum } := by
  rw [segOperands, sext_eq_cursorNumber, peerWord_eq_peerNumber, peerWord_eq_peerNumber]

theorem segEff_segOperands : segEff (segOperands s) = chunkLimitOf s := rfl

/-- R212, R213. -/
theorem segCur2_segOperands : (segCur2 s.operands.fwLen.toNat (segOperands s)).toNat = startCursor s := by
  rw [segOperands_eq]
  rfl

/-- R215. -/
theorem segAvail_segOperands : segAvail s.operands.fwLen.toNat (segOperands s) = sendable s := by
  rw [segOperands_eq]
  rfl

end Operands

section Completions
variable {i : Instr} {s : State}

/-- An operation whose rule answers a byte output, a cursor and a number of frames (R42, R43, R243). -/
theorem exec_of_ok_progress {bytes : Bytes} {cursor frames : Word}
    (h : resultOf i s = .ok { bytes := bytes, progress := some (cursor, frames) }) :
    ∃ t, exec i s = .next t ∧ CompletesOk bytes { s.results with cursor := cursor, frames := frames } s t := by
  refine ⟨_, exec_eq_completeWith i s, ?_⟩
  rw [h]
  exact completeOk_completes { bytes := bytes, progress := some (cursor, frames) } s

/-- Every instruction with the rule of SEGMENT completes as R219 says. -/
theorem completesAsSegment_of_rule (hrule : resultOf i s = segmentResult s) : CompletesAsSegment i s := by
  refine ⟨fun hrange => ?_, fun fw hfw => ?_⟩
  · rw [segmentResult, firmwareInput_range hrange] at hrule
    exact exec_of_contractError hrule
  have hresult : resultOf i s = andThen (segmentFn fw (segOperands s)) fun p =>
      .ok { bytes := p.out, progress := some (BitVec.ofNat 32 p.cur, BitVec.ofNat 32 p.frames) } := by
    rw [hrule, segmentResult, firmwareInput_ok hfw, andThen_ok]
  obtain ⟨hlength, -, -⟩ := hfw
  have hcursor : (segCur2 fw.length (segOperands s)).toNat = startCursor s := hlength ▸ segCur2_segOperands s
  have havail : segAvail fw.length (segOperands s) = sendable s := hlength ▸ segAvail_segOperands s
  have hmaxChunk (h : s.operands.maxPerPacket ≠ 0) : (segOperands s).maxChunk ≠ 0 :=
    fun hzero => h (BitVec.eq_of_toNat_eq hzero)
  refine ⟨fun hver => ?_, fun hver hmax => ?_, fun hver hmax hlong => ?_, fun hver hmax hlong => ?_⟩
  · rw [segmentFn_badVersion hver] at hresult
    exact exec_of_contractError hresult
  · rw [segmentFn_badMaxPerPacket hver (congrArg BitVec.toNat hmax)] at hresult
    exact exec_of_contractError hresult
  · rw [← havail] at hlong
    rw [segmentFn_payloadTooLong hver (hmaxChunk hmax) hlong] at hresult
    exact exec_of_contractError hresult
  · have hchunks := sentChunks_chunksOf fw (hmaxChunk hmax)
    rw [← havail] at hlong
    rw [segmentFn_eq_segEmit hver (hmaxChunk hmax) hlong, segEmit_eq hver (hmaxChunk hmax) hlong, andThen_ok, hcursor,
      havail] at hresult
    rw [hcursor, havail, segEff_segOperands] at hchunks
    obtain ⟨t, hexec, hcompletes⟩ := exec_of_ok_progress hresult
    exact ⟨t, _, hexec, hchunks, hcompletes⟩

end Completions

/-- Settles O21: each row has the rule of the operation that it names. -/
theorem wireSelectorsCompleteByTheirRules : Obligations.WireSelectorsCompleteByTheirRules := fun _ =>
  ⟨completesAsAppVersion_of_rule rfl, completesAsDataRequest_of_rule rfl, completesAsDataRequest_of_rule rfl,
    completesAsSegment_of_rule rfl, fun _ => completesAsSegment_of_rule rfl⟩

end Sys2Proof.Machine
end

section
/-! A run of frames splits in one way (R88, R148, R220): the first five bytes of a frame say how long it is, so two frames
that begin the same bytes are the same frame. -/

namespace Sys2Proof.Machine

section FrameLengths
variable {F : Bytes} (h : 5 ≤ F.length) (rest : Bytes)
include h

/-- The bytes that say how long a frame is are the same with bytes after it. -/
theorem byteAt_append_of_lt_five {i : Nat} (hi : i < 5) : byteAt (F ++ rest) i = byteAt F i :=
  byteAt_append_left (hi.trans_le h)

theorem headerLength_append : headerLength (F ++ rest) = headerLength F := by
  rw [headerLength, byteAt_append_of_lt_five h rest (by decide), byteAt_append_of_lt_five h rest (by decide), headerLength]

theorem checksumCount_append : checksumCount (F ++ rest) = checksumCount F := by
  rw [checksumCount, byteAt_append_of_lt_five h rest (by decide), checksumCount]

theorem declaredLength_append : declaredLength (F ++ rest) = declaredLength F := by
  rw [declaredLength, rd16, byteAt_append_of_lt_five h rest (by decide), byteAt_append_of_lt_five h rest (by decide),
    byteAt_append_of_lt_five h rest (by decide), byteAt_append_of_lt_five h rest (by decide), declaredLength, rd16]

end FrameLengths

section Recognized
variable {vendor : BitVec 16} {f f' rest rest' : Bytes}

/-- A sequence that begins with a recognizable frame says how long the frame is (R84, R150). -/
theorem length_of_recognized (hf : ∃ r, decFrame f vendor = .ok r) (rest : Bytes) :
    5 ≤ f.length ∧
      f.length = headerLength (f ++ rest) + 4 + declaredLength (f ++ rest) + checksumCount (f ++ rest) := by
  obtain ⟨⟨d, p⟩, hdec⟩ := hf
  obtain ⟨hlong, -, -, hlen, -⟩ := decFrame_ok hdec
  have hfive : 5 ≤ f.length := by omega
  rw [headerLength_append hfive, declaredLength_append hfive, checksumCount_append hfive]
  exact ⟨hfive, hlen.symm⟩

/-- Two recognizable frames that begin the same bytes are the same frame. -/
theorem recognized_append_inj (hf : ∃ r, decFrame f vendor = .ok r) (hf' : ∃ r, decFrame f' vendor = .ok r)
    (heq : f ++ rest = f' ++ rest') : f = f' ∧ rest = rest' := by
  obtain ⟨-, hlen⟩ := length_of_recognized hf rest
  obtain ⟨-, hlen'⟩ := length_of_recognized hf' rest'
  exact List.append_inj heq (by rw [hlen, hlen', heq])

/-- Bytes that begin with a recognizable frame are some. -/
theorem recognized_append_ne_nil (hf : ∃ r, decFrame f vendor = .ok r) : f ++ rest ≠ [] := fun hnil => by
  obtain ⟨hfive, -⟩ := length_of_recognized hf rest
  rw [(List.append_eq_nil_iff.1 hnil).1, List.length_nil] at hfive
  omega

end Recognized

/-- Settles O51, by induction on the first list: the two runs begin with the same frame. -/
theorem runsOfFramesSplitUniquely : Obligations.RunsOfFramesSplitUniquely := by
  intro vendor frames
  induction frames with
  | nil =>
    intro frames' _ hall' heq
    cases frames' with
    | nil => rfl
    | cons f' frames' => exact absurd heq.symm (recognized_append_ne_nil (hall' f' List.mem_cons_self))
  | cons f frames ih =>
    intro frames' hall hall' heq
    have hf := hall f List.mem_cons_self
    cases frames' with
    | nil => exact absurd heq (recognized_append_ne_nil hf)
    | cons f' frames' =>
      obtain ⟨rfl, hrest⟩ := recognized_append_inj hf (hall' f' List.mem_cons_self) heq
      rw [ih frames' (fun x hx => hall x (List.mem_cons_of_mem f hx)) (fun x hx => hall' x (List.mem_cons_of_mem f hx))
        hrest]

section CarriedData
variable {frames datas datas' : List Bytes} {out : Bytes}

/-- Frames that carry the given data one by one, as the statements write it of an output (R91, R220). -/
def FramesCarry (frames datas : List Bytes) : Prop :=
  frames.length = datas.length ∧
    ∀ (j : Nat) (hj : j < frames.length) (hd : j < datas.length), ∃ (m : Byte) (payload : Bytes),
      decFrame frames[j] 0x001D = .ok (0x0C02, payload) ∧ decUpg payload = .ok (0x04, m :: datas[j])

theorem carriesData_iff : CarriesData out datas ↔ ∃ frames, out = frames.flatten ∧ FramesCarry frames datas := Iff.rfl

theorem FramesCarry.recognized (h : FramesCarry frames datas) : ∀ f ∈ frames, ∃ r, decFrame f 0x001D = .ok r := by
  obtain ⟨hlen, hdec⟩ := h
  intro f hf
  obtain ⟨j, hj, rfl⟩ := List.getElem_of_mem hf
  obtain ⟨_, _, hframe, -⟩ := hdec j hj (hlen ▸ hj)
  exact ⟨_, hframe⟩

/-- Each frame and each message is decoded to one value. -/
theorem FramesCarry.unique (h : FramesCarry frames datas) (h' : FramesCarry frames datas') : datas = datas' := by
  obtain ⟨hlen, hdec⟩ := h
  obtain ⟨hlen', hdec'⟩ := h'
  refine List.ext_getElem (hlen.symm.trans hlen') fun j hd hd' => ?_
  obtain ⟨_, payload, hframe, hmessage⟩ := hdec j (hlen ▸ hd) hd
  obtain ⟨_, payload', hframe', hmessage'⟩ := hdec' j (hlen ▸ hd) hd'
  obtain rfl : payload = payload' := by
    rw [hframe] at hframe'
    injection hframe' with hpair
    exact (Prod.mk.inj hpair).2
  rw [hmessage] at hmessage'
  injection hmessage' with hpair
  exact (List.cons.inj (Prod.mk.inj hpair).2).2

/-- An output carries its data in one way, for it splits into its frames in one way (R220). -/
theorem CarriesData.unique (h : CarriesData out datas) (h' : CarriesData out datas') : datas = datas' := by
  obtain ⟨frames, rfl, hcarry⟩ := carriesData_iff.1 h
  obtain ⟨frames', heq, hcarry'⟩ := carriesData_iff.1 h'
  obtain rfl := runsOfFramesSplitUniquely 0x001D frames frames' hcarry.recognized hcarry'.recognized heq
  exact hcarry.unique hcarry'

end CarriedData

end Sys2Proof.Machine
end

section
/-! What the segmenter answers (R210 to R218, R220). It answers the frames of the chunks of the bytes to send; every such
frame decodes to its marker and chunk, and as every chunk but an only one holds a byte, the last chunk alone can end at the
end of the firmware. -/

namespace Sys2Proof.Machine

section Chunks
variable {limit : Nat} {run : Bytes} {chunks : List Bytes}

/-- Chunks are full ones and a last one, which is empty only where it is the only one. -/
theorem ChunksOf.eq_append (h : ChunksOf limit run chunks) :
    ∃ full last, chunks = full ++ [last] ∧ (∀ c ∈ full, c.length = limit) ∧ last.length ≤ limit ∧
      (last = [] → full = []) := by
  obtain ⟨-, hnone, hsome⟩ := h
  by_cases hrun : run = []
  · exact ⟨[], [], hnone hrun, nofun, Nat.zero_le _, fun _ => rfl⟩
  · obtain ⟨hfull, last, hlast, hpos, hle⟩ := hsome hrun
    refine ⟨chunks.dropLast, last, (List.dropLast_append_getLast? last hlast).symm, fun c hc => ?_, hle, fun hnil => ?_⟩
    · exact beq_iff_eq.1 (List.all_eq_true.1 hfull c hc)
    · rw [hnil, List.length_nil] at hpos
      omega

theorem ChunksOf.length_pos (h : ChunksOf limit run chunks) : 1 ≤ chunks.length := by
  obtain ⟨full, last, rfl, -⟩ := h.eq_append
  rw [List.length_append]
  exact Nat.le_add_left 1 _

theorem ChunksOf.length_le_of_mem (h : ChunksOf limit run chunks) {c : Bytes} (hc : c ∈ chunks) :
    c.length ≤ min limit run.length := by
  refine Nat.le_min.2 ⟨?_, h.1 ▸ (List.sublist_flatten_of_mem hc).length_le⟩
  obtain ⟨full, last, rfl, hfull, hlast, -⟩ := h.eq_append
  rcases List.mem_append.1 hc with hc | hc
  · exact (hfull c hc).le
  · rwa [List.mem_singleton.1 hc]

/-- The number of chunks is the length of the run over the limit, rounded up. -/
theorem ChunksOf.length_eq (h : ChunksOf limit run chunks) (hrun : run ≠ []) :
    chunks.length = (run.length + (limit - 1)) / limit := by
  have hflatten := h.1
  obtain ⟨full, last, rfl, hfull, hlast, hnil⟩ := h.eq_append
  have hpos : last ≠ [] := fun hlast => hrun (by rw [← hflatten, hnil hlast, hlast]; rfl)
  have hpos := List.length_pos_iff.2 hpos
  have hlen : run.length = full.length * limit + last.length := by
    rw [← hflatten, List.flatten_append, List.flatten_singleton, List.length_append, List.length_flatten,
      List.map_congr_left hfull, List.map_const', List.sum_replicate, smul_eq_mul]
  rw [List.length_append, List.length_singleton, hlen]
  symm
  rw [Nat.div_eq_iff (by omega), Nat.add_mul]
  omega

/-- The last chunk ends where the run ends, and no chunk before it does. -/
theorem ChunksOf.end_eq_iff (h : ChunksOf limit run chunks) {j : Nat} (hj : j < chunks.length) :
    (chunks.take (j + 1)).flatten.length = run.length ↔ j + 1 = chunks.length := by
  rw [← h.1]
  refine ⟨fun heq => ?_, fun hall => by rw [hall, List.take_length]⟩
  by_contra hne
  obtain ⟨full, last, rfl, -, -, hnil⟩ := h.eq_append
  rw [List.length_append, List.length_singleton] at hj hne
  rw [List.take_append_of_le_length (by omega), List.flatten_append, List.flatten_singleton, List.length_append] at heq
  have hle := (List.take_sublist (j + 1) full).flatten.length_le
  have hlast : last = [] := List.length_eq_zero_iff.1 (by omega)
  rw [hnil hlast, List.length_nil] at hj hne
  omega

end Chunks

section Frames
variable {g : SegOperands} {m : Byte} {d fr : Bytes}

/-- A frame of the segmenter decodes to its marker and chunk (R220 property 6). -/
theorem decFrame_of_dataFrame (h : dataFrame g m d = .ok fr) :
    ∃ payload, decFrame fr 0x001D = .ok (0x0C02, payload) ∧ decUpg payload = .ok (0x04, m :: d) := by
  obtain ⟨u, hu, hfr⟩ := andThen_eq_ok h
  obtain ⟨hver, h3, h4, rfl⟩ := encFrame_ok hfr
  obtain ⟨hlength, rfl⟩ := encUpg_ok hu
  refine ⟨_, decFrame_frameBytes ⟨hver, h3, h4⟩, decUpg_of_messageParses ⟨Nat.lt_succ_of_le hlength, [], ?_⟩⟩
  rw [List.append_nil]
  rfl

/-- A frame with the marker alone has at most 13 bytes (R217, R218). -/
theorem chunkFrame_nil_length_le (h : ChunkFits g 0) (m : Byte) : (chunkFrame g.ver g.chk m []).length ≤ 13 := by
  obtain ⟨fr, hfr, -, hlength⟩ := dataFrame_ok (m := m) (d := []) h
  rw [dataFrame_eq_chunkFrame m h] at hfr
  injection hfr with hfr
  rw [hfr, hlength (Nat.zero_le _), List.length_nil]
  split <;> omega

variable (ver : Byte) (chk : Bool) (L : Nat)

theorem dataFrames_length (cur : Nat) (ds : List Bytes) : (dataFrames ver chk L cur ds).length = ds.length := by
  induction ds generalizing cur with
  | nil => rfl
  | cons d ds ih => rw [dataFrames_cons, List.length_cons, List.length_cons, ih]

/-- The frame of a chunk is marked final exactly where the chunk ends at the end of the firmware (R216). -/
theorem dataFrames_getElem (cur : Nat) (ds : List Bytes) {j : Nat} (hj : j < (dataFrames ver chk L cur ds).length)
    (hd : j < ds.length) :
    (dataFrames ver chk L cur ds)[j] =
      chunkFrame ver chk (finalMarker (cur + (ds.take (j + 1)).flatten.length) L) ds[j] := by
  induction ds generalizing cur j with
  | nil => exact absurd hd (Nat.not_lt_zero j)
  | cons d ds ih =>
    simp only [dataFrames_cons, List.take_succ_cons, List.flatten_cons, List.length_append]
    cases j with
    | zero => simp
    | succ j =>
      simp only [List.getElem_cons_succ, ← Nat.add_assoc]
      exact ih _ _ (by simpa using hd)

end Frames

section Answers
variable {fw : Bytes} {g : SegOperands} {p : SegProgress}

/-- The frames that the segmenter sends. -/
def sentFrames (fw : Bytes) (g : SegOperands) : List Bytes :=
  dataFrames g.ver g.chk fw.length (segCur2 fw.length g).toNat (sentChunks fw g)

/-- The bytes that the segmenter sends (R212, R213, R215). -/
def sentRun (fw : Bytes) (g : SegOperands) : Bytes :=
  slice fw (segCur2 fw.length g).toNat ((segCur2 fw.length g).toNat + segAvail fw.length g)

theorem sentRun_length (fw : Bytes) (g : SegOperands) : (sentRun fw g).length = segAvail fw.length g :=
  slice_add_length fw _ _ (segAvail_le fw.length g)

theorem sentFrames_length (fw : Bytes) (g : SegOperands) : (sentFrames fw g).length = (sentChunks fw g).length :=
  dataFrames_length ..

theorem segmentFn_eq_sentFrames (hver : 3 ≤ g.ver.toNat) (hmax : g.maxChunk ≠ 0)
    (hlong : 4 ≤ g.ver.toNat → min (segEff g) (segAvail fw.length g) + 4 ≤ 65535) :
    segmentFn fw g =
      .ok
        { out := (sentFrames fw g).flatten
          cur := (segCur2 fw.length g).toNat + segAvail fw.length g
          sent := segAvail fw.length g
          frames := (sentFrames fw g).length } := by
  rw [segmentFn_eq_segEmit hver hmax hlong, segEmit_eq hver hmax hlong, sentFrames_length]
  rfl

/-- All that the segmenter can answer with OK. -/
theorem segmentFn_answers (h : segmentFn fw g = .ok p) :
    ChunksOf (segEff g) (sentRun fw g) (sentChunks fw g) ∧
      (∀ k, k ≤ min (segEff g) (segAvail fw.length g) → ChunkFits g k) ∧
      p.out = (sentFrames fw g).flatten ∧ p.cur = (segCur2 fw.length g).toNat + segAvail fw.length g ∧
      p.frames = (sentFrames fw g).length := by
  obtain ⟨hver, hmax, hlong, -⟩ := segmentFn_eq_ok h
  rw [segmentFn_eq_sentFrames hver hmax hlong] at h
  injection h with h
  subst h
  exact ⟨sentChunks_chunksOf fw hmax, fun _ => chunkFits_of_checks hver hlong, rfl, rfl, rfl⟩

/-- Where nothing is to be sent, the one frame carries the marker alone (R217). -/
theorem sentFrames_of_nothing (hmax : g.maxChunk ≠ 0) (hnothing : segAvail fw.length g = 0) :
    sentFrames fw g = [chunkFrame g.ver g.chk (finalMarker (segCur2 fw.length g).toNat fw.length) []] := by
  have hrun : sentRun fw g = [] := List.length_eq_zero_iff.1 ((sentRun_length fw g).trans hnothing)
  rw [sentFrames, (sentChunks_chunksOf fw hmax).2.1 hrun]
  rfl

/-- Each frame decodes to its chunk and to the marker, which is 1 on a last frame that ends the firmware (R216, R220). -/
theorem sentFrames_decode (h : segmentFn fw g = .ok p) {j : Nat} (hj : j < (sentFrames fw g).length)
    (hd : j < (sentChunks fw g).length) :
    ∃ payload, decFrame (sentFrames fw g)[j] 0x001D = .ok (0x0C02, payload) ∧
      decUpg payload = .ok (0x04, (if j + 1 = p.frames ∧ p.cur = fw.length then 1 else 0) :: (sentChunks fw g)[j]) := by
  obtain ⟨hchunks, hfit, -, hcur, hframes⟩ := segmentFn_answers h
  have hlength := sentRun_length fw g
  have hend := segAvail_le fw.length g
  have hchunk := hchunks.length_le_of_mem (List.getElem_mem hd)
  have hposition := hchunks.end_eq_iff hd
  have hbefore := ((sentChunks fw g).take_sublist (j + 1)).flatten.length_le
  rw [hchunks.1] at hbefore
  have hmarker : finalMarker ((segCur2 fw.length g).toNat + ((sentChunks fw g).take (j + 1)).flatten.length) fw.length =
      if j + 1 = p.frames ∧ p.cur = fw.length then 1 else 0 := by
    rw [sentFrames_length] at hframes
    exact if_congr (by omega) rfl rfl
  rw [← hmarker]
  refine decFrame_of_dataFrame (g := g) ?_
  rw [dataFrame_eq_chunkFrame _ (hfit _ (by omega))]
  exact congrArg Result.ok (dataFrames_getElem ..).symm

theorem segmentFn_carriesData (h : segmentFn fw g = .ok p) : CarriesData p.out (sentChunks fw g) := by
  obtain ⟨-, -, hout, -⟩ := segmentFn_answers h
  refine carriesData_iff.2 ⟨sentFrames fw g, hout, sentFrames_length fw g, fun j hj hd => ?_⟩
  obtain ⟨payload, hdecodes⟩ := sentFrames_decode h hj hd
  exact ⟨_, payload, hdecodes⟩

/-- The data bytes of an answer are the firmware bytes sent (R220 property 5). -/
theorem CarriesData.flatten_eq (h : segmentFn fw g = .ok p) {datas : List Bytes} (hdatas : CarriesData p.out datas) :
    datas.flatten = sentRun fw g := by
  obtain ⟨hchunks, -⟩ := segmentFn_answers h
  rw [hdatas.unique (segmentFn_carriesData h), hchunks.1]

end Answers

/-- Settles O20: SEGMENT completes by its rule. -/
theorem segmentEmitsTheChunksOrRejects : Obligations.SegmentEmitsTheChunksOrRejects := fun _ =>
  completesAsSegment_of_rule rfl

/-- Settles O22: the frames and the data are the chunks' frames and the chunks. -/
theorem segmenterFramesDecode : Obligations.SegmenterFramesDecode := by
  intro fw g p h
  obtain ⟨hchunks, -, hout, -, hframes⟩ := segmentFn_answers h
  refine ⟨sentFrames fw g, sentChunks fw g, hout, hframes.symm, by rw [hframes, sentFrames_length], hchunks.1,
    fun j hj hd => ?_⟩
  obtain ⟨payload, hframe, hmessage⟩ := sentFrames_decode h hj hd
  exact ⟨_, payload, hframe, hmessage, rfl⟩

/-- Settles O23: an empty run is one empty chunk. -/
theorem nothingToSendIsAcknowledged : Obligations.NothingToSendIsAcknowledged := by
  intro fw g hver hmax hnothing
  rw [segmentFn_eq_sentFrames hver hmax fun _ => by omega, sentFrames_of_nothing hmax hnothing, hnothing,
    List.flatten_singleton]
  rfl

/-- Settles O25: the chunk loop takes at most 14 bytes for each byte sent, and the acknowledgement takes at most 13. -/
theorem segmenterOutputBound : Obligations.SegmenterOutputBound := by
  intro fw g p h
  obtain ⟨hver, hmax, hlong, hemit⟩ := segmentFn_eq_ok h
  obtain ⟨-, hfit, hframes, -⟩ := segmentFn_answers h
  rcases Nat.eq_zero_or_pos (segAvail fw.length g) with hnothing | hsome
  · rw [hframes, sentFrames_of_nothing hmax hnothing, List.flatten_singleton]
    exact (chunkFrame_nil_length_le (hfit 0 (Nat.zero_le _)) _).trans (Nat.le_max_left ..)
  · obtain ⟨q, hq, -, -, hout⟩ := segEmit_ok hver hmax hlong
    rw [hemit] at hq
    injection hq with hq
    rw [hq]
    omega

/-- Settles O26: a run has at least one chunk. -/
theorem segmenterCursorAndLiveness : Obligations.SegmenterCursorAndLiveness := by
  intro fw g p h
  obtain ⟨hchunks, -, -, hcur, hframes⟩ := segmentFn_answers h
  refine ⟨hcur, hcur ▸ segAvail_le fw.length g, ?_⟩
  rw [hframes, sentFrames_length]
  exact hchunks.length_pos

section Threading
variable {L : Nat} {g : SegOperands}

/-- A cursor inside the firmware stays where it is without a skip (R212, R213). -/
theorem segCur2_of_inside {cur : Nat} (h : cur ≤ L) (request : Int) :
    (segCur2 L { g with cur0 := cur, req := request, rew := 0 }).toNat = cur := by
  simp only [segCur2, segCur1, clamp]
  omega

/-- The bytes sent for a request that is not negative (R215). -/
theorem segAvail_eq_min {request : Nat} (h : g.req = request) :
    segAvail L g = min request (L - (segCur2 L g).toNat) := by
  have := segCur2_range L g
  rw [segAvail, h]
  omega

end Threading

/-- Settles O24: the bytes that the two calls send follow one another in the firmware, and together they are the bytes
that the single call sends. -/
theorem segmenterThreadsTheCursor : Obligations.SegmenterThreadsTheCursor := by
  intro fw g first second p q whole hinside hp hq hwhole
  obtain ⟨-, -, -, hpcur, -⟩ := segmentFn_answers hp
  obtain ⟨-, -, -, hqcur, -⟩ := segmentFn_answers hq
  obtain ⟨-, -, -, hwcur, -⟩ := segmentFn_answers hwhole
  have hpavail := segAvail_eq_min (L := fw.length) (g := { g with req := first }) (request := first) rfl
  have hqavail := segAvail_eq_min (L := fw.length) (g := { g with cur0 := p.cur, req := second, rew := 0 })
    (request := second) rfl
  have hwavail := segAvail_eq_min (L := fw.length) (g := { g with req := (first : Int) + second })
    (request := first + second) rfl
  have hpstart : segCur2 fw.length { g with req := first } = segCur2 fw.length g := rfl
  have hwstart : segCur2 fw.length { g with req := (first : Int) + second } = segCur2 fw.length g := rfl
  rw [hpstart] at hpcur hpavail
  rw [hwstart] at hwcur hwavail
  have hqstart := segCur2_of_inside (L := fw.length) (g := g) (cur := p.cur) (by omega) second
  rw [hqstart] at hqcur hqavail
  have hsame : q.cur = whole.cur := by omega
  refine ⟨hsame, ⟨_, _, _, segmentFn_carriesData hp, segmentFn_carriesData hq, segmentFn_carriesData hwhole⟩, ?_⟩
  intro datasP datasQ datasWhole hdatasP hdatasQ hdatasWhole
  rw [hdatasP.flatten_eq hp, hdatasQ.flatten_eq hq, hdatasWhole.flatten_eq hwhole, sentRun, sentRun, sentRun, hpstart,
    hqstart, hwstart, ← hpcur, ← hqcur, ← hwcur, ← hsame]
  exact slice_append_slice fw (by omega) (by omega)

end Sys2Proof.Machine
end

section
/-! SEGMENT on a whole firmware (R220 property 1), and where the sign reading of a peer word shows (R33, R34, R213, R215):
a word that the two readings tell apart is negative in one and at least 2^31 in the other, and as a skip it reaches the
end of the firmware or is none. -/

namespace Sys2Proof.Machine

section WholeFirmware
variable {s : State}

theorem startCursor_of_zero (hcursor : s.operands.cursorIn = 0) (hrewind : s.operands.rewindIn = 0) :
    startCursor s = 0 := by
  have hskip : peerNumber s.params.peerWordSigned 0 = 0 := by simp [peerNumber]
  rw [startCursor, hcursor, hrewind, hskip]
  simp [skippedCursor, clampedCursor, cursorNumber]

/-- A firmware that fits FWBUF is shorter than 2^31 bytes, so its length reads the same signed and unsigned (R1, R33). -/
theorem sendable_of_whole (hrange : s.operands.fwLen.toNat ≤ s.params.fwMaxBytes) (hcursor : s.operands.cursorIn = 0)
    (hrequested : s.operands.requestedIn = s.operands.fwLen) (hrewind : s.operands.rewindIn = 0) :
    sendable s = s.operands.fwLen.toNat := by
  have hsmall := hrange.trans_lt (fwMaxBytes_lt s.params)
  have hcur : (segCur2 s.operands.fwLen.toNat (segOperands s)).toNat = 0 := by
    rw [segCur2_segOperands, startCursor_of_zero hcursor hrewind]
  have hreq : (segOperands s).req = s.operands.fwLen.toNat := by
    rw [segOperands, hrequested, peerWord_of_lt _ hsmall]
  rw [← segAvail_segOperands, segAvail_eq_min hreq, hcur, Nat.sub_zero, Nat.min_self]

end WholeFirmware

/-- Settles O27: the run is the whole firmware, and its chunks are counted by `ChunksOf.length_eq`. -/
theorem segmentSendsTheWholeFirmware : Obligations.SegmentSendsTheWholeFirmware := by
  intro s hrange hpos hcursor hrequested hrewind hmax hver
  obtain ⟨fw, hfw⟩ : ∃ fw, FirmwareIs fw s := ⟨_, firmwareIs_memRead hrange⟩
  have hsmall := hrange.trans_lt (fwMaxBytes_lt s.params)
  have hlimit : chunkLimitOf s = 250 := by
    rw [chunkLimitOf, hmax]
    exact ite_self _
  obtain ⟨-, hsegment⟩ := segmentEmitsTheChunksOrRejects s
  obtain ⟨-, -, -, hemits⟩ := hsegment fw hfw
  obtain ⟨t, chunks, hexec, hchunks, -, -, hstatus, hresults, -⟩ :=
    hemits hver (by rw [hmax]; decide) fun _ => by omega
  obtain ⟨hfwlen, -⟩ := hfw
  rw [startCursor_of_zero hcursor hrewind, sendable_of_whole hrange hcursor hrequested hrewind, Nat.zero_add]
    at hchunks hresults
  rw [hfwlen, slice_full, hlimit] at hchunks
  have hcount := hchunks.length_eq (List.ne_nil_of_length_pos (hfwlen ▸ hpos))
  rw [← hfwlen] at hcount
  refine ⟨t, hexec, by rw [hstatus], ?_, ?_⟩
  · rw [hresults]
    exact (BitVec.ofNat_toNat ..).trans (BitVec.setWidth_eq _)
  · rw [hresults]
    exact ((BitVec.toNat_ofNat ..).trans (Nat.mod_eq_of_lt (by omega))).trans hcount

section PeerSign
variable (signed : Bool) (s : State)

/-- The state with the given value of PEER_WORD_SIGNED (R1). -/
def withPeerSign (signed : Bool) (s : State) : State :=
  { s with params := { s.params with peerWordSigned := signed } }

/-- No completion looks at PEER_WORD_SIGNED (R243 to R245). -/
theorem completeWith_withPeerSign (r : Result Commit) :
    completeWith r (withPeerSign signed s) = withPeerSign signed (completeWith r s) := by
  cases r <;> rfl

theorem firmwareInput_withPeerSign : firmwareInput (withPeerSign signed s) = firmwareInput s := rfl

end PeerSign

section Skip
variable {L : Nat} {g : SegOperands} {fw : Bytes}

/-- A skip that is not forward, or that reaches the end of the firmware, is none (R213). -/
theorem segCur2_skip_ignored {rewind : Int} (h : rewind ≤ 0 ∨ L ≤ rewind) :
    segCur2 L { g with rew := rewind } = segCur1 L g := by
  have hrange := segCur1_range L g
  refine if_neg fun hskip => ?_
  obtain ⟨hforward, hinside⟩ := hskip
  change segCur1 L g + rewind < L at hinside
  simp only at hforward
  omega

/-- The sign reading of REWIND is not observable (R213). -/
theorem segCur2_peerWord (hL : L ≤ 2 ^ 31) (p : Params) (v : Word) :
    segCur2 L { g with rew := peerWord p v } = segCur2 L { g with rew := zext v } := by
  by_cases hv : v.toNat < 2 ^ 31
  · rw [peerWord_of_lt p hv, zext]
  · have hsigned : peerWord p v ≤ 0 ∨ (L : Int) ≤ peerWord p v := by
      rw [peerWord_eq_peerNumber, peerNumber]
      split <;> omega
    rw [segCur2_skip_ignored hsigned, segCur2_skip_ignored (.inr (by rw [zext]; omega))]

/-- The chunk loop does not look at the skip (R216). -/
theorem segLoop_withSkip (rewind : Int) (avail turns : Nat) (p : SegProgress) :
    segLoop fw { g with rew := rewind } avail turns p = segLoop fw g avail turns p := by
  induction turns generalizing p with
  | zero => rfl
  | succ turns ih =>
    have hturns : segLoop fw { g with rew := rewind } avail turns = segLoop fw g avail turns := funext ih
    rw [segLoop, segLoop, hturns]
    rfl

/-- Two skips that put the cursor in one place give one answer. -/
theorem segmentFn_congr_skip {rewind rewind' : Int}
    (h : segCur2 fw.length { g with rew := rewind } = segCur2 fw.length { g with rew := rewind' }) :
    segmentFn fw { g with rew := rewind } = segmentFn fw { g with rew := rewind' } := by
  have havail : segAvail fw.length { g with rew := rewind } = segAvail fw.length { g with rew := rewind' } := by
    rw [segAvail, segAvail, h]
  have hemit : segEmit fw { g with rew := rewind } = segEmit fw { g with rew := rewind' } := by
    rw [segEmit, segEmit, h, havail, segLoop_withSkip rewind, segLoop_withSkip rewind']
    rfl
  rw [segmentFn, segmentFn, havail, hemit]
  rfl

end Skip

/-- With a request below 2^31 the two sign readings differ in the skip alone (R33, R34). -/
theorem segOperands_withPeerSign {s : State} (hrequested : s.operands.requestedIn.toNat < 2 ^ 31) (signed : Bool) :
    segOperands (withPeerSign signed s) =
      { segOperands s with rew := peerWord (withPeerSign signed s).params s.operands.rewindIn } := by
  have hreq : peerWord (withPeerSign signed s).params s.operands.requestedIn =
      peerWord s.params s.operands.requestedIn := by
    rw [peerWord_of_lt _ hrequested, peerWord_of_lt _ hrequested]
  show SegOperands.mk _ (peerWord (withPeerSign signed s).params s.operands.requestedIn) _ _ _ _ = _
  rw [hreq]
  rfl

/-- With a request below 2^31 the result of SEGMENT is the same under both sign readings: the request reads the same, and
the reading of REWIND does not show. -/
theorem segmentResult_withPeerSign {s : State} (hrequested : s.operands.requestedIn.toNat < 2 ^ 31) (signed : Bool) :
    segmentResult (withPeerSign signed s) = segmentResult (withPeerSign false s) := by
  rw [segmentResult, segmentResult, firmwareInput_withPeerSign, firmwareInput_withPeerSign]
  cases hfw : firmwareInput s with
  | notRecognized => rfl
  | contractError e => rfl
  | ok fw =>
    have hsmall : fw.length ≤ 2 ^ 31 := (firmwareInput_length hfw).trans (fwMaxBytes_lt s.params).le
    rw [andThen_ok, andThen_ok, segOperands_withPeerSign hrequested, segOperands_withPeerSign hrequested,
      segmentFn_congr_skip ((segCur2_peerWord hsmall _ _).trans (segCur2_peerWord hsmall _ _).symm)]

/-- Settles O28: both runs commit the same result to states that differ in PEER_WORD_SIGNED alone. -/
theorem peerSignIsObservableOnlyThroughLargeRequests : Obligations.PeerSignIsObservableOnlyThroughLargeRequests := by
  intro s hrequested
  have hcompletes (signed : Bool) : exec .segment (withPeerSign signed s) =
      .next (withPeerSign signed (completeWith (segmentResult (withPeerSign false s)) s)) := by
    rw [exec_eq_completeWith, completeWith_withPeerSign, ← segmentResult_withPeerSign hrequested signed]
    rfl
  exact ⟨_, _, hcompletes true, hcompletes false, rfl, rfl, fun _ => rfl⟩

end Sys2Proof.Machine
end

section
/-! The result classes (R240, R241, R244 to R247): which RESULT and ERRCODE each rule can answer, rule by rule along
R246's table, and what a completion with each class commits. -/

namespace Sys2Proof.Machine

/-- RESULT and ERRCODE of a completion with the given result (R240, R241). -/
def classAndCode {α : Type} : Result α → BitVec 2 × BitVec 4
  | .ok _ => (0, 0)
  | .notRecognized => (1, 0)
  | .contractError e => (2, errCodeBits e)

/-- Every completion leaves the block idle and done, with the class and the code of its result (R243 to R245). -/
theorem completeWith_status (r : Result Commit) (s : State) :
    (completeWith r s).status =
      { busy := false, done := true, result := (classAndCode r).1, errCode := (classAndCode r).2 } := by
  cases r <;> rfl

section Rules
variable {α β : Type} {r : Result α} {f : α → Result β} {allowed : List (BitVec 2 × BitVec 4)}

/-- A sequence of two rules ends in the classes in which both end. -/
theorem classAndCode_andThen_mem (hr : classAndCode r ∈ allowed) (hf : ∀ a, classAndCode (f a) ∈ allowed) :
    classAndCode (andThen r f) ∈ allowed := by
  cases r with
  | ok a => exact hf a
  | notRecognized => exact hr
  | contractError e => exact hr

theorem classAndCode_of_no_contractError (h : ∀ e, r ≠ .contractError e) : classAndCode r ∈ [(0, 0), (1, 0)] := by
  cases r with
  | ok a => exact .head _
  | notRecognized => exact .tail _ (.head _)
  | contractError e => exact absurd rfl (h e)

/-- The tests of the input come first, then those of a function of it; what is committed adds no class. -/
theorem classAndCode_of_stages {input : Result Bytes} {g : Bytes → Result α} {commit : α → Result Commit}
    {ofInput ofFunction : List (BitVec 2 × BitVec 4)} (hinput : classAndCode input ∈ ofInput)
    (hfunction : ∀ p, classAndCode (g p) ∈ ofFunction) (hcommit : ∀ a, classAndCode (commit a) = (0, 0))
    (hallowed : (0, 0) ∈ allowed ∧ ofInput ⊆ allowed ∧ ofFunction ⊆ allowed) :
    classAndCode (andThen input fun p => andThen (g p) commit) ∈ allowed := by
  obtain ⟨hok, hofInput, hofFunction⟩ := hallowed
  exact classAndCode_andThen_mem (hofInput hinput) fun p =>
    classAndCode_andThen_mem (hofFunction (hfunction p)) fun a => hcommit a ▸ hok

end Rules

section Functions
variable (s : State)

/-- R242. -/
theorem ibufInput_classAndCode : classAndCode (ibufInput s) ∈ [(0, 0), (2, 2)] := by
  rcases le_or_gt s.operands.inLen.toNat s.params.ibufBytes with hfits | hrange
  · rw [ibufInput_ok (inputIs_memRead hfits)]
    exact .head _
  · rw [ibufInput_range hrange]
    decide

/-- R242. -/
theorem firmwareInput_classAndCode : classAndCode (firmwareInput s) ∈ [(0, 0), (2, 3)] := by
  rcases le_or_gt s.operands.fwLen.toNat s.params.fwMaxBytes with hfits | hrange
  · rw [firmwareInput_ok (firmwareIs_memRead hfits)]
    exact .head _
  · rw [firmwareInput_range hrange]
    decide

/-- R143. -/
theorem encFrame_classAndCode (v : BitVec 16) (f t c : Nat) (p : Bytes) (ver : Byte) (chk : Bool) :
    classAndCode (encFrame v f t c p ver chk) ∈ [(0, 0), (2, 4), (2, 5)] := by
  by_cases hver : ver.toNat < 3
  · rw [encFrame_badVersion hver]
    decide
  by_cases hlong : 4 ≤ ver.toNat ∧ 65535 < p.length ∨ ver.toNat = 3 ∧ 254 < p.length
  · rw [encFrame_payloadTooLong (by omega) hlong]
    decide
  · rw [encFrame_of_withinLimits ⟨by omega, by omega, by omega⟩]
    exact .head _

/-- R170. -/
theorem encUpg_classAndCode (op : Byte) (c : Bytes) : classAndCode (encUpg op c) ∈ [(0, 0), (2, 6)] := by
  rcases le_or_gt c.length 65535 with hfits | hlong
  · rw [encUpg_of_fits hfits]
    exact .head _
  · rw [encUpg_contentTooLong hlong]
    decide

/-- The segmenter refuses by the checks of R211 alone: where they pass, every chunk fits a frame, so no encoder that it
calls refuses. -/
theorem segmentFn_classAndCode (fw : Bytes) (g : SegOperands) :
    classAndCode (segmentFn fw g) ∈ [(0, 0), (2, 4), (2, 7), (2, 5)] := by
  by_cases hver : g.ver.toNat < 3
  · rw [segmentFn_badVersion hver]
    decide
  by_cases hmax : g.maxChunk = 0
  · rw [segmentFn_badMaxPerPacket (by omega) hmax]
    decide
  by_cases hlong : 4 ≤ g.ver.toNat ∧ 65535 < min (segEff g) (segAvail fw.length g) + 4
  · rw [segmentFn_payloadTooLong hlong.1 hmax hlong.2]
    decide
  · have hfits : 4 ≤ g.ver.toNat → min (segEff g) (segAvail fw.length g) + 4 ≤ 65535 := by omega
    rw [segmentFn_eq_sentFrames (by omega) hmax hfits]
    exact .head _

end Functions

section Operations
variable (s : State)

theorem encPduResult_classAndCode : classAndCode (encPduResult s) ∈ allowedOutcome .encPdu :=
  classAndCode_andThen_mem (ibufInput_classAndCode s) fun _ => .head _

theorem encFrameResult_classAndCode : classAndCode (encFrameResult s) ∈ allowedOutcome .encFrame :=
  classAndCode_of_stages (ibufInput_classAndCode s) (fun _ => encFrame_classAndCode ..) (fun _ => rfl) (by decide)

theorem encUpgResult_classAndCode : classAndCode (encUpgResult s) ∈ allowedOutcome .encUpg :=
  classAndCode_of_stages (ibufInput_classAndCode s) (fun _ => encUpg_classAndCode ..) (fun _ => rfl) (by decide)

theorem segmentResult_classAndCode : classAndCode (segmentResult s) ∈ allowedOutcome .segment :=
  classAndCode_of_stages (firmwareInput_classAndCode s) (fun _ => segmentFn_classAndCode ..) (fun _ => rfl) (by decide)

/-- DEC_FRAME, DEC_UPG and the recognizers share a row of R246: a decoder that raises no contract error, behind the test
of IN_LEN. -/
theorem decoder_classAndCode {α : Type} {decoder : Bytes → Result α} {commit : α → Result Commit}
    (hdecoder : ∀ m e, decoder m ≠ .contractError e) (hcommit : ∀ a, classAndCode (commit a) = (0, 0)) :
    classAndCode (andThen (ibufInput s) fun m => andThen (decoder m) commit) ∈ [(0, 0), (1, 0), (2, 2)] :=
  classAndCode_of_stages (ibufInput_classAndCode s) (fun m => classAndCode_of_no_contractError (hdecoder m)) hcommit
    (by decide)

theorem decFrameResult_classAndCode : classAndCode (decFrameResult s) ∈ allowedOutcome .decFrame :=
  decoder_classAndCode s (fun _ => decFrame_no_contractError _ _) fun _ => rfl

theorem decUpgResult_classAndCode : classAndCode (decUpgResult s) ∈ allowedOutcome .decUpg :=
  decoder_classAndCode s decUpg_no_contractError fun _ => rfl

theorem recAppverResult_classAndCode : classAndCode (recAppverResult s) ∈ allowedOutcome .recAppver :=
  decoder_classAndCode s (fun _ => recAppVer_no_contractError _ _) fun _ => rfl

theorem recDatareqResult_classAndCode : classAndCode (recDatareqResult s) ∈ allowedOutcome .recDatareq :=
  decoder_classAndCode s (fun _ => recDataReq_no_contractError _ _) fun _ => rfl

/-- R246's table for every instruction; a wire selector has the row of the operation that its own row names. -/
theorem resultOf_classAndCode (i : Instr) : classAndCode (resultOf i s) ∈ allowedOutcome i := by
  cases i with
  | packHdr | unpackHdr => exact .head _
  | encPdu => exact encPduResult_classAndCode s
  | encFrame => exact encFrameResult_classAndCode s
  | decFrame => exact decFrameResult_classAndCode s
  | encUpg => exact encUpgResult_classAndCode s
  | decUpg => exact decUpgResult_classAndCode s
  | recAppver | appverRsp => exact recAppverResult_classAndCode s
  | recDatareq | dataBytesReqNtf | upgDataBytesReq => exact recDatareqResult_classAndCode s
  | segment | upgDataCmd | upgData => exact segmentResult_classAndCode s
  | reservedOp0 | reservedOpB | reservedOpC | reservedOpD | reservedOpE | reservedOpF => exact .head _

end Operations

/-- Settles O30: the class and the code of the completion are those of the operation's result. -/
theorem everyOperationEndsInItsClasses : Obligations.EveryOperationEndsInItsClasses := by
  intro i s
  refine ⟨_, exec_eq_completeWith i s, ?_⟩
  rw [completeWith_status]
  exact ⟨rfl, rfl, resultOf_classAndCode s i⟩

theorem eq_contractError_of_status {r : Result Commit} {s : State} (h : (completeWith r s).status.result = 2) :
    ∃ e, r = .contractError e := by
  cases r with
  | ok c => exact absurd h (by decide : (0 : BitVec 2) ≠ 2)
  | notRecognized => exact absurd h (by decide : (1 : BitVec 2) ≠ 2)
  | contractError e => exact ⟨e, rfl⟩

/-- RESULT 3 names no class (R240). -/
theorem completeWith_result_ne_three (r : Result Commit) (s : State) : (completeWith r s).status.result ≠ 3 := by
  cases r with
  | ok c => exact (by decide : (0 : BitVec 2) ≠ 3)
  | notRecognized => exact (by decide : (1 : BitVec 2) ≠ 3)
  | contractError e => exact (by decide : (2 : BitVec 2) ≠ 3)

/-- Settles O31: RESULT tells which of the three completions took place. -/
theorem failuresCommitNothing : Obligations.FailuresCommitNothing := by
  intro i s t hexec
  rw [exec_eq_completeWith] at hexec
  injection hexec with ht
  subst ht
  refine ⟨fun h => ?_, fun h => ?_, completeWith_result_ne_three _ s⟩
  · rw [eq_notRecognized_of_status h]
    exact completeNotRecognized_completes s
  · obtain ⟨e, he⟩ := eq_contractError_of_status h
    rw [he]
    exact raiseContractError_completes e s

end Sys2Proof.Machine
end

section
/-! No turn stops the block, and none changes its configuration (R1, R20, R249). -/

namespace Sys2Proof.Machine

theorem step_of_reset {s : State} {rest : List Turn} (h : s.agenda = .reset :: rest) :
    step s = .next (applyReset (withAgenda rest s)) := by
  rw [step, h, withAgenda]

theorem completeWith_params (r : Result Commit) (s : State) : (completeWith r s).params = s.params := by
  obtain ⟨-, -, -, hparams, -, -⟩ := completeWith_keepsInputs r s
  exact hparams

theorem hostAccess_params (a : Access) (s : State) : (hostAccess a s).params = s.params := by
  obtain same | ⟨w, answered⟩ | ⟨-, op, started⟩ | ⟨-, r, w, -, written⟩ | ⟨-, b, addr, v, -, -, written⟩ :=
    hostAccess_cases a s
  · rw [same]
  · rw [answered]
  · rw [started, startOp_params]
  · rw [written]
  · rw [written, memWrite_params]

theorem sequencerTurn_goes_on (s : State) : ∃ t, sequencerTurn s = .next t ∧ t.params = s.params := by
  cases hbusy : s.status.busy with
  | false => exact ⟨s, sequencerTurn_idle hbusy, rfl⟩
  | true =>
    exact ⟨_, (sequencerTurn_busy hbusy).trans (exec_eq_completeWith (fetch s) s), completeWith_params _ s⟩

/-- Settles O46: an empty agenda and each kind of turn go on. -/
theorem everyStepGoesOn : Obligations.EveryStepGoesOn := by
  intro s
  cases hagenda : s.agenda with
  | nil =>
    rw [step_of_no_turns hagenda]
    exact sequencerTurn_goes_on s
  | cons turn rest =>
    cases turn with
    | sequencer =>
      rw [step_of_sequencer hagenda]
      exact sequencerTurn_goes_on (withAgenda rest s)
    | host a => exact ⟨_, step_of_host hagenda, hostAccess_params a (withAgenda rest s)⟩
    | idle => exact ⟨_, step_of_idle hagenda, rfl⟩
    | reset => exact ⟨_, step_of_reset hagenda, applyReset_params (withAgenda rest s)⟩

end Sys2Proof.Machine
end

section
/-! START, reset, and the busy window (R270 to R277, R282): while an operation is in flight the host and the passing of
LATENCY reach only what is outside the block, so the completion step finds the block as START and the operands left it. -/

namespace Sys2Proof.Machine

/-- A write of CMD on an idle block is a START (R274). -/
theorem hostWriteReg_start {s : State} {offset : BitVec 8} (hidle : s.status.busy = false)
    (hreg : regAt offset = some .cmd) (w : Word) : hostWriteReg offset w s = startOp (w.extractLsb' 0 4) s := by
  rw [hostWriteReg, hreg, if_neg (by simp [hidle])]
  exact if_pos rfl

/-- Settles O34: CMD is the register at the offsets below 4. -/
theorem startLatchesTheOperation : Obligations.StartLatchesTheOperation := by
  intro s offset w rest hidle hoffset hturn
  have hreg : regAt offset = some .cmd := by
    rw [← BitVec.zero_add offset]
    exact regAt_regOffset_add .cmd hoffset
  rw [step_of_host hturn, hostAccess, hostWriteReg_start (s := withAgenda rest s) hidle hreg]
  rfl

theorem hostWriteByte_busy {s : State} (h : s.status.busy = true) (b : Buf) (addr : Nat) (v : Byte) :
    hostWriteByte b addr v s = s :=
  if_pos h

/-- Settles O35: both kinds of write test BUSY, and that of a byte the buffer. -/
theorem writesWhileBusyAreIgnored : Obligations.WritesWhileBusyAreIgnored := by
  intro s rest a hturn hreg hbyte hignored
  suffices hsame : hostAccess a (withAgenda rest s) = withAgenda rest s by
    rw [step_of_host hturn, hsame, withAgenda]
  cases a with
  | readReg offset => exact absurd rfl (hreg offset)
  | readByte b addr => exact absurd rfl (hbyte b addr)
  | writeReg offset w =>
    have hbusy : s.status.busy = true := hignored.resolve_right fun ⟨_, _, hobuf⟩ => nomatch hobuf
    exact hostWriteReg_busy (s := withAgenda rest s) hbusy offset w
  | writeByte b addr v =>
    rcases hignored with hbusy | ⟨_, _, hobuf⟩
    · exact hostWriteByte_busy (s := withAgenda rest s) hbusy b addr v
    · injection hobuf with hb
      exact hostWriteByte_ignored (.inl hb) v

/-- The registers show nothing but the three register groups. -/
theorem regValue_congr {s t : State} (hoperands : t.operands = s.operands) (hstatus : t.status = s.status)
    (hresults : t.results = s.results) (r : Reg) : regValue r t = regValue r s := by
  cases r <;> simp only [regValue, hoperands, hstatus, hresults]

/-- Settles O43: the reset table, register by register. -/
theorem powerOnRegisters : Obligations.PowerOnRegisters := by
  intro r
  cases r <;> rfl

/-- Settles O42: reset puts the registers at their power-on values and leaves the buffers alone. -/
theorem resetSetsTheRegisters : Obligations.ResetSetsTheRegisters := by
  intro s rest hturn
  refine ⟨_, step_of_reset hturn, rfl, rfl, fun b => sameBytes_of_cells (by cases b <;> rfl), fun r => ?_⟩
  exact (regValue_congr (s := State.reset) rfl rfl rfl r).trans (powerOnRegisters r)

section Outside
variable (rest : List Turn) (answers : List Word) (s : State)

/-- The block with the given turns and answers outside it. -/
def withOutside (rest : List Turn) (answers : List Word) (s : State) : State :=
  { s with agenda := rest, answers := answers }

theorem sameBlock_withOutside : SameBlock s (withOutside rest answers s) :=
  ⟨rfl, rfl, rfl, rfl, rfl, rfl, rfl⟩

/-- What an operation reads is inside the block (R97). -/
theorem resultOf_withOutside (i : Instr) : resultOf i (withOutside rest answers s) = resultOf i s :=
  resultOf_congr i rfl rfl rfl rfl

theorem completeWith_withOutside (r : Result Commit) :
    completeWith r (withOutside rest answers s) = withOutside rest answers (completeWith r s) := by
  cases r <;> rfl

end Outside

section InFlight
variable {s : State} (hbusy : s.status.busy = true)
include hbusy

/-- While BUSY a host access can only get an answer (R276, R277). -/
theorem hostAccess_busy (a : Access) : ∃ answers, hostAccess a s = withOutside s.agenda answers s := by
  obtain same | ⟨w, answered⟩ | ⟨hidle, -⟩ | ⟨hidle, -⟩ | ⟨hidle, -⟩ := hostAccess_cases a s
  · exact ⟨s.answers, same⟩
  · exact ⟨w :: s.answers, answered⟩
  all_goals exact absurd hbusy (by simp [hidle])

/-- While BUSY an idle turn or a host access leaves the block as it is. -/
theorem step_of_wait {turn : Turn} {rest : List Turn} (hwait : turn = .idle ∨ ∃ a, turn = .host a)
    (hturn : s.agenda = turn :: rest) : ∃ answers, step s = .next (withOutside rest answers s) := by
  rcases hwait with rfl | ⟨a, rfl⟩
  · exact ⟨s.answers, step_of_idle hturn⟩
  · obtain ⟨answers, hanswers⟩ := hostAccess_busy (s := withAgenda rest s) hbusy a
    exact ⟨answers, by rw [step_of_host hturn, hanswers]; rfl⟩

/-- The sequencer's turn while BUSY is the completion of the instruction in flight, whatever is outside the block. -/
theorem sequencerTurn_withOutside (rest : List Turn) (answers : List Word) :
    sequencerTurn (withOutside rest answers s) =
      .next (withOutside rest answers (completeWith (resultOf (fetch s) s) s)) := by
  rw [sequencerTurn_busy (s := withOutside rest answers s) hbusy, exec_eq_completeWith, resultOf_withOutside,
    completeWith_withOutside]
  rfl

/-- A step while BUSY ends the operation, or it takes a turn and leaves the block as it is. -/
theorem step_ends_or_waits : ∃ t, step s = .next t ∧
    (t.status.busy = false ∨ ∃ turn rest answers, s.agenda = turn :: rest ∧ t = withOutside rest answers s) := by
  have hended : (completeWith (resultOf (fetch s) s) s).status.busy = false := by rw [completeWith_status]
  cases hagenda : s.agenda with
  | nil =>
    exact ⟨_, (step_of_no_turns hagenda).trans (sequencerTurn_withOutside hbusy s.agenda s.answers), .inl hended⟩
  | cons turn rest =>
    cases turn with
    | sequencer =>
      exact ⟨_, (step_of_sequencer hagenda).trans (sequencerTurn_withOutside hbusy rest s.answers), .inl hended⟩
    | reset => exact ⟨_, step_of_reset hagenda, .inl rfl⟩
    | idle | host =>
      obtain ⟨answers, hstep⟩ := step_of_wait hbusy (by simp) hagenda
      exact ⟨_, hstep, .inr ⟨_, rest, answers, rfl, rfl⟩⟩

end InFlight

theorem run_of_step {s t : State} (h : step s = .next t) (k : Nat) :
    Sys2Proof.core.run (k + 1) s = Sys2Proof.core.run k t := by
  have hstep : Sys2Proof.core.step s = .next t := h
  simp only [Host.Core.run, hstep]

/-- Waiting and host accesses while BUSY take one step each and leave the block as it is. -/
theorem run_waits {waits rest : List Turn} {s : State} (hbusy : s.status.busy = true)
    (hwaits : ∀ x ∈ waits, x = .idle ∨ ∃ a, x = .host a) (hagenda : s.agenda = waits ++ rest) :
    ∃ answers, ∀ k, Sys2Proof.core.run (waits.length + k) s = Sys2Proof.core.run k (withOutside rest answers s) := by
  induction waits generalizing s with
  | nil =>
    obtain rfl : s.agenda = rest := hagenda
    exact ⟨s.answers, fun k => by rw [List.length_nil, Nat.zero_add]; rfl⟩
  | cons turn turns ih =>
    obtain ⟨hfirst, hothers⟩ := List.forall_mem_cons.1 hwaits
    obtain ⟨answers, hstep⟩ := step_of_wait hbusy hfirst hagenda
    obtain ⟨answers', hrun⟩ := ih (s := withOutside (turns ++ rest) answers s) hbusy hothers rfl
    refine ⟨answers', fun k => ?_⟩
    rw [List.length_cons, Nat.add_right_comm, run_of_step hstep]
    exact hrun k

/-- Settles O48: the waits leave the block as it is, and a completion does not look outside it. -/
theorem outcomeDoesNotDependOnLatency : Obligations.OutcomeDoesNotDependOnLatency := by
  intro s waits hbusy hwaits
  obtain ⟨answers, hrun⟩ := run_waits (s := { s with agenda := waits ++ [.sequencer] }) hbusy hwaits rfl
  have hlast : step (withOutside [.sequencer] answers s) = sequencerTurn (withOutside [] answers s) :=
    step_of_sequencer rfl
  have honce : step (withOutside [] s.answers s) = sequencerTurn (withOutside [] s.answers s) := step_of_no_turns rfl
  rw [sequencerTurn_withOutside hbusy] at hlast honce
  exact ⟨_, _, (hrun 1).trans (run_of_step hlast 0), honce, sameBlock_withOutside ..⟩

/-- Settles O47, by induction on the number of turns pending: a step that does not end the operation takes one. -/
theorem operationsTerminate : Obligations.OperationsTerminate := by
  intro s hbusy
  induction hturns : s.agenda.length using Nat.strong_induction_on generalizing s with
  | _ turns ih =>
    obtain ⟨t, hstep, hidle | ⟨turn, rest, answers, hagenda, rfl⟩⟩ := step_ends_or_waits hbusy
    · exact ⟨1, t, le_rfl, Nat.le_add_left .., run_of_step hstep 0, hidle⟩
    · have hfewer : turns = rest.length + 1 := by rw [← hturns, hagenda, List.length_cons]
      obtain ⟨k, t, -, hk, hrun, hidle⟩ := ih rest.length (by omega) (withOutside rest answers s) hbusy rfl
      exact ⟨k + 1, t, by omega, by omega, (run_of_step hstep k).trans hrun, hidle⟩

end Sys2Proof.Machine
end
